-- ==== Sys2Proof/Word.lean ====
section
/-! DEFINITION. The words of HFCG: bytes, the 32-bit bus and command word, the 20-byte digest. -/

namespace Sys2Proof

/-- One byte (`00_scope.md` R9: bit 7 is its most significant bit). -/
abbrev Byte := BitVec 8

/-- The bus word and the command word (`00_scope.md` R8). -/
abbrev Word := BitVec 32

/-- A byte string, first byte first (`00_scope.md` R12). -/
abbrev Bytes := List Byte

/-- A digest of the hash primitive: 20 bytes d[0] to d[19] (`20_memory.md` R65). -/
abbrev Digest := Vector Byte 20

end Sys2Proof
end

