-- ==== Sys2Proof/Config.lean ====
section
/-! DEFINITION. What one implementation of HFCG fixes: the parameters W and SEEDMAX, the hash function and the free
values. -/

namespace Sys2Proof

/-- The implementation parameters (`00_scope.md` R6, R7), as the CFG register reports them (`10_state.md` R35):
`wWords` = W / 32 and `seedWords` = SEEDMAX / 4. -/
structure Params where
  wWords : Nat
  seedWords : Nat
  deriving DecidableEq, Repr

/-- W, the width in bits of every big-integer register (R6). -/
def Params.width (c : Params) : Nat := 32 * c.wWords

/-- SEEDMAX, the capacity in bytes of the seed buffer (R7). -/
def Params.seedMax (c : Params) : Nat := 4 * c.seedWords

/-- The defaults for this hardware: W = 544 and SEEDMAX = 64 (R6, R7). Log entry 1. -/
def Params.default : Params := ⟨17, 16⟩

/-- The hash primitive's answer to a message (`60_exceptions.md` R226). UNINTERPRETED: the spec takes `Hash` as a
configuration function and assumes only that it is a function of the message (D17). Log entry 5. -/
opaque Config.hash : Bytes → Digest

/-- The n-th unspecified value: what a read of a data region returns while a command runs (`20_memory.md` R73, U1).
UNINTERPRETED: a free value. Log entry 4. -/
opaque Config.busyRead : Nat → Word

end Sys2Proof
end

