-- ==== Sys2Proof/Syntax.lean ====
section
/-! DEFINITION. The commands of HFCG, one constructor per row of spec/opcode_table.json, and the format of a command
word. -/

namespace Sys2Proof

/-- The eleven commands (`30_encoding.md` R92). A command names no register and carries no immediate (R94). The one
field is `adef`, the ADEF bit of R93: true means the command uses P − 3 in place of A. -/
inductive Instr where
  /-- NOP: no operation (`44_system_commands.md` R190). -/
  | nop
  /-- BITLEN: LBITS from P (`40_seed_expander.md` R110). -/
  | bitlen
  /-- EXPAND: R from the seed (`40_seed_expander.md` R118). -/
  | expand
  /-- CUBE, CUBE.ADEF: A3 (`41_modular_solver.md` R135). -/
  | cube (adef : Bool)
  /-- MODINV: RINV (`41_modular_solver.md` R137). -/
  | modinv
  /-- MODMUL: B2VAL (`41_modular_solver.md` R140). -/
  | modmul
  /-- MODSQRT: B1 and B2 (`41_modular_solver.md` R142). -/
  | modsqrt
  /-- DISC: DISCR (`42_discriminant_checker.md` R160). -/
  | disc
  /-- SOLVE, SOLVE.ADEF: CUBE, MODINV, MODMUL, MODSQRT as one command (`41_modular_solver.md` R150). -/
  | solve (adef : Bool)
  /-- GENERATE, GENERATE.ADEF: the whole pipeline (`43_curve_generator.md` R176). -/
  | generate (adef : Bool)
  /-- CLEAR: every data register zero (`44_system_commands.md` R191). -/
  | clear
  deriving DecidableEq, Repr

/-- Format CMD (`30_encoding.md` R91): the three fields of a command word. -/
structure CmdFields where
  /-- bits [7:0] -/
  opc : BitVec 8
  /-- bit [8] -/
  adef : Bool
  /-- bits [31:9], must be 0 -/
  zero : BitVec 23
  deriving DecidableEq, Repr

/-- Why a word encodes no command: the three tests of `30_encoding.md` R97, in their order. The block reports all
three alike, as ILLEGAL_CMD at DECODE. -/
inductive DecodeError where
  /-- w[31:9] ≠ 0 -/
  | zeroField
  /-- w[7:0] > 0x0A -/
  | opcode
  /-- w[8] = 1 on a command that reads no a -/
  | adefNotAllowed
  deriving DecidableEq, Repr

end Sys2Proof
end

