-- ==== Sys2Proof/Machine/State.lean ====
section
/-! DEFINITION. The state of HFCG (`10_state.md` R20) and of the agents around it (`00_scope.md` R18), as plain data. -/

namespace Sys2Proof.Machine

/-- The sequencer's position (`10_state.md` R40). Codes 11 to 14 are never taken and have no constructor. -/
inductive Stage where
  /-- 0: no command has completed since reset -/
  | none
  /-- 1: decode of the command word -/
  | decode
  /-- 2: the operand checks -/
  | check
  /-- 3: L ← bitlen(p) -/
  | bitlen
  /-- 4: seed expansion -/
  | expand
  /-- 5: a3 ← a³ mod p -/
  | cube
  /-- 6: modular inverse -/
  | inv
  /-- 7: b2val ← a3 · rInv mod p -/
  | mul
  /-- 8: modular square root -/
  | sqrt
  /-- 9: discriminant check -/
  | disc
  /-- 10: the work of NOP and CLEAR -/
  | sys
  /-- 15: END, the one terminal success state -/
  | fin
  deriving DecidableEq, Repr

/-- The error kinds of STATUS.ERR (`60_exceptions.md` R210); codes 6 to 15 are never produced. -/
inductive ErrKind where
  | none
  | noInverse
  | noSquareRoot
  | singularCurve
  | badOperand
  | illegalCmd
  deriving DecidableEq, Repr

/-- `raise kind(stage)` (`00_scope.md` R14): the error that ends a command and the stage that raises it. -/
structure Raise where
  kind : ErrKind
  stage : Stage
  deriving DecidableEq, Repr

/-- The fields of STATUS (`10_state.md` R36); bits 3 and 31 to 12 are 0. -/
structure Status where
  busy : Bool
  done : Bool
  wrbusy : Bool
  err : ErrKind
  stage : Stage
  deriving DecidableEq, Repr

/-- The stored bit of CTRL (`10_state.md` R37); bits 31 to 1 are RAZ/WI. -/
structure Ctrl where
  ie : Bool
  deriving DecidableEq, Repr

/-- The nine big-integer registers (`10_state.md` R20). -/
inductive BigReg where
  | p
  | a
  | r
  | a3
  | rinv
  | b2val
  | b1
  | b2
  | discr
  deriving DecidableEq, Repr

/-- The data registers, the members of read and write sets (`10_state.md` R48). -/
inductive DataReg where
  | big (x : BigReg)
  | lbits
  | seedlen
  | seed
  deriving DecidableEq, Repr

/-- One access of the host on the register port: a byte offset, a width in bytes and, for a write, the word written
(`20_memory.md` R68 to R70). The data of a write whose width is not 4 never reaches a register. -/
inductive Access where
  | read (addr width : Nat)
  | write (addr width : Nat) (v : Word)
  deriving DecidableEq, Repr

/-- The register port's answer to an access (`20_memory.md` R68, R69; `60_exceptions.md` R216). -/
inductive Reply where
  /-- no access has been made since reset -/
  | none
  /-- a write was taken by the port (stored, ignored or dropped) -/
  | ack
  /-- the value a read returned -/
  | data (v : Word)
  /-- the access was refused -/
  | busError
  deriving DecidableEq, Repr

/-- One transaction of the hash port (`60_exceptions.md` R228, R229). -/
inductive PortEvent where
  | req (m : Bytes)
  | resp (d : Digest)
  deriving DecidableEq, Repr

/-- What happens next (`00_scope.md` R18: each agent has its own step). A list of turns is one interleaving of the
agents; every finite interleaving is such a list. Log entry 3. -/
inductive Turn where
  /-- the host makes one access on the register port (`20_memory.md` R74) -/
  | access (q : Access)
  /-- `rst_n` is asserted and released (`70_reset_and_hazards.md` R240) -/
  | rst
  /-- the block does the work of one stage, or issues one hash request (`43_curve_generator.md` R172) -/
  | work
  /-- the hash primitive answers the request in flight (`60_exceptions.md` R230) -/
  | answer
  /-- the block takes the command to its completion as one atomic step (`70_reset_and_hazards.md` R253) -/
  | run
  deriving DecidableEq, Repr

/-- The architectural state of HFCG, then the model's own fields (INVENTORY.md, `## State`). ID is a constant and
`irq` a function of state (`10_state.md` R34, R45): neither is a field. -/
structure State where
  /-- the parameters W and SEEDMAX, which CFG reports (R35); no step changes them -/
  cfg : Params
  /-- P, the modulus; this and the eight registers below hold W bits each (R21; `State.RegsFit`, log entry 6) -/
  p : Nat
  a : Nat
  r : Nat
  a3 : Nat
  rinv : Nat
  b2val : Nat
  b1 : Nat
  b2 : Nat
  discr : Nat
  /-- LBITS, 32 bits (R31) -/
  lbits : Word
  /-- SEEDLEN, 32 bits (R33) -/
  seedlen : Word
  /-- SEED[0] to SEED[SEEDMAX−1] (R32) -/
  seed : Bytes
  /-- CTRL (R37) -/
  ctrl : Ctrl
  /-- STATUS (R36) -/
  status : Status
  /-- CMD, the last accepted word (R38) -/
  cmd : Word
  /-- the sequencer (R40) -/
  stage : Stage
  /-- the hash request in flight (R44) -/
  hreq : Option Bytes
  /-- MODEL's own: what the agents do next, in order (log entry 3) -/
  turns : List Turn
  /-- MODEL's own: the port's answer to the last access (log entry 13) -/
  reply : Reply
  /-- MODEL's own: how many unspecified values have been read (log entry 4) -/
  draws : Nat
  /-- MODEL's own: the hash port's transactions of the current or last command (log entry 9) -/
  hist : List PortEvent
  /-- MODEL's own: the hash primitive's answers to given messages (log entry 5) -/
  hashTable : List (Bytes × Digest)
  deriving DecidableEq, Repr

/-- Why the machine stops with a fault: never. "The core itself has no notion of a fatal error"
(`60_exceptions.md` R224): every error is a completion of the command, and BusError is an answer of the port
(R216). Log entry 18. -/
inductive Fault where
  deriving DecidableEq, Repr

/-- Why a step has no meaning. Raised by `exec` alone. -/
inductive Refusal where
  /-- the instruction of this mnemonic has no meaning in the model yet (safe: the model stops where the hardware goes
  on); no arm of `exec` answers it -/
  | notModelled (mnemonic : String)
  deriving DecidableEq, Repr

/-- The state after reset of a block with parameters `c` (`10_state.md` R47). -/
def State.resetOf (c : Params) : State where
  cfg := c
  p := 0
  a := 0
  r := 0
  a3 := 0
  rinv := 0
  b2val := 0
  b1 := 0
  b2 := 0
  discr := 0
  lbits := 0
  seedlen := 0
  seed := List.replicate c.seedMax 0
  ctrl := ⟨false⟩
  status := ⟨false, false, false, .none, .none⟩
  cmd := 0
  stage := .none
  hreq := none
  turns := []
  reply := .none
  draws := 0
  hist := []
  hashTable := []

/-- The machine right after reset, with the default parameters (`10_state.md` R47, `00_scope.md` R6, R7). -/
def State.reset : State := State.resetOf Params.default

end Sys2Proof.Machine
end

