-- ==== Sys2Proof/Machine/Arith.lean ====
section
/-! DEFINITION. The integer and byte-string primitives of `00_scope.md` R11, R12 and the algorithms of the modular
solver, `41_modular_solver.md` R139, R144. All values are natural numbers (R10). -/

namespace Sys2Proof.Machine

/-- `ceil(x / y)` (R11). -/
def ceilDiv (x y : Nat) : Nat := (x + (y - 1)) / y

/-- `bitlen(n)`: 0 at 0, otherwise the k with 2^(k−1) ≤ n < 2^k (R11). -/
def bitlen (n : Nat) : Nat := if n = 0 then 0 else Nat.log2 n + 1

/-- Square-and-multiply over at most `fuel` bits of the exponent. -/
def modExpFuel (b m : Nat) : Nat → Nat → Nat
  | 0, _ => 1 % m
  | fuel + 1, e =>
    if e = 0 then 1 % m
    else
      let h := modExpFuel b m fuel (e / 2)
      if e % 2 = 0 then h * h % m else h * h % m * b % m

/-- `ModExp(b, e, m)` = (b^e) mod m (R11); `Laws.modExp_eq` proves that equation. -/
def modExp (b e m : Nat) : Nat := modExpFuel b m (bitlen e) e

/-! Byte strings (R12, `20_memory.md` R64). -/

/-- `be2int(bs)`: the big-endian value; 0 for the empty string. -/
def be2int (bs : Bytes) : Nat := bs.foldl (fun acc b => acc * 256 + b.toNat) 0

/-- The low `len` bytes of `n`, the most significant first. -/
def int2be (n : Nat) : Nat → Bytes
  | 0 => []
  | len + 1 => int2be (n / 256) len ++ [BitVec.ofNat 8 (n % 256)]

/-- `int2be_min(n)`: the shortest byte string of value n; its length is ceil(bitlen(n)/8). -/
def int2beMin (n : Nat) : Bytes := int2be n (ceilDiv (bitlen n) 8)

/-- `last(k, bs)`: the last k bytes of bs, in order. -/
def lastBytes (k : Nat) (bs : Bytes) : Bytes := bs.drop (bs.length - k)

/-! The inverse unit (`41_modular_solver.md` R139). -/

/-- The loop of R139 on (a, b) and (x0, x1); it answers the final a and x0. b strictly decreases, so `fuel` > b is
never used up. -/
def euclidLoop (p : Nat) : Nat → Nat → Nat → Nat → Nat → Nat × Nat
  | 0, a, _, x0, _ => (a, x0)
  | fuel + 1, a, b, x0, x1 =>
    if b = 0 then (a, x0)
    else
      let q := a / b
      euclidLoop p fuel b (a - q * b) x1 (((x0 : Int) - (q : Int) * (x1 : Int)) % (p : Int)).toNat

/-- The inverse of r modulo p, none where gcd(r mod p, p) ≠ 1 (R137, R139). -/
def modInv (p r : Nat) : Option Nat :=
  let u := r % p
  let ax := euclidLoop p (u + 1) p u 0 1
  if ax.1 = 1 then some ax.2 else none

/-! The square-root unit (`41_modular_solver.md` R144). -/

/-- The least n in lo, …, lo + len − 1 that passes the test. -/
def leastFrom (test : Nat → Bool) : Nat → Nat → Option Nat
  | 0, _ => none
  | len + 1, lo => if test lo then some lo else leastFrom test len (lo + 1)

/-- `while Q mod 2 = 0: Q <- Q/2; S <- S + 1`; Q at least halves, so `fuel` ≥ Q is never used up. -/
def oddPart : Nat → Nat → Nat → Nat × Nat
  | 0, q, s => (q, s)
  | fuel + 1, q, s => if q % 2 = 0 then oddPart fuel (q / 2) (s + 1) else (q, s)

/-- The least quadratic non-residue by Euler's criterion: the z of R144, searched in [2, p−1]. -/
def leastNonResidue (p : Nat) : Option Nat :=
  leastFrom (fun z => modExp z ((p - 1) / 2) p == p - 1) (p - 2) 2

/-- The loop `while t != 1` of R144 on M, c, t, x. M strictly decreases, so `fuel` > M is never used up. -/
def tonelliLoop (p : Nat) : Nat → Nat → Nat → Nat → Nat → Option Nat
  | 0, _, _, _, _ => none
  | fuel + 1, m, c, t, x =>
    if t = 1 then some x
    else match leastFrom (fun i => modExp t (2 ^ i) p == 1) (m - 1) 1 with
      | none => none
      | some i =>
        let b := modExp c (2 ^ (m - i - 1)) p
        let c' := b * b % p
        tonelliLoop p fuel i c' (t * c' % p) (x * b % p)

/-- The candidate root of R144 for a non-zero v that passes Euler's criterion: the closed form when p ≡ 3 (mod 4),
else Tonelli–Shanks with the least non-residue. None where R144 raises NO_SQUARE_ROOT. -/
def rootCandidate (p v : Nat) : Option Nat :=
  if p % 4 = 3 then some (modExp v ((p + 1) / 4) p)
  else
    let qs := oddPart p (p - 1) 0
    match leastNonResidue p with
    | none => none
    | some z =>
      tonelliLoop p (qs.2 + 1) qs.2 (modExp z qs.1 p) (modExp v qs.1 p) (modExp v ((qs.1 + 1) / 2) p)

/-- `ModSqrt(p, v0)` of R144, with R148 (p = 2) and R149 (even p > 2): the root, or the kind it raises. -/
def modSqrt (p v0 : Nat) : Except ErrKind Nat :=
  let v := v0 % p
  if p = 2 then .ok v
  else if p % 2 = 0 then .error .badOperand
  else if v = 0 then .ok 0
  else if modExp v ((p - 1) / 2) p ≠ 1 then .error .noSquareRoot
  else match rootCandidate p v with
    | none => .error .noSquareRoot
    | some x => if x * x % p = v then .ok x else .error .noSquareRoot

end Sys2Proof.Machine
end

