-- ==== Sys2Proof/Machine/Flags.lean ====
section
/-! DEFINITION. The flags of HFCG and the control words: codes of stages and errors, the STATUS, CTRL, ID and CFG words
as the host reads them, the write-one-to-clear bits, the outputs `irq` and `hd_ready`. -/

namespace Sys2Proof.Machine

/-- The 4-bit code of a stage (`10_state.md` R40). -/
def Stage.code : Stage → BitVec 4
  | .none => 0
  | .decode => 1
  | .check => 2
  | .bitlen => 3
  | .expand => 4
  | .cube => 5
  | .inv => 6
  | .mul => 7
  | .sqrt => 8
  | .disc => 9
  | .sys => 10
  | .fin => 15

/-- The 4-bit code of an error kind (`60_exceptions.md` R210). -/
def ErrKind.code : ErrKind → BitVec 4
  | .none => 0
  | .noInverse => 1
  | .noSquareRoot => 2
  | .singularCurve => 3
  | .badOperand => 4
  | .illegalCmd => 5

/-- STATUS as the host reads it (`10_state.md` R36). -/
def Status.word (t : Status) : Word :=
  (0 : BitVec 20) ++ t.stage.code ++ t.err.code ++ (0 : BitVec 1)
    ++ BitVec.ofBool t.wrbusy ++ BitVec.ofBool t.done ++ BitVec.ofBool t.busy

/-- A write of v to STATUS: W1C of DONE (bit 1) and WRBUSY (bit 2), nothing else (`10_state.md` R36, `20_memory.md`
R70). -/
def Status.writeOneToClear (t : Status) (v : Word) : Status :=
  { t with done := t.done && !v.getLsbD 1, wrbusy := t.wrbusy && !v.getLsbD 2 }

/-- CTRL as the host reads it (`10_state.md` R37). -/
def Ctrl.word (c : Ctrl) : Word := (0 : BitVec 31) ++ BitVec.ofBool c.ie

/-- A write of v to CTRL stores bit 0 alone (`10_state.md` R37). -/
def Ctrl.ofWrite (v : Word) : Ctrl := ⟨v.getLsbD 0⟩

/-- ID, the constant "HFCG" (`10_state.md` R34). -/
def idWord : Word := 0x48464347

/-- CFG: W/32 in [7:0], SEEDMAX/4 in [15:8], the rest 0 (`10_state.md` R35). -/
def cfgWord (c : Params) : Word :=
  (0 : BitVec 16) ++ BitVec.ofNat 8 c.seedWords ++ BitVec.ofNat 8 c.wWords

/-- The interrupt output: STATUS.DONE and CTRL.IE (`10_state.md` R45, `60_exceptions.md` R217). -/
def State.irq (s : State) : Bool := s.status.done && s.ctrl.ie

/-- The output `hd_ready`: the block takes a digest only while its own request waits for one (`60_exceptions.md` R229,
R230). -/
def State.hdReady (s : State) : Bool := s.hreq.isSome

/-- One transfer on the request channel of the hash port (`60_exceptions.md` R227). -/
structure HqBeat where
  byte : Byte
  first : Bool
  last : Bool
  deriving DecidableEq, Repr

/-- The transfers of the bytes of a message from its byte k on: `hq_first` on m[0], `hq_last` on the last
(`60_exceptions.md` R228). -/
def beatsFrom (first : Bool) : Bytes → List HqBeat
  | [] => []
  | [b] => [⟨b, first, true⟩]
  | b :: bs => ⟨b, first, false⟩ :: beatsFrom false bs

/-- The transfers of a whole request message (`60_exceptions.md` R228). -/
def requestBeats (m : Bytes) : List HqBeat := beatsFrom true m

/-- The digest as the 160-bit value on `hd_digest`: d[0] in bits [159:152], d[19] in bits [7:0] (`20_memory.md`
R65). -/
def digestWord (d : Digest) : BitVec 160 :=
  d.toList.foldl (fun acc b => acc <<< 8 ||| b.setWidth 160) 0

end Sys2Proof.Machine
end

