-- ==== Sys2Proof/Machine/Operands.lean ====
section
/-! DEFINITION. The operands of the commands: the one operand form (ADEF), the seed bytes, the operand checks of stage
CHECK, and the read and write sets. -/

namespace Sys2Proof.Machine

/-- The effective coefficient a: A, or P − 3 when ADEF = 1 (`30_encoding.md` R93, R94). Stage CHECK has refused ADEF
with P < 3 before this is used. -/
def State.effectiveA (adef : Bool) (s : State) : Nat := if adef then s.p - 3 else s.a

/-- SEED[0..SEEDLEN), the seed as a byte string (`10_state.md` R32). -/
def State.seedBytes (s : State) : Bytes := s.seed.take s.seedlen.toNat

/-- `if P < 2: raise BAD_OPERAND(CHECK)` (`60_exceptions.md` R214). -/
def checkModulus (s : State) : Except Raise Unit :=
  if s.p < 2 then .error ⟨.badOperand, .check⟩ else .ok ()

/-- `if ADEF = 1 and P < 3: raise BAD_OPERAND(CHECK)` (R214, `30_encoding.md` R93). -/
def checkDefaultA (adef : Bool) (s : State) : Except Raise Unit :=
  if adef && s.p < 3 then .error ⟨.badOperand, .check⟩ else .ok ()

/-- `if SEEDLEN < 1 or SEEDLEN > SEEDMAX: raise BAD_OPERAND(CHECK)` (R214, `10_state.md` R33). -/
def checkSeedLen (s : State) : Except Raise Unit :=
  if s.seedlen.toNat < 1 || s.cfg.seedMax < s.seedlen.toNat then .error ⟨.badOperand, .check⟩ else .ok ()

/-- `if LBITS < 1 or LBITS > W: raise BAD_OPERAND(CHECK)` (R214, `10_state.md` R31). -/
def checkLbits (s : State) : Except Raise Unit :=
  if s.lbits.toNat < 1 || s.cfg.width < s.lbits.toNat then .error ⟨.badOperand, .check⟩ else .ok ()

/-- The write set of every command (`10_state.md` R48). -/
def writeSet : Instr → List DataReg
  | .nop => []
  | .bitlen => [.lbits]
  | .expand => [.big .r]
  | .cube _ => [.big .a3]
  | .modinv => [.big .rinv]
  | .modmul => [.big .b2val]
  | .modsqrt => [.big .b1, .big .b2]
  | .disc => [.big .discr]
  | .solve _ => [.big .a3, .big .rinv, .big .b2val, .big .b1, .big .b2]
  | .generate _ =>
    [.lbits, .big .r, .big .a3, .big .rinv, .big .b2val, .big .b1, .big .b2, .big .discr]
  | .clear =>
    [.big .p, .big .a, .big .r, .big .a3, .big .rinv, .big .b2val, .big .b1, .big .b2, .big .discr,
      .lbits, .seedlen, .seed]

/-- The read set of every command (`10_state.md` R48); `.seed` stands for SEED[0..SEEDLEN). -/
def readSet : Instr → List DataReg
  | .nop => []
  | .bitlen => [.big .p]
  | .expand => [.seed, .seedlen, .lbits]
  | .cube adef => if adef then [.big .p] else [.big .p, .big .a]
  | .modinv => [.big .p, .big .r]
  | .modmul => [.big .p, .big .a3, .big .rinv]
  | .modsqrt => [.big .p, .big .b2val]
  | .disc => [.big .p, .big .a3, .big .b2val]
  | .solve adef => if adef then [.big .p, .big .r] else [.big .p, .big .r, .big .a]
  | .generate adef => if adef then [.big .p, .seed, .seedlen] else [.big .p, .seed, .seedlen, .big .a]
  | .clear => []

end Sys2Proof.Machine
end

