-- ==== Sys2Proof/Machine/Ops.lean ====
section
/-! DEFINITION. The named operations on registers and on the sequencer: reading and writing a data register, acceptance
of a command, completion with an error (the block's exception entry) and with success, reset, the hash primitive. -/

namespace Sys2Proof.Machine

/-! Registers. -/

/-- The value of a big-integer register (`10_state.md` R21). -/
def State.big (s : State) : BigReg → Nat
  | .p => s.p
  | .a => s.a
  | .r => s.r
  | .a3 => s.a3
  | .rinv => s.rinv
  | .b2val => s.b2val
  | .b1 => s.b1
  | .b2 => s.b2
  | .discr => s.discr

/-- Write of a big-integer register; no other register changes (`10_state.md` R46). -/
def State.setBig (s : State) (v : Nat) : BigReg → State
  | .p => { s with p := v }
  | .a => { s with a := v }
  | .r => { s with r := v }
  | .a3 => { s with a3 := v }
  | .rinv => { s with rinv := v }
  | .b2val => { s with b2val := v }
  | .b1 => { s with b1 := v }
  | .b2 => { s with b2 := v }
  | .discr => { s with discr := v }

/-- Word j of an integer: bits [32j+31 : 32j] (`10_state.md` R21). -/
def wordOf (x j : Nat) : Word := BitVec.ofNat 32 (x / 2 ^ (32 * j))

/-- The integer whose word j is v and whose other words are those of x (`20_memory.md` R70). -/
def withWord (x j : Nat) (v : Word) : Nat :=
  x / 2 ^ (32 * j + 32) * 2 ^ (32 * j + 32) + v.toNat * 2 ^ (32 * j) + x % 2 ^ (32 * j)

/-- Word j of the seed buffer: byte 4j in bits [7:0] (`20_memory.md` R67). -/
def seedWord (seed : Bytes) (j : Nat) : Word :=
  seed.getD (4 * j + 3) 0 ++ seed.getD (4 * j + 2) 0 ++ seed.getD (4 * j + 1) 0 ++ seed.getD (4 * j) 0

/-- The seed buffer after a write of v to its word j: SEED[4j+n] ← v[8n+7 : 8n] (`20_memory.md` R70). -/
def withSeedWord (seed : Bytes) (j : Nat) (v : Word) : Bytes :=
  (((seed.set (4 * j) (v.extractLsb' 0 8)).set (4 * j + 1) (v.extractLsb' 8 8)).set (4 * j + 2)
    (v.extractLsb' 16 8)).set (4 * j + 3) (v.extractLsb' 24 8)

/-- A data register with every bit 0. -/
def State.zeroReg (s : State) : DataReg → State
  | .big x => s.setBig 0 x
  | .lbits => { s with lbits := 0 }
  | .seedlen => { s with seedlen := 0 }
  | .seed => { s with seed := List.replicate s.cfg.seedMax 0 }

/-- Every register of a list with every bit 0. -/
def State.zeroSet (s : State) (ws : List DataReg) : State := ws.foldl State.zeroReg s

/-! The hash primitive. -/

/-- `Hash(m)` (`60_exceptions.md` R226): a function of the message, and of nothing else. Log entry 5. -/
def State.hashOf (s : State) (m : Bytes) : Digest := (s.hashTable.lookup m).getD (Config.hash m)

/-- The history of the hash port over one command that sends the messages `ms`: request and response in strict
alternation (`60_exceptions.md` R229). -/
def portHistory (hash : Bytes → Digest) (ms : List Bytes) : List PortEvent :=
  ms.flatMap fun m => [.req m, .resp (hash m)]

/-! Acceptance and completion. -/

/-- Acceptance of the command word w, one atomic step (`10_state.md` R38). The read set is not copied: while BUSY = 1
no step before completion changes it (`20_memory.md` R72, R75). Log entry 7. -/
def State.accept (s : State) (w : Word) : State :=
  { s with
    cmd := w
    status := { s.status with busy := true, done := false, err := .none, stage := .none }
    stage := .decode
    hist := [] }

/-- Error completion, `raise e` (`60_exceptions.md` R220, R221): the block's exception entry, in one atomic step. Every
register of the write set is 0, the kind and the stage are latched, BUSY falls and DONE rises; `stage` stays at the
raising stage and nothing else is saved or changed. -/
def State.raise (s : State) (ws : List DataReg) (e : Raise) (events : List PortEvent) : State :=
  { s.zeroSet ws with
    status := { busy := false, done := true, wrbusy := s.status.wrbusy, err := e.kind, stage := e.stage }
    stage := e.stage
    hreq := none
    hist := events }

/-- Success completion (`60_exceptions.md` R222), of a state whose write set already holds the results. It is also the
only "return" (R223): the block is idle and the next command may be written at once. -/
def State.succeed (s : State) (events : List PortEvent) : State :=
  { s with
    status := { busy := false, done := true, wrbusy := s.status.wrbusy, err := .none, stage := .fin }
    stage := .fin
    hreq := none
    hist := events }

/-- Completion of a command with write set `ws`: of `out`, the state with the results or the first raise on its stage
path (`43_curve_generator.md` R172, `60_exceptions.md` R219). A command that fails at CHECK has issued no hash
request. -/
def State.settle (s : State) (ws : List DataReg) (events : List PortEvent) (out : Except Raise State) : State :=
  match out with
  | .ok t => t.succeed events
  | .error e => s.raise ws e (if e.stage = .check then [] else events)

/-- Completion of an accepted word that encodes no command: ILLEGAL_CMD at DECODE, empty write set
(`30_encoding.md` R97, `60_exceptions.md` R215). -/
def State.illegal (s : State) : State := s.raise [] ⟨.illegalCmd, .decode⟩ []

/-- `rst_n` asserted and released (`70_reset_and_hazards.md` R240): every register has its reset value, a running
command ends without completion. The parameters, the schedule, the count of free values and the hash primitive are no
state of the block and stay. Log entry 15. -/
def State.applyReset (s : State) : State :=
  { State.resetOf s.cfg with turns := s.turns, draws := s.draws, hashTable := s.hashTable }

end Sys2Proof.Machine
end

