-- ==== Sys2Proof/Machine/Port.lean ====
section
/-! DEFINITION. The register port, `20_memory.md` R68 to R73: the address map, MemRead and MemWrite. -/

namespace Sys2Proof.Machine

/-- What an offset of the register space holds (R71). -/
inductive Target where
  | id
  | cfg
  | ctrl
  | status
  | cmd
  | lbits
  | seedlen
  | bigWord (x : BigReg) (j : Nat)
  | seedWord (j : Nat)
  | hole
  deriving DecidableEq, Repr

/-- The big-integer register of a slot: slot k starts at 0x80 · k, k = 1 to 9 (R71). -/
def slotReg : Nat → Option BigReg
  | 1 => some .p
  | 2 => some .a
  | 3 => some .r
  | 4 => some .a3
  | 5 => some .rinv
  | 6 => some .b2val
  | 7 => some .b1
  | 8 => some .b2
  | 9 => some .discr
  | _ => none

/-- The base offset of a big-integer register (R71). -/
def BigReg.base : BigReg → Nat
  | .p => 0x080
  | .a => 0x100
  | .r => 0x180
  | .a3 => 0x200
  | .rinv => 0x280
  | .b2val => 0x300
  | .b1 => 0x380
  | .b2 => 0x400
  | .discr => 0x480

/-- The host may write the register; B1, B2 and DISCR ignore writes (R71). -/
def BigReg.hostWritable : BigReg → Bool
  | .p => true
  | .a => true
  | .r => true
  | .a3 => true
  | .rinv => true
  | .b2val => true
  | .b1 => false
  | .b2 => false
  | .discr => false

/-- The address map of a valid offset (R71): words past the register in a slot, bytes past the seed buffer and the
ranges without registers are holes. -/
def target (c : Params) (addr : Nat) : Target :=
  if addr = 0x000 then .id
  else if addr = 0x004 then .cfg
  else if addr = 0x008 then .ctrl
  else if addr = 0x00C then .status
  else if addr = 0x010 then .cmd
  else if addr = 0x014 then .lbits
  else if addr = 0x018 then .seedlen
  else if 0x500 ≤ addr ∧ addr < 0x600 then
    let j := (addr - 0x500) / 4
    if j < c.seedWords then .seedWord j else .hole
  else match slotReg (addr / 0x80) with
    | some x =>
      let j := addr % 0x80 / 4
      if j < c.wWords then .bigWord x j else .hole
    | none => .hole

/-- The one kind of access the port accepts: 4 bytes, aligned, at most 0x7FC (R68). -/
def validAccess (addr width : Nat) : Bool := width == 4 && addr % 4 == 0 && addr ≤ 0x7FC

/-- The data regions 0x014 to 0x01B and 0x080 to 0x5FF (R69). -/
def inDataRegion (addr : Nat) : Bool := (0x014 ≤ addr && addr ≤ 0x01B) || (0x080 ≤ addr && addr ≤ 0x5FF)

/-- The register word at a valid offset, an idle block's answer to a read (R69). -/
def State.wordAt (s : State) (addr : Nat) : Word :=
  match target s.cfg addr with
  | .id => idWord
  | .cfg => cfgWord s.cfg
  | .ctrl => s.ctrl.word
  | .status => s.status.word
  | .cmd => s.cmd
  | .lbits => s.lbits
  | .seedlen => s.seedlen
  | .bigWord x j => wordOf (s.big x) j
  | .seedWord j => seedWord s.seed j
  | .hole => 0

/-- `MemRead(addr, 4)` at a valid offset (R69, R73): while a command runs a data region reads as a free value, drawn
anew at every read. No register changes. -/
def State.memRead (s : State) (addr : Nat) : State :=
  if s.status.busy && inDataRegion addr then
    { s with reply := .data (Config.busyRead s.draws), draws := s.draws + 1 }
  else { s with reply := .data (s.wordAt addr) }

/-- A write that is dropped because a command runs: the one trace is STATUS.WRBUSY (R72). -/
def State.dropWrite (s : State) : State := { s with status := { s.status with wrbusy := true } }

/-- A write that takes effect only while the block is idle (R70, R72). -/
def State.whenIdle (s t : State) : State := if s.status.busy then s.dropWrite else t

/-- `MemWrite(addr, 4, v)` at a valid offset (R70). -/
def State.memWrite (s : State) (addr : Nat) (v : Word) : State :=
  match target s.cfg addr with
  | .status => { s with status := s.status.writeOneToClear v }
  | .ctrl => { s with ctrl := Ctrl.ofWrite v }
  | .id => s
  | .cfg => s
  | .hole => s
  | .cmd => s.whenIdle (s.accept v)
  | .lbits => s.whenIdle { s with lbits := v }
  | .seedlen => s.whenIdle { s with seedlen := v }
  | .bigWord x j => if x.hostWritable then s.whenIdle (s.setBig (withWord (s.big x) j v) x) else s
  | .seedWord j => s.whenIdle { s with seed := withSeedWord s.seed j v }

/-- One access of the host (R68 to R70): an access that is not valid is refused with BusError and changes nothing. -/
def State.access (s : State) (q : Access) : State :=
  match q with
  | .read addr width => if validAccess addr width then s.memRead addr else { s with reply := .busError }
  | .write addr width v =>
    if validAccess addr width then { s.memWrite addr v with reply := .ack } else { s with reply := .busError }

end Sys2Proof.Machine
end

