-- ==== Sys2Proof/WellFormed.lean ====
section
/-! DEFINITION. The checks on syntax and on parameters: which field triples form a command word, which parameters a
block can be built with. -/

namespace Sys2Proof

/-- ZERO is zero (`30_encoding.md` R97, first test). -/
def CmdFields.zeroOk (f : CmdFields) : Bool := f.zero == 0

/-- OPC is one of 0x00 to 0x0A (R97, second test). -/
def CmdFields.opcOk (f : CmdFields) : Bool := f.opc.toNat ≤ 0x0A

/-- ADEF is set on CUBE, SOLVE and GENERATE only (R97, third test; R93). -/
def CmdFields.adefOk (f : CmdFields) : Bool := !f.adef || f.opc == 0x03 || f.opc == 0x08 || f.opc == 0x09

/-- The fields encode a command (R92: exactly 14 words do). -/
def CmdFields.wellFormed (f : CmdFields) : Bool := f.zeroOk && f.opcOk && f.adefOk

/-- Every term of `Instr` is a legal command: its constructors carry ADEF exactly where R92 allows it. -/
def Instr.wellFormed : Instr → Bool
  | .nop => true
  | .bitlen => true
  | .expand => true
  | .cube _ => true
  | .modinv => true
  | .modmul => true
  | .modsqrt => true
  | .disc => true
  | .solve _ => true
  | .generate _ => true
  | .clear => true

/-- 32 ≤ W ≤ 1024, a multiple of 32 (`00_scope.md` R6). -/
def Params.widthOk (c : Params) : Bool := 1 ≤ c.wWords && c.wWords ≤ 32

/-- 4 ≤ SEEDMAX ≤ 256, a multiple of 4 (`00_scope.md` R7). -/
def Params.seedMaxOk (c : Params) : Bool := 1 ≤ c.seedWords && c.seedWords ≤ 64

/-- The parameters are those of a block that can be built (R6, R7). -/
def Params.wellFormed (c : Params) : Bool := c.widthOk && c.seedMaxOk

end Sys2Proof
end

