-- ==== Sys2Proof/Decode.lean ====
section
/-! DEFINITION. Decode and encode of command words, from the opcode map of `30_encoding.md` R91, R92, R97. -/

namespace Sys2Proof

/-- The fields of a command word (R91). -/
def CmdFields.ofWord (w : Word) : CmdFields :=
  ⟨w.extractLsb' 0 8, w.getLsbD 8, w.extractLsb' 9 23⟩

/-- The word made of three fields (R91). -/
def CmdFields.toWord (f : CmdFields) : Word :=
  f.zero ++ BitVec.ofBool f.adef ++ f.opc

/-- The command of an OPC value (R92); `adef` reaches the three commands that have it. -/
def commandOfOpc (opc : Nat) (adef : Bool) : Option Instr :=
  match opc with
  | 0x00 => some .nop
  | 0x01 => some .bitlen
  | 0x02 => some .expand
  | 0x03 => some (.cube adef)
  | 0x04 => some .modinv
  | 0x05 => some .modmul
  | 0x06 => some .modsqrt
  | 0x07 => some .disc
  | 0x08 => some (.solve adef)
  | 0x09 => some (.generate adef)
  | 0x0A => some .clear
  | _ => none

/-- Decode of a command word: the three tests of R97 in their order, then the row of R92. Total on all 2^32 words. -/
def decode (w : Word) : Except DecodeError Instr :=
  let f := CmdFields.ofWord w
  if f.zero ≠ 0 then .error .zeroField
  else if 0x0A < f.opc.toNat then .error .opcode
  else if f.adef && !(f.opc == 0x03 || f.opc == 0x08 || f.opc == 0x09) then .error .adefNotAllowed
  else match commandOfOpc f.opc.toNat f.adef with
    | some i => .ok i
    | none => .error .opcode

/-- The fields that encode a command (R92). -/
def Instr.fields : Instr → CmdFields
  | .nop => ⟨0x00, false, 0⟩
  | .bitlen => ⟨0x01, false, 0⟩
  | .expand => ⟨0x02, false, 0⟩
  | .cube adef => ⟨0x03, adef, 0⟩
  | .modinv => ⟨0x04, false, 0⟩
  | .modmul => ⟨0x05, false, 0⟩
  | .modsqrt => ⟨0x06, false, 0⟩
  | .disc => ⟨0x07, false, 0⟩
  | .solve adef => ⟨0x08, adef, 0⟩
  | .generate adef => ⟨0x09, adef, 0⟩
  | .clear => ⟨0x0A, false, 0⟩

/-- The word of a command (R92). -/
def encode (i : Instr) : Word := i.fields.toWord

/-- The command that the decoder reads from a word whose low `nbits` bits are `w` and whose other bits are 0. A command
is one 32-bit word, taken from the write to CMD itself and never from a memory (R90, `20_memory.md` R78), so there is
no byte order to lay out; a number of more than 32 bits is no command word. -/
def decodeTableWord (nbits w : Nat) : Option Instr :=
  let v := w % 2 ^ nbits
  if v < 2 ^ 32 then (decode (BitVec.ofNat 32 v)).toOption else none

end Sys2Proof
end

