-- ==== Sys2Proof/Machine/Discriminant.lean ====
section
/-! DEFINITION. The discriminant checker, `42_discriminant_checker.md`: DISC. -/

namespace Sys2Proof.Machine

/-- Stage DISC: `(4*A3 + 27*B2VAL) mod P`, SINGULAR_CURVE(DISC) when that is 0 (R160). -/
def discStage (p a3 b2val : Nat) : Except Raise Nat :=
  let d := (4 * a3 + 27 * b2val) % p
  if d = 0 then .error ⟨.singularCurve, .disc⟩ else .ok d

/-- The stages of DISC (R160). -/
def discStages (s : State) : Except Raise State := do
  checkModulus s
  let d ← discStage s.p s.a3 s.b2val
  return { s with discr := d }

/-- DISC: the discriminant check (R160). -/
def execDisc (s : State) : Host.Outcome State Fault Refusal :=
  .next (s.settle (writeSet .disc) [] (discStages s))

end Sys2Proof.Machine
end

