-- ==== Sys2Proof/Machine/Expander.lean ====
section
/-! DEFINITION. The seed expander, `40_seed_expander.md`: BITLEN and EXPAND. -/

namespace Sys2Proof.Machine

/-- BITLEN: `LBITS <- bitlen(P)`, no operand check (R110). -/
def execBitlen (s : State) : Host.Outcome State Fault Refusal :=
  .next (s.settle (writeSet .bitlen) [] (.ok { s with lbits := BitVec.ofNat 32 (bitlen s.p) }))

/-- `sCount = floor((L − 1) / 160)` (R112). -/
def sCount (l : Nat) : Nat := (l - 1) / 160

/-- `hBits = L − 160 · sCount` (R113). -/
def hBits (l : Nat) : Nat := l - 160 * sCount l

/-- `hBytes = ceil(hBits / 8)` (R113). -/
def hBytes (l : Nat) : Nat := ceilDiv (hBits l) 8

/-- `cnt = ((160 − hBits) mod 8) + 1`, literally (R115, `90_conflicts.md` C2). -/
def maskCount (l : Nat) : Nat := (160 - hBits l) % 8 + 1

/-- Clears the cnt most significant bits of the first byte (R115). -/
def maskFirst (cnt : Nat) : Bytes → Bytes
  | [] => []
  | b :: bs => (b &&& ((255 : Byte) >>> cnt)) :: bs

/-- `w0`: the last hBytes bytes of digest0, masked (R114, R115). -/
def firstBlock (l : Nat) (digest0 : Digest) : Bytes :=
  maskFirst (maskCount l) (lastBytes (hBytes l) digest0.toList)

/-- `m_i = int2be_min(z + i)`, z the seed as an integer: an unbounded sum, not padded (R116). -/
def chainMessage (seed : Bytes) (i : Nat) : Bytes := int2beMin (be2int seed + i)

/-- The messages m_1, …, m_sCount (R116). -/
def chainMessages (seed : Bytes) (l : Nat) : List Bytes :=
  (List.range (sCount l)).map fun k => chainMessage seed (k + 1)

/-- The hash requests of an expansion in their order: the seed itself, then the chain (R114, R116; `60_exceptions.md`
R229). -/
def expandMessages (seed : Bytes) (l : Nat) : List Bytes := seed :: chainMessages seed l

/-- `r`: w0 ‖ w_1 ‖ … ‖ w_sCount as one big-endian integer (R117). -/
def expand (hash : Bytes → Digest) (seed : Bytes) (l : Nat) : Nat :=
  be2int (firstBlock l (hash seed) ++ (chainMessages seed l).flatMap fun m => (hash m).toList)

/-- The stages of EXPAND (R118). -/
def expandStages (s : State) : Except Raise State := do
  checkSeedLen s
  checkLbits s
  return { s with r := expand s.hashOf s.seedBytes s.lbits.toNat }

/-- EXPAND: `R <- expand(SEED[0..SEEDLEN), LBITS)` (R118). -/
def execExpand (s : State) : Host.Outcome State Fault Refusal :=
  .next (s.settle (writeSet .expand) (portHistory s.hashOf (expandMessages s.seedBytes s.lbits.toNat))
    (expandStages s))

end Sys2Proof.Machine
end

