-- ==== Sys2Proof/Machine/Solver.lean ====
section
/-! DEFINITION. The modular solver, `41_modular_solver.md`: CUBE, MODINV, MODMUL, MODSQRT, SOLVE. -/

namespace Sys2Proof.Machine

/-- Stage CUBE: `ModExp(a, 3, P)` (R135). -/
def cubeStage (p a : Nat) : Nat := modExp a 3 p

/-- Stage INV: the inverse of r, or NO_INVERSE(INV) (R137). -/
def invStage (p r : Nat) : Except Raise Nat :=
  match modInv p r with
  | some x => .ok x
  | none => .error ⟨.noInverse, .inv⟩

/-- Stage MUL: `(A3 * RINV) mod P` (R140). -/
def mulStage (p a3 rinv : Nat) : Nat := a3 * rinv % p

/-- Stage SQRT: `ModSqrt(P, B2VAL)`, which may raise NO_SQUARE_ROOT or BAD_OPERAND at SQRT (R142, R144). -/
def sqrtStage (p v : Nat) : Except Raise Nat :=
  match modSqrt p v with
  | .ok x => .ok x
  | .error k => .error ⟨k, .sqrt⟩

/-- The stages of CUBE (R135). -/
def cubeStages (adef : Bool) (s : State) : Except Raise State := do
  checkModulus s
  checkDefaultA adef s
  return { s with a3 := cubeStage s.p (s.effectiveA adef) }

/-- CUBE, CUBE.ADEF: `A3 <- a³ mod P` (R135). -/
def execCube (adef : Bool) (s : State) : Host.Outcome State Fault Refusal :=
  .next (s.settle (writeSet (.cube adef)) [] (cubeStages adef s))

/-- The stages of MODINV (R137). -/
def modinvStages (s : State) : Except Raise State := do
  checkModulus s
  let x ← invStage s.p s.r
  return { s with rinv := x }

/-- MODINV: `RINV <- R⁻¹ mod P`, or NO_INVERSE (R137). -/
def execModinv (s : State) : Host.Outcome State Fault Refusal :=
  .next (s.settle (writeSet .modinv) [] (modinvStages s))

/-- The stages of MODMUL (R140). -/
def modmulStages (s : State) : Except Raise State := do
  checkModulus s
  return { s with b2val := mulStage s.p s.a3 s.rinv }

/-- MODMUL: `B2VAL <- A3 · RINV mod P` (R140). -/
def execModmul (s : State) : Host.Outcome State Fault Refusal :=
  .next (s.settle (writeSet .modmul) [] (modmulStages s))

/-- The stages of MODSQRT; `B2 <- P − B1` is an integer subtraction (R142, R146). -/
def modsqrtStages (s : State) : Except Raise State := do
  checkModulus s
  let x ← sqrtStage s.p s.b2val
  return { s with b1 := x, b2 := s.p - x }

/-- MODSQRT: the square roots of B2VAL, or NO_SQUARE_ROOT (R142). -/
def execModsqrt (s : State) : Host.Outcome State Fault Refusal :=
  .next (s.settle (writeSet .modsqrt) [] (modsqrtStages s))

/-- The stages CUBE, INV, MUL, SQRT of SOLVE and GENERATE, on the modulus in P and the r in R (R150). -/
def solveStages (a : Nat) (s : State) : Except Raise State := do
  let a3 := cubeStage s.p a
  let rinv ← invStage s.p s.r
  let b2val := mulStage s.p a3 rinv
  let x ← sqrtStage s.p b2val
  return { s with a3 := a3, rinv := rinv, b2val := b2val, b1 := x, b2 := s.p - x }

/-- The checks of SOLVE, then its stages (R150). -/
def solveChecked (adef : Bool) (s : State) : Except Raise State := do
  checkModulus s
  checkDefaultA adef s
  solveStages (s.effectiveA adef) s

/-- SOLVE, SOLVE.ADEF: the whole of `solve(p, a, r)` (R150). -/
def execSolve (adef : Bool) (s : State) : Host.Outcome State Fault Refusal :=
  .next (s.settle (writeSet (.solve adef)) [] (solveChecked adef s))

end Sys2Proof.Machine
end

