-- ==== Sys2Proof/Machine/Generator.lean ====
section
/-! DEFINITION. The curve generator, `43_curve_generator.md` R176: GENERATE. -/

namespace Sys2Proof.Machine

/-- The stages of GENERATE (R176): the pseudocode writes registers stage by stage, and each stage reads what the
stages before it wrote. -/
def generateStages (adef : Bool) (s : State) : Except Raise State := do
  checkModulus s
  checkDefaultA adef s
  checkSeedLen s
  let l := bitlen s.p
  let t ← solveStages (s.effectiveA adef)
    { s with lbits := BitVec.ofNat 32 l, r := expand s.hashOf s.seedBytes l }
  let d ← discStage t.p t.a3 t.b2val
  return { t with discr := d }

/-- GENERATE, GENERATE.ADEF: the whole of `generate(p, a, seed)` (R176). -/
def execGenerate (adef : Bool) (s : State) : Host.Outcome State Fault Refusal :=
  .next (s.settle (writeSet (.generate adef)) (portHistory s.hashOf (expandMessages s.seedBytes (bitlen s.p)))
    (generateStages adef s))

end Sys2Proof.Machine
end

