-- ==== Sys2Proof/Machine/System.lean ====
section
/-! DEFINITION. The system commands, `44_system_commands.md`: NOP and CLEAR. -/

namespace Sys2Proof.Machine

/-- NOP: no operation; it completes like any command (R190). -/
def execNop (s : State) : Host.Outcome State Fault Refusal :=
  .next (s.settle (writeSet .nop) [] (.ok s))

/-- CLEAR: every data register 0 (R191). -/
def execClear (s : State) : Host.Outcome State Fault Refusal :=
  .next (s.settle (writeSet .clear) [] (.ok (s.zeroSet (writeSet .clear))))

end Sys2Proof.Machine
end

