-- ==== Sys2Proof/Machine/Dispatch.lean ====
section
/-! DEFINITION. `exec`: one arm per command. A command runs from its acceptance to its completion as the one atomic
step of `60_exceptions.md` R222. -/

namespace Sys2Proof.Machine

def exec (i : Instr) (s : State) : Host.Outcome State Fault Refusal :=
  match i with
  | .nop => Sys2Proof.Machine.execNop s
  | .bitlen => Sys2Proof.Machine.execBitlen s
  | .expand => Sys2Proof.Machine.execExpand s
  | .cube adef => Sys2Proof.Machine.execCube adef s
  | .modinv => Sys2Proof.Machine.execModinv s
  | .modmul => Sys2Proof.Machine.execModmul s
  | .modsqrt => Sys2Proof.Machine.execModsqrt s
  | .disc => Sys2Proof.Machine.execDisc s
  | .solve adef => Sys2Proof.Machine.execSolve adef s
  | .generate adef => Sys2Proof.Machine.execGenerate adef s
  | .clear => Sys2Proof.Machine.execClear s

end Sys2Proof.Machine
end

