-- ==== Sys2Proof/Machine/Sequencer.lean ====
section
/-! DEFINITION. The sequencer, `43_curve_generator.md` R170 to R174: stage paths, one stage of work, the hash port in
stage EXPAND, a whole command as one step. -/

namespace Sys2Proof.Machine

/-- The stage path of each command (R171). -/
def stagePath : Instr → List Stage
  | .nop => [.decode, .sys, .fin]
  | .bitlen => [.decode, .bitlen, .fin]
  | .expand => [.decode, .check, .expand, .fin]
  | .cube _ => [.decode, .check, .cube, .fin]
  | .modinv => [.decode, .check, .inv, .fin]
  | .modmul => [.decode, .check, .mul, .fin]
  | .modsqrt => [.decode, .check, .sqrt, .fin]
  | .disc => [.decode, .check, .disc, .fin]
  | .solve _ => [.decode, .check, .cube, .inv, .mul, .sqrt, .fin]
  | .generate _ => [.decode, .check, .bitlen, .expand, .cube, .inv, .mul, .sqrt, .disc, .fin]
  | .clear => [.decode, .sys, .fin]

/-- The stage after `st` on a path. -/
def stageAfter (st : Stage) : List Stage → Option Stage
  | [] => none
  | x :: xs => if x = st then xs.head? else stageAfter st xs

/-- The command word as the block fetches it: from CMD, where acceptance put it (`20_memory.md` R78). -/
def fetch (s : State) : Except DecodeError Instr := decode s.cmd

/-- The block completes its command as one atomic step (`70_reset_and_hazards.md` R253); an idle block has no step
(`00_scope.md` R18) and stays as it is (R241). -/
def State.runCommand (s : State) : Host.Outcome State Fault Refusal :=
  if s.status.busy then
    match fetch s with
    | .ok i => exec i s
    | .error _ => .next s.illegal
  else .next s

/-- The stage at which the command will end: END, or the stage that raises (R172). What a command computes depends on
its read set alone (`10_state.md` R41), so this is known from the registers at any stage. -/
def endStage (i : Instr) (s : State) : Stage :=
  match exec i s with
  | .next t => t.status.stage
  | .fault _ => .fin
  | .refused _ => .fin

/-- The hash requests of stage EXPAND of the command (`60_exceptions.md` R229, `70_reset_and_hazards.md` R254). -/
def commandMessages (i : Instr) (s : State) : List Bytes :=
  match i with
  | .expand => expandMessages s.seedBytes s.lbits.toNat
  | .generate _ => expandMessages s.seedBytes (bitlen s.p)
  | .nop => []
  | .bitlen => []
  | .cube _ => []
  | .modinv => []
  | .modmul => []
  | .modsqrt => []
  | .disc => []
  | .solve _ => []
  | .clear => []

/-- How many digests the block has taken in this command. -/
def State.digestsTaken (s : State) : Nat := s.hist.countP fun e => match e with
  | .req _ => false
  | .resp _ => true

/-- The next message to request in stage EXPAND, if the expansion still needs a digest. -/
def State.nextMessage (i : Instr) (s : State) : Option Bytes := (commandMessages i s)[s.digestsTaken]?

/-- One turn of the block (R172): in stage EXPAND it issues the next hash request, or waits while one is in flight
(`60_exceptions.md` R229, R230); otherwise the work of the stage is done, and the command completes when the stage
raises or is its last, else `stage` moves on. -/
def State.workStage (s : State) : Host.Outcome State Fault Refusal :=
  if s.status.busy then
    match fetch s with
    | .error _ => .next s.illegal
    | .ok i =>
      if s.stage = .expand ∧ s.hreq.isSome then .next s
      else match if s.stage = .expand then s.nextMessage i else none with
        | some m => .next { s with hreq := some m, hist := s.hist ++ [.req m] }
        | none =>
          if endStage i s = s.stage then exec i s
          else match stageAfter s.stage (stagePath i) with
            | some .fin => exec i s
            | some st => .next { s with stage := st }
            | none => exec i s
  else .next s

/-- The hash primitive answers the request in flight with `Hash(m)` and the block takes the digest; with no request
outstanding nothing is taken (`60_exceptions.md` R229, R230). -/
def State.takeAnswer (s : State) : State :=
  match s.hreq with
  | some m => { s with hreq := none, hist := s.hist ++ [.resp (s.hashOf m)] }
  | none => s

end Sys2Proof.Machine
end

