-- ==== Sys2Proof/Machine/Step.lean ====
section
/-! DEFINITION. One step of the machine: the next turn of the schedule, taken. -/

namespace Sys2Proof.Machine

/-- What one turn does. -/
def State.takeTurn (s : State) (t : Turn) : Host.Outcome State Fault Refusal :=
  match t with
  | .access q => .next (s.access q)
  | .rst => .next s.applyReset
  | .work => s.workStage
  | .answer => .next s.takeAnswer
  | .run => s.runCommand

/-- One step: the first turn of the schedule, or, where the schedule is empty, the block's atomic run. Log entry 3. -/
def step (s : State) : Host.Outcome State Fault Refusal :=
  match s.turns with
  | [] => s.runCommand
  | t :: ts => ({ s with turns := ts } : State).takeTurn t

/-- `s` in which the command word of low bits `w` has been accepted and the block moves next, so that the very next
step fetches it from CMD, decodes it and runs it. A command reaches the block by the host's write to CMD
(`10_state.md` R38); this is that acceptance, in any state. Log entry 10. -/
def State.withFetchWord (s : State) (nbits w : Nat) : State :=
  let t := s.accept (BitVec.ofNat 32 (w % 2 ^ nbits))
  { t with turns := .run :: s.turns }

end Sys2Proof.Machine
end

