-- ==== Sys2Proof/Machine/HostOps.lean ====
section
/-! DEFINITION. The host-program notation of `30_encoding.md` R100 to R102, as turns of the host. -/

namespace Sys2Proof.Machine

/-- `WR off, val` (R100). -/
def hostWr (off : Nat) (v : Word) : Turn := .access (.write off 4 v)

/-- `RD off` (R100). -/
def hostRd (off : Nat) : Turn := .access (.read off 4)

/-- `CMD M` (R100). -/
def hostCmd (i : Instr) : Turn := hostWr 0x010 (encode i)

/-- `LDBIG X, n`: all W/32 words, word 0 first (R101). -/
def hostLdBig (c : Params) (x : BigReg) (n : Nat) : List Turn :=
  (List.range c.wWords).map fun j => hostWr (x.base + 4 * j) (wordOf n j)

/-- `LDSEED b0 b1 …`: the words of the seed, bytes past its end taken as 00, then SEEDLEN (R101). -/
def hostLdSeed (bs : Bytes) : List Turn :=
  (List.range (ceilDiv bs.length 4)).map (fun j => hostWr (0x500 + 4 * j) (seedWord bs j))
    ++ [hostWr 0x018 (BitVec.ofNat 32 bs.length)]

/-- `RDBIG X`: the W/32 words, word 0 first (R101). -/
def hostRdBig (c : Params) (x : BigReg) : List Turn :=
  (List.range c.wWords).map fun j => hostRd (x.base + 4 * j)

/-- `ACK` (R101). -/
def hostAck : Turn := hostWr 0x00C 0x2

/-- `RUN M`: `CMD M` then `POLL`, here with the completion before the first poll (R101; a schedule may put any number
of reads of STATUS before the `run`). -/
def hostRun (i : Instr) : List Turn := [hostCmd i, .run, hostRd 0x00C]

/-- `generate(p, a, seed)` of the source as a host sequence (R102); no a means `GENERATE.ADEF`. -/
def hostGenerate (c : Params) (p : Nat) (a : Option Nat) (seed : Bytes) : List Turn :=
  hostLdBig c .p p ++ (match a with | some n => hostLdBig c .a n | none => []) ++ hostLdSeed seed
    ++ hostRun (.generate a.isNone)

end Sys2Proof.Machine
end

