-- ==== Sys2Proof/Safety.lean ====
section
/-! DEFINITION. The terms that claims about HFCG use: completion, comparison of data registers, the invariants, a safe
run. -/

namespace Sys2Proof.Machine

/-! Completion. -/

/-- What every completion does beside the write set (`60_exceptions.md` R220, R222): BUSY falls, DONE rises, the kind
and the stage are latched and `stage` is that stage, no request is in flight; WRBUSY and everything else stay. `events`
are the hash port's transactions of the command. -/
def State.completed (s : State) (k : ErrKind) (st : Stage) (events : List PortEvent) : State :=
  { s with
    status := { busy := false, done := true, wrbusy := s.status.wrbusy, err := k, stage := st }
    stage := st
    hreq := none
    hist := events }

/-- The head of a command's rule (`40_seed_expander.md`, template): its encoding, read set, write set and stages. -/
def CommandHeader (i : Instr) (w : Word) (rs ws : List DataReg) (path : List Stage) : Prop :=
  encode i = w ∧ decode w = .ok i ∧ readSet i = rs ∧ writeSet i = ws ∧ stagePath i = path

/-- A command from its acceptance to its completion (`30_encoding.md` R101, `RUN M`). -/
def runOne (i : Instr) (s : State) : Host.Outcome State Fault Refusal := exec i (s.accept (encode i))

/-- Commands "each run to completion and stopped at the first error" (`41_modular_solver.md` R151). -/
def runChain : List Instr → State → Host.Outcome State Fault Refusal
  | [], s => .next s
  | i :: is, s =>
    match runOne i s with
    | .next t => if t.status.err = .none then runChain is t else .next t
    | .fault e => .fault e
    | .refused e => .refused e

/-! Data registers. -/

/-- Two states hold the same value in a data register. -/
def SameReg (s t : State) : DataReg → Prop
  | .big x => s.big x = t.big x
  | .lbits => s.lbits = t.lbits
  | .seedlen => s.seedlen = t.seedlen
  | .seed => s.seed = t.seed

/-- Two states agree on a member of a read set; `.seed` stands for SEED[0..SEEDLEN) (`10_state.md` R48). -/
def SameInput (s t : State) : DataReg → Prop
  | .big x => s.big x = t.big x
  | .lbits => s.lbits = t.lbits
  | .seedlen => s.seedlen = t.seedlen
  | .seed => s.seedBytes = t.seedBytes

/-- A data register holds 0. -/
def ZeroReg (s : State) : DataReg → Prop
  | .big x => s.big x = 0
  | .lbits => s.lbits = 0
  | .seedlen => s.seedlen = 0
  | .seed => s.seed = List.replicate s.cfg.seedMax 0

/-! Invariants. -/

/-- The (ERR, STAGE) pairs of an idle block: the seven terminal states of `43_curve_generator.md` R173, and the reset
values. -/
def restingPairs : List (ErrKind × Stage) :=
  [(.none, .none), (.none, .fin), (.noInverse, .inv), (.noSquareRoot, .sqrt), (.singularCurve, .disc),
    (.badOperand, .check), (.badOperand, .sqrt), (.illegalCmd, .decode)]

/-- The stages at which a block that runs the word in CMD can stand (`43_curve_generator.md` R171). -/
def State.liveStages (s : State) : List Stage :=
  match decode s.cmd with
  | .ok i => (stagePath i).filter (· ≠ .fin)
  | .error _ => [.decode]

/-- What every state of the machine satisfies. -/
structure State.Inv (s : State) : Prop where
  /-- the parameters are those of R6 and R7 -/
  params : s.cfg.wellFormed = true
  /-- every big-integer register holds a W-bit value (`10_state.md` R21, `41_modular_solver.md` R132) -/
  regsFit : ∀ x : BigReg, s.big x < 2 ^ s.cfg.width
  /-- the seed buffer has SEEDMAX bytes (`10_state.md` R32) -/
  seedSize : s.seed.length = s.cfg.seedMax
  /-- "While BUSY = 1, STATUS reads with DONE = 0, ERR = 0, STAGE = 0" (`10_state.md` R36) -/
  busyStatus : s.status.busy = true → s.status.done = false ∧ s.status.err = .none ∧ s.status.stage = .none
  /-- while a command runs, `stage` is on its path (`10_state.md` R40, `43_curve_generator.md` R171) -/
  busyStage : s.status.busy = true → s.stage ∈ s.liveStages
  /-- while idle, STATUS.STAGE is `stage` (`10_state.md` R40, `60_exceptions.md` R220) -/
  idleStage : s.status.busy = false → s.status.stage = s.stage
  /-- "No other (ERR, STAGE) pair can appear in STATUS" (`43_curve_generator.md` R173) -/
  idlePair : s.status.busy = false → (s.status.err, s.status.stage) ∈ restingPairs
  /-- DONE follows a completion (`10_state.md` R36) -/
  doneCompleted : s.status.done = true → s.status.stage ≠ .none
  /-- a hash request is in flight only in stage EXPAND of a running command (`10_state.md` R44) -/
  requestInExpand : s.hreq.isSome = true → s.status.busy = true ∧ s.stage = .expand

/-- The request of a port history that no response has answered. -/
def openRequest (h : List PortEvent) : Option Bytes :=
  match h.getLast? with
  | some (.req m) => some m
  | some (.resp _) => none
  | none => none

/-- The hash port keeps its protocol (`60_exceptions.md` R229, `20_memory.md` R79): while a command runs, the history
so far is the beginning of the alternating sequence req(m_0), resp(d_0), …, and the request in flight is its open
one. -/
def State.PortInv (s : State) : Prop :=
  s.status.busy = true → ∀ i, decode s.cmd = .ok i →
    s.hist <+: portHistory s.hashOf (commandMessages i s) ∧ s.hreq = openRequest s.hist

/-- The state right after acceptance of a word (`10_state.md` R38), with no request in flight. -/
def State.JustAccepted (s : State) : Prop :=
  s.status.busy = true ∧ s.stage = .decode ∧ s.hreq = none ∧ s.hist = []

/-- A round of a fair schedule: no reset in it, the block has a turn in it, and after that turn the hash primitive has one
(`60_exceptions.md` R230, `70_reset_and_hazards.md` R253); any other turns of any agent may stand before, between and
after the two. -/
def FairRound (g : List Turn) : Prop :=
  .rst ∉ g ∧ ∃ before between after : List Turn, g = before ++ .work :: between ++ .answer :: after

/-- A safe run of n steps: no fault, no refusal, and the invariant at its end. -/
def SafeRun (n : Nat) (s : State) : Prop := ∃ t, Host.Core.run Sys2Proof.core n s = .next t ∧ State.Inv t

end Sys2Proof.Machine
end

