-- ==== Sys2Proof/Certificates/Slice0/Obligations.lean ====
section
/-! DEFINITION. The statements about HFCG for the provers. -/

open Sys2Proof Sys2Proof.Machine

/-! ## Encoding -/

/-- Decode and encode agree in both directions, for every command and every one of the 2^32 words (`30_encoding.md`
section 1, the opcode map). -/
def Obligations.DecodeEncodeAgree : Prop :=
  ∀ (w : Word) (i : Instr), decode w = .ok i ↔ encode i = w

/-- `30_encoding.md` section 3: the three tests, in integer arithmetic on the word, say exactly which words are
illegal; a legal word is the row of its OPC; and an accepted illegal word, taken as one step or stage by stage,
completes with ILLEGAL_CMD at DECODE and changes no data register. -/
def Obligations.IllegalWords : Prop :=
  (∀ w : Word, (∃ e, decode w = .error e) ↔
    (w.toNat / 2 ^ 9 ≠ 0 ∨ 0x0A < w.toNat % 2 ^ 8 ∨
      (w.toNat / 2 ^ 8 % 2 = 1 ∧ w.toNat % 2 ^ 8 ≠ 0x03 ∧ w.toNat % 2 ^ 8 ≠ 0x08 ∧ w.toNat % 2 ^ 8 ≠ 0x09))) ∧
  (∀ (w : Word) (i : Instr), decode w = .ok i → i.fields.opc.toNat = w.toNat % 2 ^ 8) ∧
  (∀ (s : State) (e : DecodeError) (ts : List Turn), s.status.busy = true → decode s.cmd = .error e →
    (s.turns = .run :: ts ∨ s.turns = .work :: ts) →
    step s = .next (({ s with turns := ts } : State).completed .illegalCmd .decode []))

/-- The 14 legal words of `30_encoding.md` section 1 decode to the commands of its table. -/
def Obligations.LegalWordsDecode : Prop :=
  decode 0x00000000 = .ok .nop ∧ decode 0x00000001 = .ok .bitlen ∧ decode 0x00000002 = .ok .expand ∧
  decode 0x00000003 = .ok (.cube false) ∧ decode 0x00000103 = .ok (.cube true) ∧
  decode 0x00000004 = .ok .modinv ∧ decode 0x00000005 = .ok .modmul ∧ decode 0x00000006 = .ok .modsqrt ∧
  decode 0x00000007 = .ok .disc ∧ decode 0x00000008 = .ok (.solve false) ∧ decode 0x00000108 = .ok (.solve true) ∧
  decode 0x00000009 = .ok (.generate false) ∧ decode 0x00000109 = .ok (.generate true) ∧
  decode 0x0000000A = .ok .clear

/-! ## Bytes and integers -/

/-- `00_scope.md` section 4, `int2be_min`: for n ≥ 1 the byte string has value n, its first byte is not zero and
its length is ceil(bitlen(n)/8); and no shorter byte string has that value. -/
def Obligations.MinimalBigEndianEncoding : Prop :=
  ∀ n : Nat, 1 ≤ n →
    be2int (int2beMin n) = n ∧ (∃ b bs, int2beMin n = b :: bs ∧ b ≠ 0) ∧
    (int2beMin n).length = (bitlen n + 7) / 8 ∧ (∀ bs : Bytes, be2int bs = n → (int2beMin n).length ≤ bs.length)

/-- The hash port (`60_exceptions.md` R228 and `20_memory.md` section 2): a request is sent as its bytes in order,
`hq_first` on the first and `hq_last` on the last, nothing before or after them; the 160-bit digest has d[0] in
bits [159:152] and d[19] in bits [7:0], and equals be2int(d) as an integer. -/
def Obligations.HashPortValues : Prop :=
  (∀ m : Bytes, (requestBeats m).map HqBeat.byte = m ∧
    ∀ k b, (requestBeats m)[k]? = some b → (b.first = true ↔ k = 0) ∧ (b.last = true ↔ k + 1 = m.length)) ∧
  (∀ d : Digest, (digestWord d).toNat = be2int d.toList ∧
    ∀ k (h : k < 20), (digestWord d).extractLsb' (8 * (19 - k)) 8 = d[k])

/-! ## Seed expander -/

/-- `40_seed_expander.md` R110: BITLEN, whole. -/
def Obligations.BitlenCommand : Prop :=
  CommandHeader .bitlen 0x00000001 [.big .p] [.lbits] [.decode, .bitlen, .fin] ∧
  ∀ s : State, s.Inv → ∃ k : Nat,
    (s.p = 0 → k = 0) ∧ (1 ≤ s.p → 2 ^ (k - 1) ≤ s.p ∧ s.p < 2 ^ k) ∧ k ≤ s.cfg.width ∧ k ≤ 1024 ∧
    (BitVec.ofNat 32 k).toNat = k ∧
    exec .bitlen s = .next (({ s with lbits := BitVec.ofNat 32 k } : State).completed .none .fin [])

/-- `40_seed_expander.md` section 2, rules on the first block: w0 has hBytes bytes, and as an integer it is digest0
cut to its low hBits − 1 bits. -/
def Obligations.FirstBlockIsDigestModulo : Prop :=
  ∀ (l : Nat) (d : Digest), 1 ≤ l →
    1 ≤ hBits l ∧ hBits l ≤ 160 ∧ l = hBits l + 160 * sCount l ∧
    (firstBlock l d).length = (hBits l + 7) / 8 ∧
    be2int (firstBlock l d) = be2int d.toList % 2 ^ (hBits l - 1)

/-- `40_seed_expander.md` R117: r is the concatenation w0 ‖ w_1 ‖ … ‖ w_sCount as one big-endian integer,
equivalently be2int(w0) · 2^(160·sCount) plus the sum of be2int(w_i) · 2^(160·(sCount − i)). -/
def Obligations.ExpansionIsWeightedSum : Prop :=
  ∀ (hash : Bytes → Digest) (seed : Bytes) (l : Nat), 1 ≤ l →
    expand hash seed l
      = be2int (firstBlock l (hash seed) ++
          ((List.range (sCount l)).map fun k => (hash (int2beMin (be2int seed + (k + 1)))).toList).flatten) ∧
    expand hash seed l
      = be2int (firstBlock l (hash seed)) * 2 ^ (160 * sCount l)
        + ∑ k ∈ Finset.range (sCount l),
            be2int (hash (int2beMin (be2int seed + (k + 1)))).toList * 2 ^ (160 * (sCount l - (k + 1)))

/-- `40_seed_expander.md` R120: the bound on r. -/
def Obligations.ExpansionBound : Prop :=
  (∀ (hash : Bytes → Digest) (seed : Bytes) (l : Nat), 1 ≤ l →
    be2int (firstBlock l (hash seed)) < 2 ^ (hBits l - 1) ∧
    expand hash seed l < 2 ^ (hBits l - 1 + 160 * sCount l) ∧
    expand hash seed l < 2 ^ (l - 1) ∧ bitlen (expand hash seed l) ≤ l - 1) ∧
  (∀ (hash : Bytes → Digest) (seed : Bytes) (l w : Nat), 1 ≤ l → l ≤ w → expand hash seed l < 2 ^ (w - 1)) ∧
  (∀ (hash : Bytes → Digest) (seed : Bytes) (p : Nat), 1 ≤ p → expand hash seed (bitlen p) < p)

/-- `40_seed_expander.md` R118: EXPAND, whole. That it completes in one step, although the hash primitive may never
answer, is the model's choice (log entry 2); the history of the port is the model's field (log entry 9). -/
def Obligations.ExpandCommand : Prop :=
  CommandHeader .expand 0x00000002 [.seed, .seedlen, .lbits] [.big .r] [.decode, .check, .expand, .fin] ∧
  ∀ s : State,
    ((s.seedlen.toNat < 1 ∨ s.cfg.seedMax < s.seedlen.toNat ∨ s.lbits.toNat < 1 ∨ s.cfg.width < s.lbits.toNat) →
      exec .expand s = .next (({ s with r := 0 } : State).completed .badOperand .check [])) ∧
    (1 ≤ s.seedlen.toNat → s.seedlen.toNat ≤ s.cfg.seedMax → 1 ≤ s.lbits.toNat → s.lbits.toNat ≤ s.cfg.width →
      exec .expand s = .next (({ s with r := expand s.hashOf (s.seed.take s.seedlen.toNat) s.lbits.toNat } : State).completed
        .none .fin (portHistory s.hashOf
          (s.seed.take s.seedlen.toNat :: (List.range ((s.lbits.toNat - 1) / 160)).map fun k =>
            int2beMin (be2int (s.seed.take s.seedlen.toNat) + (k + 1))))) ∧
      expand s.hashOf (s.seed.take s.seedlen.toNat) s.lbits.toNat < 2 ^ s.cfg.width)

/-- `70_reset_and_hazards.md` section 4 and `60_exceptions.md` section 6: an EXPAND past CHECK has made exactly
ceil(LBITS/160) requests, a GENERATE past CHECK exactly ceil(bitlen(P)/160), whatever its later stages did. Request
k is m_k, with m_0 the seed and m_k = int2be_min(z + k) for k ≥ 1, and the entry after it is its answer; request 0
has SEEDLEN bytes and every request between 1 and SEEDLEN + 1. A command that fails at CHECK, or is neither EXPAND
nor GENERATE, makes none. The history is the model's field (log entry 9). -/
def Obligations.HashRequestCount : Prop :=
  ∀ s t : State, s.Inv →
    let m : Nat → Bytes := fun k => if k = 0 then s.seedBytes else int2beMin (be2int s.seedBytes + k)
    let madeRequests : Nat → Prop := fun n => t.hist.length = 2 * n ∧ ∀ k, k < n →
      t.hist[2 * k]? = some (.req (m k)) ∧ t.hist[2 * k + 1]? = some (.resp (s.hashOf (m k))) ∧
      1 ≤ (m k).length ∧ (m k).length ≤ s.seedlen.toNat + 1 ∧ (k = 0 → (m k).length = s.seedlen.toNat)
    (exec .expand s = .next t → t.status.stage ≠ .check → madeRequests ((s.lbits.toNat + 159) / 160)) ∧
    (∀ adef l, exec (.generate adef) s = .next t → t.status.stage ≠ .check → 2 ^ (l - 1) ≤ s.p → s.p < 2 ^ l →
      madeRequests ((l + 159) / 160)) ∧
    (∀ i, exec i s = .next t → (t.status.stage = .check ∨ (i ≠ .expand ∧ ∀ adef, i ≠ .generate adef)) → t.hist = [])

/-! ## Modular solver -/

/-- `41_modular_solver.md` R135: CUBE, whole. -/
def Obligations.CubeCommand : Prop :=
  CommandHeader (.cube false) 0x00000003 [.big .p, .big .a] [.big .a3] [.decode, .check, .cube, .fin] ∧
  CommandHeader (.cube true) 0x00000103 [.big .p] [.big .a3] [.decode, .check, .cube, .fin] ∧
  ∀ (adef : Bool) (s : State),
    ((s.p < 2 ∨ (adef = true ∧ s.p < 3)) →
      exec (.cube adef) s = .next (({ s with a3 := 0 } : State).completed .badOperand .check [])) ∧
    (2 ≤ s.p → (adef = true → 3 ≤ s.p) →
      exec (.cube adef) s = .next
        (({ s with a3 := (if adef then s.p - 3 else s.a) ^ 3 % s.p } : State).completed .none .fin [])) ∧
    (27 < s.p → (s.p - 3) ^ 3 % s.p = s.p - 27)

/-- `41_modular_solver.md` R137: MODINV, whole, with the inverse as R138 fixes it. -/
def Obligations.ModinvCommand : Prop :=
  CommandHeader .modinv 0x00000004 [.big .p, .big .r] [.big .rinv] [.decode, .check, .inv, .fin] ∧
  ∀ s : State,
    (s.p < 2 → exec .modinv s = .next (({ s with rinv := 0 } : State).completed .badOperand .check [])) ∧
    (2 ≤ s.p → Nat.gcd (s.r % s.p) s.p ≠ 1 →
      exec .modinv s = .next (({ s with rinv := 0 } : State).completed .noInverse .inv [])) ∧
    (2 ≤ s.p → Nat.gcd (s.r % s.p) s.p = 1 →
      ∃ x, 1 ≤ x ∧ x ≤ s.p - 1 ∧ s.r * x % s.p = 1 ∧ (∀ y, y < s.p → s.r * y % s.p = 1 → y = x) ∧
        exec .modinv s = .next (({ s with rinv := x } : State).completed .none .fin []))

/-- `41_modular_solver.md` R140: MODMUL, whole. -/
def Obligations.ModmulCommand : Prop :=
  CommandHeader .modmul 0x00000005 [.big .p, .big .a3, .big .rinv] [.big .b2val] [.decode, .check, .mul, .fin] ∧
  ∀ s : State,
    (s.p < 2 → exec .modmul s = .next (({ s with b2val := 0 } : State).completed .badOperand .check [])) ∧
    (2 ≤ s.p → exec .modmul s = .next
      (({ s with b2val := s.a3 * s.rinv % s.p } : State).completed .none .fin []))

/-- `41_modular_solver.md` R143: for prime P, MODSQRT succeeds exactly on residues and on 0, with a root of B2VAL
below P; on a non-residue it raises NO_SQUARE_ROOT; equal P and v give equal B1. -/
def Obligations.ModsqrtOnPrimes : Prop :=
  ∀ s : State, s.p.Prime →
    ((∃ y, y * y % s.p = s.b2val % s.p) →
      ∃ x, x ≤ s.p - 1 ∧ x * x % s.p = s.b2val % s.p ∧
        exec .modsqrt s = .next (({ s with b1 := x, b2 := s.p - x } : State).completed .none .fin []) ∧
        ∀ t : State, t.p = s.p → t.b2val % s.p = s.b2val % s.p →
          exec .modsqrt t = .next (({ t with b1 := x, b2 := s.p - x } : State).completed .none .fin [])) ∧
    ((¬ ∃ y, y * y % s.p = s.b2val % s.p) →
      exec .modsqrt s = .next (({ s with b1 := 0, b2 := 0 } : State).completed .noSquareRoot .sqrt []))

/-- `41_modular_solver.md` section 5, which root: for prime P ≡ 3 (mod 4) and a non-zero residue v, B1 is
v^((P+1)/4) mod P and is itself a square modulo P. -/
def Obligations.ModsqrtClosedForm : Prop :=
  ∀ s : State, s.p.Prime → s.p % 4 = 3 → s.b2val % s.p ≠ 0 → (∃ y, y * y % s.p = s.b2val % s.p) →
    let x := (s.b2val % s.p) ^ ((s.p + 1) / 4) % s.p
    (∃ u, u * u % s.p = x) ∧
      exec .modsqrt s = .next (({ s with b1 := x, b2 := s.p - x } : State).completed .none .fin [])

/-- `41_modular_solver.md` section 5, composite odd P: for every odd P, prime or not, MODSQRT either writes a
checked root of B2VAL and its complement or raises NO_SQUARE_ROOT; nothing else. -/
def Obligations.ModsqrtOddModulus : Prop :=
  ∀ s : State, 2 ≤ s.p → s.p % 2 = 1 →
    (∃ x, x < s.p ∧ x * x % s.p = s.b2val % s.p ∧
      exec .modsqrt s = .next (({ s with b1 := x, b2 := s.p - x } : State).completed .none .fin [])) ∨
    exec .modsqrt s = .next (({ s with b1 := 0, b2 := 0 } : State).completed .noSquareRoot .sqrt [])

/-- `41_modular_solver.md` section 5, the corners of MODSQRT: P < 2, even P > 2, P = 2, and B2VAL ≡ 0 modulo an odd
P, where B2 = P. -/
def Obligations.ModsqrtCorners : Prop :=
  CommandHeader .modsqrt 0x00000006 [.big .p, .big .b2val] [.big .b1, .big .b2] [.decode, .check, .sqrt, .fin] ∧
  ∀ s : State,
    (s.p < 2 → exec .modsqrt s = .next (({ s with b1 := 0, b2 := 0 } : State).completed .badOperand .check [])) ∧
    (2 < s.p → s.p % 2 = 0 →
      exec .modsqrt s = .next (({ s with b1 := 0, b2 := 0 } : State).completed .badOperand .sqrt [])) ∧
    (s.p = 2 →
      exec .modsqrt s = .next
        (({ s with b1 := s.b2val % 2, b2 := 2 - s.b2val % 2 } : State).completed .none .fin [])) ∧
    (2 < s.p → s.p % 2 = 1 → s.b2val % s.p = 0 →
      exec .modsqrt s = .next (({ s with b1 := 0, b2 := s.p } : State).completed .none .fin []))

/-- `41_modular_solver.md` R150: SOLVE, whole; the square-root stage is `ModSqrt` of R144. -/
def Obligations.SolveCommand : Prop :=
  CommandHeader (.solve false) 0x00000008 [.big .p, .big .r, .big .a]
    [.big .a3, .big .rinv, .big .b2val, .big .b1, .big .b2] [.decode, .check, .cube, .inv, .mul, .sqrt, .fin] ∧
  CommandHeader (.solve true) 0x00000108 [.big .p, .big .r]
    [.big .a3, .big .rinv, .big .b2val, .big .b1, .big .b2] [.decode, .check, .cube, .inv, .mul, .sqrt, .fin] ∧
  ∀ (adef : Bool) (s : State),
    let failed : State := { s with a3 := 0, rinv := 0, b2val := 0, b1 := 0, b2 := 0 }
    ((s.p < 2 ∨ (adef = true ∧ s.p < 3)) →
      exec (.solve adef) s = .next (failed.completed .badOperand .check [])) ∧
    (2 ≤ s.p → (adef = true → 3 ≤ s.p) → Nat.gcd (s.r % s.p) s.p ≠ 1 →
      exec (.solve adef) s = .next (failed.completed .noInverse .inv [])) ∧
    (2 ≤ s.p → (adef = true → 3 ≤ s.p) → Nat.gcd (s.r % s.p) s.p = 1 →
      ∃ x, 1 ≤ x ∧ x ≤ s.p - 1 ∧ s.r * x % s.p = 1 ∧
        (∀ k, modSqrt s.p ((if adef then s.p - 3 else s.a) ^ 3 % s.p * x % s.p) = .error k →
          (k = .noSquareRoot ∨ k = .badOperand) ∧ exec (.solve adef) s = .next (failed.completed k .sqrt [])) ∧
        (∀ b, modSqrt s.p ((if adef then s.p - 3 else s.a) ^ 3 % s.p * x % s.p) = .ok b →
          exec (.solve adef) s = .next
            (({ s with
                a3 := (if adef then s.p - 3 else s.a) ^ 3 % s.p
                rinv := x
                b2val := (if adef then s.p - 3 else s.a) ^ 3 % s.p * x % s.p
                b1 := b
                b2 := s.p - b } : State).completed .none .fin [])))

/-- SOLVE completes with a root for every prime P, invertible R and residue a³ · r⁻¹ (`41_modular_solver.md`
sections 5 and 6, read together). -/
def Obligations.SolveSucceedsOnPrimes : Prop :=
  ∀ (adef : Bool) (s : State), s.p.Prime → (adef = true → 3 ≤ s.p) → s.r % s.p ≠ 0 →
    (∃ y, s.r * (y * y) % s.p = (if adef then s.p - 3 else s.a) ^ 3 % s.p) →
    ∃ x b, x < s.p ∧ b < s.p ∧ s.r * x % s.p = 1 ∧
      b * b % s.p = (if adef then s.p - 3 else s.a) ^ 3 % s.p * x % s.p ∧
      exec (.solve adef) s = .next
        (({ s with
            a3 := (if adef then s.p - 3 else s.a) ^ 3 % s.p
            rinv := x
            b2val := (if adef then s.p - 3 else s.a) ^ 3 % s.p * x % s.p
            b1 := b
            b2 := s.p - b } : State).completed .none .fin [])

/-- `41_modular_solver.md` R151: SOLVE and the chain CUBE, MODINV, MODMUL, MODSQRT raise the same error at the same
stage or both succeed; on success they leave the same state but for CMD; on an error the chain leaves the values of
its completed steps where SOLVE leaves zeros. -/
def Obligations.SolveAgreesWithUnitCommands : Prop :=
  ∀ (adef : Bool) (s : State), ∃ t u : State,
    runOne (.solve adef) s = .next t ∧
    runChain [.cube adef, .modinv, .modmul, .modsqrt] s = .next u ∧
    t.status.err = u.status.err ∧ t.status.stage = u.status.stage ∧
    (t.status.err = .none → u = { t with cmd := encode .modsqrt }) ∧
    (t.status.err ≠ .none → t.a3 = 0 ∧ t.rinv = 0 ∧ t.b2val = 0 ∧ t.b1 = 0 ∧ t.b2 = 0) ∧
    (t.status.stage = .inv ∨ t.status.stage = .sqrt →
      u.a3 = (if adef then s.p - 3 else s.a) ^ 3 % s.p) ∧
    (t.status.stage = .sqrt →
      u.rinv < s.p ∧ s.r * u.rinv % s.p = 1 ∧ u.b2val = u.a3 * u.rinv % s.p)

/-- The algebraic invariant of `41_modular_solver.md` section 6, for every modulus on which SOLVE or GENERATE
succeeds: r · B1² ≡ r · B2² ≡ a³ and B2 = P − B1, with the effective coefficient a. -/
def Obligations.SolutionSatisfiesCurveRelation : Prop :=
  ∀ (i : Instr) (adef : Bool) (s t : State), (i = .solve adef ∨ i = .generate adef) →
    exec i s = .next t → t.status.err = .none →
    t.r * (t.b1 * t.b1) % t.p = (if adef then s.p - 3 else s.a) ^ 3 % t.p ∧
    t.r * (t.b2 * t.b2) % t.p = (if adef then s.p - 3 else s.a) ^ 3 % t.p ∧
    t.b1 < t.p ∧ t.b2 + t.b1 = t.p ∧ t.p = s.p

/-! ## Discriminant checker -/

/-- `42_discriminant_checker.md` R160: DISC, whole. -/
def Obligations.DiscCommand : Prop :=
  CommandHeader .disc 0x00000007 [.big .p, .big .a3, .big .b2val] [.big .discr] [.decode, .check, .disc, .fin] ∧
  ∀ s : State,
    (s.p < 2 → exec .disc s = .next (({ s with discr := 0 } : State).completed .badOperand .check [])) ∧
    (2 ≤ s.p → (4 * s.a3 + 27 * s.b2val) % s.p = 0 →
      exec .disc s = .next (({ s with discr := 0 } : State).completed .singularCurve .disc [])) ∧
    (2 ≤ s.p → (4 * s.a3 + 27 * s.b2val) % s.p ≠ 0 →
      exec .disc s = .next
        (({ s with discr := (4 * s.a3 + 27 * s.b2val) % s.p } : State).completed .none .fin []) ∧
      1 ≤ (4 * s.a3 + 27 * s.b2val) % s.p ∧ (4 * s.a3 + 27 * s.b2val) % s.p ≤ s.p - 1)

/-- `42_discriminant_checker.md`, when a generated curve is singular: for prime P and r not ≡ 0, once GENERATE has
found a root it ends in SINGULAR_CURVE exactly when a ≡ 0 or 4·r + 27 ≡ 0; and with a ≡ 0 it always does, with
every register of its write set 0. -/
def Obligations.SingularCurveExactlyWhen : Prop :=
  ∀ (adef : Bool) (s t : State), s.Inv → s.p.Prime → exec (.generate adef) s = .next t →
    let a := if adef then s.p - 3 else s.a
    let r := expand s.hashOf s.seedBytes (bitlen s.p)
    t.status.stage ≠ .check → r ≠ 0 →
    (t.status.err ≠ .noSquareRoot →
      (t.status.err = .singularCurve ↔ s.p ∣ a ∨ s.p ∣ 4 * r + 27)) ∧
    (s.p ∣ a →
      t = ({ s with lbits := 0, r := 0, a3 := 0, rinv := 0, b2val := 0, b1 := 0, b2 := 0, discr := 0 } : State).completed
        .singularCurve .disc (portHistory s.hashOf (expandMessages s.seedBytes (bitlen s.p))))

/-! ## Generator -/

/-- `43_curve_generator.md` R176: GENERATE, whole; `expand` is the expansion of `40_seed_expander.md`, `modSqrt` is
R144. That it completes in one step, although the hash primitive may never answer, is the model's choice (log entry
2); the history of the port is the model's field (log entry 9). -/
def Obligations.GenerateCommand : Prop :=
  CommandHeader (.generate false) 0x00000009 [.big .p, .seed, .seedlen, .big .a]
    [.lbits, .big .r, .big .a3, .big .rinv, .big .b2val, .big .b1, .big .b2, .big .discr]
    [.decode, .check, .bitlen, .expand, .cube, .inv, .mul, .sqrt, .disc, .fin] ∧
  CommandHeader (.generate true) 0x00000109 [.big .p, .seed, .seedlen]
    [.lbits, .big .r, .big .a3, .big .rinv, .big .b2val, .big .b1, .big .b2, .big .discr]
    [.decode, .check, .bitlen, .expand, .cube, .inv, .mul, .sqrt, .disc, .fin] ∧
  ∀ (adef : Bool) (s : State), s.Inv →
    let failed : State :=
      { s with lbits := 0, r := 0, a3 := 0, rinv := 0, b2val := 0, b1 := 0, b2 := 0, discr := 0 }
    let l := bitlen s.p
    let r := expand s.hashOf s.seedBytes l
    let a3 := (if adef then s.p - 3 else s.a) ^ 3 % s.p
    let h := portHistory s.hashOf (expandMessages s.seedBytes l)
    ((s.p < 2 ∨ (adef = true ∧ s.p < 3) ∨ s.seedlen.toNat < 1 ∨ s.cfg.seedMax < s.seedlen.toNat) →
      exec (.generate adef) s = .next (failed.completed .badOperand .check [])) ∧
    (2 ≤ s.p → (adef = true → 3 ≤ s.p) → 1 ≤ s.seedlen.toNat → s.seedlen.toNat ≤ s.cfg.seedMax →
      2 ≤ l ∧ l ≤ s.cfg.width ∧ r < s.p ∧ h.length = 2 * ((l + 159) / 160) ∧
      (Nat.gcd r s.p ≠ 1 → exec (.generate adef) s = .next (failed.completed .noInverse .inv h)) ∧
      (Nat.gcd r s.p = 1 →
        ∃ x, 1 ≤ x ∧ x ≤ s.p - 1 ∧ r * x % s.p = 1 ∧
          (∀ k, modSqrt s.p (a3 * x % s.p) = .error k →
            exec (.generate adef) s = .next (failed.completed k .sqrt h)) ∧
          (∀ b, modSqrt s.p (a3 * x % s.p) = .ok b →
            ((4 * a3 + 27 * (a3 * x % s.p)) % s.p = 0 →
              exec (.generate adef) s = .next (failed.completed .singularCurve .disc h)) ∧
            ((4 * a3 + 27 * (a3 * x % s.p)) % s.p ≠ 0 →
              exec (.generate adef) s = .next
                (({ s with
                    lbits := BitVec.ofNat 32 l
                    r := r
                    a3 := a3
                    rinv := x
                    b2val := a3 * x % s.p
                    b1 := b
                    b2 := s.p - b
                    discr := (4 * a3 + 27 * (a3 * x % s.p)) % s.p } : State).completed .none .fin h)))))

/-- GENERATE succeeds for every prime P, usable seed and coefficient: r ≢ 0, a³ · r⁻¹ a square, a ≢ 0 and 4·r + 27
≢ 0 (`43_curve_generator.md` section 2 with `41_modular_solver.md` section 5 and `42_discriminant_checker.md`).
That it completes in one step, although the hash primitive may never answer, is the model's choice (log entry 2). -/
def Obligations.GenerateSucceedsOnPrimes : Prop :=
  ∀ (adef : Bool) (s : State), s.Inv → s.p.Prime → (adef = true → 3 ≤ s.p) →
    1 ≤ s.seedlen.toNat → s.seedlen.toNat ≤ s.cfg.seedMax →
    let a := if adef then s.p - 3 else s.a
    let r := expand s.hashOf s.seedBytes (bitlen s.p)
    r ≠ 0 → (∃ y, r * (y * y) % s.p = a ^ 3 % s.p) → ¬ s.p ∣ a → ¬ s.p ∣ 4 * r + 27 →
    ∃ t, exec (.generate adef) s = .next t ∧ t.status.err = .none ∧ t.status.stage = .fin ∧
      t.r = r ∧ r * (t.b1 * t.b1) % s.p = a ^ 3 % s.p ∧ t.b1 + t.b2 = s.p

/-- `43_curve_generator.md` R177: GENERATE and the chain BITLEN, EXPAND, SOLVE, DISC raise the same error kind at
the same stage or both succeed; on success all eight registers, and everything else but CMD and the model's port
history, are equal; on an error the chain leaves the results of its completed commands where GENERATE leaves zeros.
That EXPAND and GENERATE complete in one step, although the hash primitive may never answer, is the model's choice
(log entry 2). -/
def Obligations.GenerateAgreesWithUnitCommands : Prop :=
  ∀ (adef : Bool) (s : State), s.Inv → ∃ t u : State,
    runOne (.generate adef) s = .next t ∧
    runChain [.bitlen, .expand, .solve adef, .disc] s = .next u ∧
    t.status.err = u.status.err ∧ t.status.stage = u.status.stage ∧
    (t.status.err = .none → u = { t with cmd := encode .disc, hist := u.hist }) ∧
    (t.status.err ≠ .none → ∀ x ∈ writeSet (.generate adef), ZeroReg t x) ∧
    u.lbits.toNat = bitlen s.p ∧
    (t.status.stage ≠ .check → u.r = expand s.hashOf s.seedBytes (bitlen s.p)) ∧
    (t.status.stage = .disc →
      u.a3 = (if adef then s.p - 3 else s.a) ^ 3 % s.p ∧ u.r * u.rinv % s.p = 1 ∧
      u.b2val = u.a3 * u.rinv % s.p ∧ u.b1 * u.b1 % s.p = u.b2val ∧ u.b2 = s.p - u.b1 ∧ u.discr = 0)

/-- `43_curve_generator.md` R179: what holds after a successful GENERATE with P prime. -/
def Obligations.GenerateResultFacts : Prop :=
  ∀ (adef : Bool) (s t : State), s.Inv → s.p.Prime → exec (.generate adef) s = .next t → t.status.err = .none →
    let a := if adef then s.p - 3 else s.a
    t.p = s.p ∧ t.lbits.toNat = bitlen s.p ∧
    t.r < 2 ^ (t.lbits.toNat - 1) ∧ 2 ^ (t.lbits.toNat - 1) ≤ s.p ∧ t.r ≠ 0 ∧
    t.a3 = a ^ 3 % s.p ∧ t.a3 ≠ 0 ∧ t.r * t.rinv % s.p = 1 ∧
    t.b2val = t.a3 * t.rinv % s.p ∧ t.b2val ≠ 0 ∧ t.b1 * t.b1 % s.p = t.b2val ∧
    1 ≤ t.b1 ∧ t.b1 ≤ s.p - 1 ∧ t.b2 = s.p - t.b1 ∧
    t.r * (t.b1 * t.b1) % s.p = a ^ 3 % s.p ∧ t.r * (t.b2 * t.b2) % s.p = a ^ 3 % s.p ∧
    t.discr = (4 * t.a3 + 27 * t.b2val) % s.p ∧ t.discr ≠ 0

/-- `00_scope.md` R19 and `43_curve_generator.md`, determinism and independence, for every command: what a command
leaves in its write set and in STATUS depends on its read set, the parameters and the hash primitive, and on
nothing else. -/
def Obligations.ReadSetDeterminesOutcome : Prop :=
  ∀ (i : Instr) (s t s' t' : State), s.cfg = t.cfg → (∀ m, s.hashOf m = t.hashOf m) →
    (∀ x ∈ readSet i, SameInput s t x) → exec i s = .next s' → exec i t = .next t' →
    s'.status.err = t'.status.err ∧ s'.status.stage = t'.status.stage ∧ s'.hist = t'.hist ∧
    ∀ x ∈ writeSet i, SameReg s' t' x

/-! ## System commands -/

/-- `44_system_commands.md` R190: NOP, whole. -/
def Obligations.NopCommand : Prop :=
  CommandHeader .nop 0x00000000 [] [] [.decode, .sys, .fin] ∧
  (∀ s : State, exec .nop s = .next (s.completed .none .fin []) ∧
    (s.completed .none .fin []).irq = s.ctrl.ie) ∧
  ∃ t, Host.Core.run Sys2Proof.core 2 { State.reset with turns := hostRun .nop } = .next t ∧
    t.status.word = 0x00000F02

/-- `44_system_commands.md` R191: CLEAR, whole. -/
def Obligations.ClearCommand : Prop :=
  CommandHeader .clear 0x0000000A []
    [.big .p, .big .a, .big .r, .big .a3, .big .rinv, .big .b2val, .big .b1, .big .b2, .big .discr, .lbits,
      .seedlen, .seed] [.decode, .sys, .fin] ∧
  (∀ s : State, exec .clear s = .next
    (({ s with
        p := 0, a := 0, r := 0, a3 := 0, rinv := 0, b2val := 0, b1 := 0, b2 := 0, discr := 0, lbits := 0, seedlen := 0,
        seed := List.replicate s.cfg.seedMax 0 } : State).completed .none .fin [])) ∧
  (∀ s t : State, runOne .clear s = .next t → t.cmd = 0x0000000A ∧ t.ctrl = s.ctrl ∧
    t.status.wrbusy = s.status.wrbusy) ∧
  (∀ (i : Instr) (x : DataReg), i ≠ .clear → x ∈ [.big .p, .big .a, .seed, .seedlen] → x ∉ writeSet i)

/-! ## Every command -/

/-- The frame of every command (`00_scope.md` R15, `10_state.md` R43, R46): a command changes no data register
outside its write set, and neither the parameters, CTRL, CMD, WRBUSY nor anything of the agents around the block. -/
def Obligations.CommandsWriteOnlyTheirWriteSet : Prop :=
  ∀ (i : Instr) (s t : State), exec i s = .next t →
    (∀ x, x ∉ writeSet i → SameReg s t x) ∧ t.cfg = s.cfg ∧ t.ctrl = s.ctrl ∧ t.cmd = s.cmd ∧
    t.status.wrbusy = s.status.wrbusy ∧ t.turns = s.turns ∧ t.reply = s.reply ∧ t.draws = s.draws ∧
    t.hashTable = s.hashTable

/-- `60_exceptions.md` R221: on an error completion every register of the write set holds 0, and registers outside
it are unchanged. -/
def Obligations.ErrorZeroesTheWriteSet : Prop :=
  ∀ (i : Instr) (s t : State), exec i s = .next t → t.status.err ≠ .none →
    (∀ x ∈ writeSet i, ZeroReg t x) ∧ (∀ x, x ∉ writeSet i → SameReg s t x)

/-- Every command completes, whatever its operands, with one of the errors its row of the table of
`60_exceptions.md` section 1 allows, at the stage that raises it, or with none at END: BUSY falls, DONE rises,
`stage` is STATUS.STAGE, no request is in flight and `irq` is CTRL.IE. That one step does it is the model's choice
(log entry 2). -/
def Obligations.EveryCommandCompletes : Prop :=
  ∀ (i : Instr) (s : State), ∃ t, exec i s = .next t ∧ t.status.busy = false ∧ t.status.done = true ∧
    t.stage = t.status.stage ∧ t.hreq = none ∧ t.irq = s.ctrl.ie ∧
    (t.status.err = .none ↔ t.status.stage = .fin) ∧
    (t.status.err = .noInverse → t.status.stage = .inv ∧
      (i = .modinv ∨ ∃ adef, i = .solve adef ∨ i = .generate adef)) ∧
    (t.status.err = .noSquareRoot → t.status.stage = .sqrt ∧
      (i = .modsqrt ∨ ∃ adef, i = .solve adef ∨ i = .generate adef)) ∧
    (t.status.err = .singularCurve → t.status.stage = .disc ∧ (i = .disc ∨ ∃ adef, i = .generate adef)) ∧
    (t.status.err = .badOperand → (t.status.stage = .check ∨ t.status.stage = .sqrt) ∧
      i ≠ .nop ∧ i ≠ .bitlen ∧ i ≠ .clear) ∧
    t.status.err ≠ .illegalCmd

/-- `60_exceptions.md` R214: the complete list of the causes of BAD_OPERAND, at stage CHECK and at stage SQRT; with
an even P > 2 no command gets past SQRT. -/
def Obligations.BadOperandCauses : Prop :=
  ∀ (i : Instr) (s t : State), exec i s = .next t →
    (t.status.err = .badOperand ∧ t.status.stage = .check ↔
      (s.p < 2 ∧ (i = .modinv ∨ i = .modmul ∨ i = .modsqrt ∨ i = .disc ∨
        ∃ adef, i = .cube adef ∨ i = .solve adef ∨ i = .generate adef)) ∨
      (s.p < 3 ∧ (i = .cube true ∨ i = .solve true ∨ i = .generate true)) ∨
      ((s.seedlen.toNat < 1 ∨ s.cfg.seedMax < s.seedlen.toNat) ∧ (i = .expand ∨ ∃ adef, i = .generate adef)) ∨
      ((s.lbits.toNat < 1 ∨ s.cfg.width < s.lbits.toNat) ∧ i = .expand)) ∧
    (t.status.err = .badOperand ∧ t.status.stage = .sqrt ↔ t.status.stage = .sqrt ∧ s.p % 2 = 0 ∧ 2 < s.p) ∧
    (s.p % 2 = 0 → 2 < s.p → (i = .modsqrt ∨ ∃ adef, i = .solve adef ∨ i = .generate adef) →
      t.status.stage ≠ .fin ∧ t.status.stage ≠ .disc) ∧
    (i = .modsqrt → s.p % 2 = 0 → 2 < s.p → t.status.err = .badOperand ∧ t.status.stage = .sqrt)

/-! ## Register port -/

/-- `20_memory.md` R68: an access of another width, misaligned, or above 0x7FF answers BusError and changes
nothing. -/
def Obligations.BusErrorChangesNothing : Prop :=
  ∀ (s : State) (addr width : Nat) (v : Word), (width ≠ 4 ∨ addr % 4 ≠ 0 ∨ 0x7FF < addr) →
    s.access (.read addr width) = { s with reply := .busError } ∧
    s.access (.write addr width v) = { s with reply := .busError }

/-- No read has a side effect (`20_memory.md` section 3): a step that is a read changes only the port's answer and
the model's count of free values, and on an idle block every valid read may be repeated with the same answer. The
counter and the answer are the model's fields (log entries 4, 13). -/
def Obligations.ReadsHaveNoSideEffect : Prop :=
  ∀ (s : State) (addr width : Nat) (ts : List Turn), s.turns = .access (.read addr width) :: ts →
    ∃ t, step s = .next t ∧ { t with reply := s.reply, draws := s.draws } = { s with turns := ts } ∧
      (s.status.busy = false → t.draws = s.draws ∧ (t.access (.read addr width)).reply = t.reply)

/-- A read of an idle block returns word j of a big-integer register, or word j of the seed buffer with the lowest
byte address in bits [7:0] (`20_memory.md` section 2 and section 3). -/
def Obligations.IdleReadsOfData : Prop :=
  ∀ s : State, s.Inv → s.status.busy = false →
    (∀ (x : BigReg) (j : Nat), j < s.cfg.wWords → ∃ v : Word,
      s.access (.read (x.base + 4 * j) 4) = { s with reply := .data v } ∧
      v.toNat = s.big x / 2 ^ (32 * j) % 2 ^ 32) ∧
    (∀ j : Nat, j < s.cfg.seedWords → ∃ v : Word,
      s.access (.read (0x500 + 4 * j) 4) = { s with reply := .data v } ∧
      v.toNat = (s.seed.getD (4 * j) 0).toNat + 2 ^ 8 * (s.seed.getD (4 * j + 1) 0).toNat
        + 2 ^ 16 * (s.seed.getD (4 * j + 2) 0).toNat + 2 ^ 24 * (s.seed.getD (4 * j + 3) 0).toNat) ∧
    s.access (.read 0x014 4) = { s with reply := .data s.lbits } ∧
    s.access (.read 0x018 4) = { s with reply := .data s.seedlen }

/-- `20_memory.md` R73, its defined part: ID, CFG, CTRL, STATUS and CMD read as the register at all times, busy or
idle, with the layouts of `10_state.md` R34 to R38, the error codes of `60_exceptions.md` R210 and the stage codes
of `10_state.md` R40 as numbers. -/
def Obligations.ControlReadsAreDefined : Prop :=
  ∀ s : State, s.Inv → ∃ (cfg ctrl status : Word) (err stage : Nat),
    s.access (.read 0x000 4) = { s with reply := .data 0x48464347 } ∧
    s.access (.read 0x004 4) = { s with reply := .data cfg } ∧
    cfg.toNat = s.cfg.width / 32 + 2 ^ 8 * (s.cfg.seedMax / 4) ∧
    s.access (.read 0x008 4) = { s with reply := .data ctrl } ∧ ctrl.toNat = s.ctrl.ie.toNat ∧
    s.access (.read 0x00C 4) = { s with reply := .data status } ∧
    status.toNat = s.status.busy.toNat + 2 * s.status.done.toNat + 4 * s.status.wrbusy.toNat
      + 16 * err + 256 * stage ∧
    (s.status.err, err) ∈ [(ErrKind.none, 0), (.noInverse, 1), (.noSquareRoot, 2), (.singularCurve, 3),
      (.badOperand, 4), (.illegalCmd, 5)] ∧
    (s.status.stage, stage) ∈ [(Stage.none, 0), (.decode, 1), (.check, 2), (.bitlen, 3), (.expand, 4), (.cube, 5),
      (.inv, 6), (.mul, 7), (.sqrt, 8), (.disc, 9), (.sys, 10), (.fin, 15)] ∧
    s.access (.read 0x010 4) = { s with reply := .data s.cmd }

/-- `20_memory.md` section 3, writes to an idle block: a write to one word of a writable big-integer register
stores that word, leaves the other words and everything else unchanged, and keeps the value within W bits; a write
to LBITS or SEEDLEN stores all 32 bits, a write to CTRL stores bit 0 as IE, and nothing else changes but the
answer. -/
def Obligations.WriteOfOneWord : Prop :=
  ∀ (s : State) (v : Word), s.Inv → s.status.busy = false →
    (∀ (x : BigReg) (j : Nat), x ∉ [BigReg.b1, BigReg.b2, BigReg.discr] → j < s.cfg.wWords →
      ∃ n, n < 2 ^ s.cfg.width ∧
        s.access (.write (x.base + 4 * j) 4 v) = { s.setBig n x with reply := .ack } ∧
        (s.setBig n x).big x = n ∧ (∀ y, y ≠ x → (s.setBig n x).big y = s.big y) ∧
        ∀ k, n / 2 ^ (32 * k) % 2 ^ 32 = if k = j then v.toNat else s.big x / 2 ^ (32 * k) % 2 ^ 32) ∧
    s.access (.write 0x014 4 v) = { s with lbits := v, reply := .ack } ∧
    s.access (.write 0x018 4 v) = { s with seedlen := v, reply := .ack } ∧
    s.access (.write 0x008 4 v) = { s with ctrl := ⟨v.getLsbD 0⟩, reply := .ack }

/-- A write to word j of the seed buffer of an idle block stores the four bytes v[8n+7:8n] at SEED[4j+n], and no
other byte or register changes (`20_memory.md` sections 2 and 3). -/
def Obligations.WriteOfSeedWord : Prop :=
  ∀ (s : State) (j : Nat) (v : Word), s.Inv → s.status.busy = false → j < s.cfg.seedWords →
    ∃ bs : Bytes, s.access (.write (0x500 + 4 * j) 4 v) = { s with seed := bs, reply := .ack } ∧
      bs.length = s.seed.length ∧
      (∀ n, n < 4 → (bs.getD (4 * j + n) 0).toNat = v.toNat / 2 ^ (8 * n) % 2 ^ 8) ∧
      (∀ k, k < 4 * j ∨ 4 * j + 4 ≤ k → bs.getD k 0 = s.seed.getD k 0)

/-- `20_memory.md` R72: while a command runs, a write to CMD, LBITS, SEEDLEN, the seed buffer or a word of P, A, R,
A3, RINV or B2VAL is dropped and sets WRBUSY; writes to CTRL and STATUS take effect; all other writes are ignored
and do not set WRBUSY. -/
def Obligations.WritesWhileBusy : Prop :=
  ∀ (s : State) (v : Word), s.Inv → s.status.busy = true →
    (∀ addr, (addr = 0x010 ∨ addr = 0x014 ∨ addr = 0x018 ∨
        (∃ j, j < s.cfg.seedWords ∧ addr = 0x500 + 4 * j) ∨
        (∃ x ∈ [BigReg.p, .a, .r, .a3, .rinv, .b2val], ∃ j, j < s.cfg.wWords ∧ addr = BigReg.base x + 4 * j)) →
      s.access (.write addr 4 v) = { s with status := { s.status with wrbusy := true }, reply := .ack }) ∧
    s.access (.write 0x008 4 v) = { s with ctrl := ⟨v.getLsbD 0⟩, reply := .ack } ∧
    s.access (.write 0x00C 4 v) = { s with
      status := { s.status with wrbusy := s.status.wrbusy && !v.getLsbD 2 }, reply := .ack } ∧
    (∀ x ∈ [BigReg.b1, .b2, .discr], ∀ j, j < 32 →
      s.access (.write (BigReg.base x + 4 * j) 4 v) = { s with reply := .ack }) ∧
    (∀ addr, (addr = 0x000 ∨ addr = 0x004) →
      s.access (.write addr 4 v) = { s with reply := .ack })

/-- `10_state.md` R39, and with it R21, R28 to R30, R32, R34 and R35: the offsets without a register, the unused
words of a slot, the bytes past the seed buffer, and the read-only registers ID, CFG, B1, B2 and DISCR ignore
writes at all times, busy or idle, without setting WRBUSY; an idle block reads 0 where there is no register, and in
the two ranges of R39 a busy block does too. -/
def Obligations.HolesReadZeroIgnoreWrites : Prop :=
  ∀ (s : State) (v : Word), s.Inv →
    (∀ addr, addr % 4 = 0 →
      ((0x01C ≤ addr ∧ addr ≤ 0x07F) ∨ (0x600 ≤ addr ∧ addr ≤ 0x7FF) ∨
        (0x500 + s.cfg.seedMax ≤ addr ∧ addr ≤ 0x5FF) ∨
        ∃ x : BigReg, BigReg.base x + 4 * s.cfg.wWords ≤ addr ∧ addr < BigReg.base x + 0x80) →
      s.access (.write addr 4 v) = { s with reply := .ack } ∧
      (s.status.busy = false → s.access (.read addr 4) = { s with reply := .data 0 }) ∧
      ((addr ≤ 0x07F ∨ 0x600 ≤ addr) → s.access (.read addr 4) = { s with reply := .data 0 })) ∧
    (∀ addr, addr = 0x000 ∨ addr = 0x004 → s.access (.write addr 4 v) = { s with reply := .ack }) ∧
    (∀ x ∈ [BigReg.b1, .b2, .discr], ∀ j, j < 32 →
      s.access (.write (BigReg.base x + 4 * j) 4 v) = { s with reply := .ack })

/-- `10_state.md` R38: a write to CMD of an idle block is the acceptance of a command, whatever the word; while a
command runs it is dropped and sets WRBUSY; a read of CMD returns the last accepted word. The history and the
answer are the model's fields (log entries 9, 13). -/
def Obligations.CommandAcceptance : Prop :=
  ∀ (s : State) (v : Word),
    (s.status.busy = false →
      s.access (.write 0x010 4 v) = { s with
        cmd := v
        status := { busy := true, done := false, wrbusy := s.status.wrbusy, err := .none, stage := .none }
        stage := .decode
        hist := []
        reply := .ack }) ∧
    (s.status.busy = true →
      s.access (.write 0x010 4 v) = { s with status := { s.status with wrbusy := true }, reply := .ack }) ∧
    s.access (.read 0x010 4) = { s with reply := .data s.cmd } ∧ State.reset.cmd = 0

/-- `44_system_commands.md` R199: writes to STATUS clear DONE and WRBUSY, each where a 1 is written, and nothing
else; ERR and STAGE keep their values. -/
def Obligations.StatusWriteOneToClear : Prop :=
  (∀ (s : State) (v : Word),
    s.access (.write 0x00C 4 v) = { s with
      status := { busy := s.status.busy, done := s.status.done && !v.getLsbD 1,
                  wrbusy := s.status.wrbusy && !v.getLsbD 2, err := s.status.err, stage := s.status.stage }
      reply := .ack }) ∧
  (∀ s : State, (s.access (.write 0x00C 4 0x2)).irq = false) ∧
  (∀ (s : State) (v : Word), s.status.busy = false → (s.access (.write 0x010 4 v)).status.done = false)

/-- `60_exceptions.md` R217: `irq` is STATUS.DONE and CTRL.IE; a write of CTRL sets IE from bit 0; `irq` is lowered
by writing 1 to DONE and by the next command, and every completion, with or without error, raises it when IE = 1. -/
def Obligations.InterruptOutput : Prop :=
  ∀ s : State, s.irq = (s.status.done && s.ctrl.ie) ∧
    (∀ v : Word, (s.access (.write 0x008 4 v)).irq = (s.status.done && v.getLsbD 0)) ∧
    (∀ v : Word, v.getLsbD 1 = true → (s.access (.write 0x00C 4 v)).irq = false) ∧
    (∀ w : Word, (s.accept w).irq = false) ∧
    (∀ i t, exec i s = .next t → t.irq = s.ctrl.ie) ∧ s.illegal.irq = s.ctrl.ie

/-- `44_system_commands.md` R197: `LDBIG X, n` on an idle block gives register X the value n, whatever it held. The
writes are turns of the model's schedule (log entry 3). -/
def Obligations.LoadBigInteger : Prop :=
  ∀ (s : State) (x : BigReg) (n : Nat) (rest : List Turn), s.Inv → s.status.busy = false →
    x ∉ [BigReg.b1, BigReg.b2, BigReg.discr] → n < 2 ^ s.cfg.width →
    Host.Core.run Sys2Proof.core s.cfg.wWords { s with turns := hostLdBig s.cfg x n ++ rest }
      = .next (({ s with turns := rest, reply := .ack } : State).setBig n x)

/-- `44_system_commands.md` R198: `LDSEED` on an idle block gives the seed its bytes, first byte first, and SEEDLEN
their count; other registers are unchanged. The writes are turns of the model's schedule (log entry 3). -/
def Obligations.LoadSeed : Prop :=
  ∀ (s : State) (bs : Bytes) (rest : List Turn), s.Inv → s.status.busy = false →
    1 ≤ bs.length → bs.length ≤ s.cfg.seedMax →
    ∃ t, Host.Core.run Sys2Proof.core ((bs.length + 3) / 4 + 1) { s with turns := hostLdSeed bs ++ rest } = .next t ∧
      t.seedBytes = bs ∧ t.seedlen.toNat = bs.length ∧
      (∀ k, 4 * ((bs.length + 3) / 4) ≤ k → t.seed.getD k 0 = s.seed.getD k 0) ∧
      t = { s with turns := rest, reply := .ack, seed := t.seed, seedlen := t.seedlen }

/-! ## Reset -/

/-- `10_state.md` R47: every reset value, for every choice of the parameters, and the default parameters of
`State.reset`. -/
def Obligations.ResetValues : Prop :=
  State.reset = State.resetOf ⟨544 / 32, 64 / 4⟩ ∧
  ∀ c : Params, c.wellFormed = true →
    (∀ x : BigReg, (State.resetOf c).big x = 0) ∧ (State.resetOf c).lbits = 0 ∧ (State.resetOf c).seedlen = 0 ∧
    (State.resetOf c).seed.length = c.seedMax ∧ (∀ b ∈ (State.resetOf c).seed, b = 0) ∧
    (State.resetOf c).wordAt 0x000 = 0x48464347 ∧
    ((State.resetOf c).wordAt 0x004).toNat = c.width / 32 + 2 ^ 8 * (c.seedMax / 4) ∧
    (State.resetOf c).wordAt 0x008 = 0 ∧ (State.resetOf c).wordAt 0x00C = 0 ∧
    (State.resetOf c).wordAt 0x010 = 0 ∧ (State.resetOf c).stage = .none ∧ (State.resetOf c).stage.code = 0 ∧
    (State.resetOf c).hreq = none ∧ (State.resetOf c).irq = false

/-- `70_reset_and_hazards.md` R240: reset at any moment, a command running or not, leaves the reset values, no
result and no DONE; it is not the error state. What stays across a reset turn is the model's reading (log entry
15). -/
def Obligations.ResetStopsACommand : Prop :=
  ∀ (s : State) (ts : List Turn), s.turns = .rst :: ts →
    ∃ t, step s = .next t ∧
      t = { State.resetOf s.cfg with turns := ts, draws := s.draws, hashTable := s.hashTable } ∧
      (∀ x : BigReg, t.big x = 0) ∧ t.status = ⟨false, false, false, .none, .none⟩ ∧ t.stage = .none ∧
      t.hreq = none ∧ t.hdReady = false ∧ t.irq = false

/-- `70_reset_and_hazards.md` R241: out of reset the block is idle, and an idle block stays as it is until the host
writes. That a step with an empty schedule is the block's turn is the model's choice (log entry 3). -/
def Obligations.IdleBlockStaysIdle : Prop :=
  (State.reset.status.busy = false ∧ State.reset.status.done = false ∧ State.reset.stage = .none ∧
    State.reset.ctrl.ie = false) ∧
  (∀ n, Host.Core.run Sys2Proof.core n State.reset = .next State.reset) ∧
  (∀ (s : State) (ts : List Turn), s.status.busy = false → s.turns = ts → (∀ t ∈ ts, t = .run ∨ t = .work) →
    Host.Core.run Sys2Proof.core ts.length s = .next { s with turns := [] })

/-! ## Steps -/

/-- A step runs the decoded command: when the block moves and CMD decodes to i, the step is exec of i, on the state
whose turn has been taken off the schedule; and the step after `withFetchWord` runs the word placed, from any
state. That the schedule decides who moves, and that one step is a whole command, are the model's choices (log
entries 2, 3, 10). -/
def Obligations.StepRunsDecodedCommand : Prop :=
  (∀ (s : State) (i : Instr), s.status.busy = true → decode s.cmd = .ok i →
    (s.turns = [] → step s = exec i s) ∧
    (∀ ts, s.turns = .run :: ts → step s = exec i { s with turns := ts })) ∧
  (∀ (s : State) (nbits w : Nat) (i : Instr), decodeTableWord nbits w = some i →
    step (s.withFetchWord nbits w) = exec i (s.accept (encode i)))

/-! ## Invariants -/

/-- The reset state satisfies both invariants, for every legal choice of the parameters. -/
def Obligations.ResetSatisfiesInvariants : Prop :=
  State.reset.Inv ∧ State.reset.PortInv ∧ ∀ c : Params, c.wellFormed = true → (State.resetOf c).Inv

/-- Every step keeps the invariant: the registers fit W bits, the seed buffer keeps its size, STATUS and `stage`
agree, ERR and STAGE are one of the terminal pairs, a request is in flight only in stage EXPAND. -/
def Obligations.StepKeepsInvariant : Prop :=
  ∀ s t : State, s.Inv → step s = .next t → t.Inv

/-- Every step keeps the hash port's protocol. The history is the model's field (log entry 9). -/
def Obligations.StepKeepsPortProtocol : Prop :=
  ∀ s t : State, s.Inv → s.PortInv → step s = .next t → t.PortInv

/-- Every run from a state of the invariant, of any length and under any schedule, is safe: it never stops.
Schedules are the model's (log entry 3). -/
def Obligations.RunsAreSafe : Prop :=
  ∀ (n : Nat) (s : State), s.Inv → SafeRun n s

/-- While a command runs, no step changes a data register, CMD or the parameters before its completion: the read
set at completion is the read set at acceptance (`20_memory.md` R75). -/
def Obligations.BusyFreezesRegisters : Prop :=
  ∀ s t : State, s.status.busy = true → step s = .next t → t.status.busy = true →
    (∀ x : DataReg, SameReg s t x) ∧ t.cmd = s.cmd ∧ t.cfg = s.cfg ∧ t.hashTable = s.hashTable

/-- A command taken stage by stage, its hash requests answered one by one, ends in the state of its one atomic
step, whatever the order of the block's and the primitive's turns (`60_exceptions.md` section 4,
`43_curve_generator.md` section 1). The turns of the block are the model's (log entries 2, 3, 19). -/
def Obligations.StagewiseRunEqualsAtomicRun : Prop :=
  ∀ (s e : State) (i : Instr) (ts : List Turn), s.JustAccepted → decode s.cmd = .ok i → exec i s = .next e →
    (∀ t ∈ ts, t = .work ∨ t = .answer) →
    ∃ u, Host.Core.run Sys2Proof.core ts.length { s with turns := ts } = .next u ∧
      (u = { e with turns := [] } ∨
        (u.status.busy = true ∧ u.stage ∈ stagePath i ∧ u.stage ≠ .fin ∧
          ∀ x : DataReg, SameReg s u x))

/-- Every accepted word, legal or not, completes on every fair schedule (`70_reset_and_hazards.md` section 4): cut
a schedule, of any turns of any agent but a reset, into rounds in each of which the block has a turn and after it
the hash primitive has one; within 16 rounds the block is idle with DONE, and for a legal word ERR, STAGE and every
data register are those of the atomic run, whatever accesses the host made in between. The bound is the model's
count of stages and requests, the turns are the model's (log entries 3, 19). -/
def Obligations.FairRunsComplete : Prop :=
  ∀ (s : State) (rounds : List (List Turn)), s.Inv → s.JustAccepted → rounds.length = 16 →
    (∀ g ∈ rounds, FairRound g) →
    ∃ n u, n ≤ rounds.flatten.length ∧
      Host.Core.run Sys2Proof.core n { s with turns := rounds.flatten } = .next u ∧
      u.status.busy = false ∧ u.status.done = true ∧
      ∀ i e, decode s.cmd = .ok i → exec i s = .next e →
        u.status.err = e.status.err ∧ u.status.stage = e.status.stage ∧ ∀ x : DataReg, SameReg e u x

/-- If the hash primitive never answers, the block stays busy for ever, with no error, its request still in flight:
no turn but an answer, a reset or the model's atomic run ends it (`60_exceptions.md` section 6). The turns are the
model's (log entries 2, 3). -/
def Obligations.UnansweredRequestHangs : Prop :=
  ∀ (s : State) (i : Instr) (m : Bytes) (ts : List Turn), s.status.busy = true → decode s.cmd = .ok i →
    s.stage = .expand → s.hreq = some m → s.turns = ts → (∀ t ∈ ts, t = .work ∨ ∃ q, t = .access q) →
    ∃ u, Host.Core.run Sys2Proof.core ts.length s = .next u ∧
      u.status.busy = true ∧ u.hreq = some m ∧ u.stage = .expand ∧ u.status.err = s.status.err ∧
      ∀ x : DataReg, SameReg s u x
end

