-- ==== Sys2Proof/Laws/Arith.lean ====
section
/-! SUPPORT. What the integer and byte-string primitives compute. -/

namespace Sys2Proof.Machine

/-! `bitlen` (`00_scope.md` R11). -/

@[simp] theorem bitlen_zero : bitlen 0 = 0 := rfl

theorem bitlen_of_pos {n : Nat} (h : 0 < n) : bitlen n = Nat.log2 n + 1 := by
  simp [bitlen, Nat.pos_iff_ne_zero.mp h]

theorem lt_two_pow_bitlen (n : Nat) : n < 2 ^ bitlen n := by
  rcases Nat.eq_zero_or_pos n with rfl | h
  · simp
  · rw [bitlen_of_pos h]; exact Nat.lt_log2_self

theorem two_pow_bitlen_le {n : Nat} (h : 0 < n) : 2 ^ (bitlen n - 1) ≤ n := by
  rw [bitlen_of_pos h, Nat.add_sub_cancel]; exact Nat.log2_self_le (Nat.pos_iff_ne_zero.mp h)

theorem bitlen_le_iff {n k : Nat} : bitlen n ≤ k ↔ n < 2 ^ k := by
  constructor
  · exact fun h => (lt_two_pow_bitlen n).trans_le (Nat.pow_le_pow_right (by omega) h)
  · intro h
    rcases Nat.eq_zero_or_pos n with rfl | hn
    · simp
    · have := (two_pow_bitlen_le hn).trans_lt h
      have := (Nat.pow_lt_pow_iff_right (by omega : 1 < 2)).mp this
      omega

theorem bitlen_half {e : Nat} (h : e ≠ 0) : bitlen e = bitlen (e / 2) + 1 := by
  apply le_antisymm
  · rw [bitlen_le_iff, Nat.pow_succ]; have := lt_two_pow_bitlen (e / 2); omega
  · have h1 : bitlen (e / 2) ≤ bitlen e - 1 := by
      rw [bitlen_le_iff]
      have := lt_two_pow_bitlen e
      have hp : bitlen e = (bitlen e - 1) + 1 := by rw [bitlen_of_pos (Nat.pos_of_ne_zero h)]; omega
      rw [hp, Nat.pow_succ] at this; omega
    have : 1 ≤ bitlen e := by rw [bitlen_of_pos (Nat.pos_of_ne_zero h)]; omega
    omega

/-! `ModExp` (`00_scope.md` R11). -/

theorem modExpFuel_eq (b m : Nat) : ∀ fuel e, bitlen e ≤ fuel → modExpFuel b m fuel e = b ^ e % m
  | 0, e, h => by
    have : e = 0 := by rw [bitlen_le_iff] at h; omega
    simp [modExpFuel, this]
  | fuel + 1, e, h => by
    unfold modExpFuel
    split
    · next h0 => simp [h0]
    · next h0 =>
      have ih := modExpFuel_eq b m fuel (e / 2) (by rw [bitlen_half h0] at h; omega)
      rw [ih]
      have sq : b ^ (e / 2) % m * (b ^ (e / 2) % m) % m = b ^ (2 * (e / 2)) % m := by
        rw [← Nat.mul_mod, ← Nat.pow_add, two_mul]
      split
      · next he => simp only [sq]; congr 2; omega
      · next he =>
        simp only [sq]
        rw [Nat.mod_mul_mod, ← Nat.pow_succ]; congr 2; omega

/-- `ModExp(b, e, m)` = (b^e) mod m. -/
theorem modExp_eq (b e m : Nat) : modExp b e m = b ^ e % m := modExpFuel_eq b m _ e le_rfl

/-! Byte strings (`00_scope.md` R12). -/

theorem be2int_foldl (bs : Bytes) (n : Nat) :
    bs.foldl (fun acc b => acc * 256 + b.toNat) n = n * 256 ^ bs.length + be2int bs := by
  induction bs generalizing n with
  | nil => simp [be2int]
  | cons b bs ih =>
    simp only [be2int, List.foldl_cons, List.length_cons]
    rw [ih, ih (0 * 256 + b.toNat)]
    ring

@[simp] theorem be2int_nil : be2int [] = 0 := rfl

theorem be2int_cons (b : Byte) (bs : Bytes) : be2int (b :: bs) = b.toNat * 256 ^ bs.length + be2int bs := by
  have := be2int_foldl bs b.toNat
  simpa [be2int] using this

theorem be2int_append (xs ys : Bytes) : be2int (xs ++ ys) = be2int xs * 256 ^ ys.length + be2int ys := by
  rw [be2int, List.foldl_append, be2int_foldl]; rfl

theorem be2int_lt (bs : Bytes) : be2int bs < 256 ^ bs.length := by
  induction bs with
  | nil => simp
  | cons b bs ih =>
    rw [be2int_cons, List.length_cons, Nat.pow_succ]
    have := b.isLt
    nlinarith [Nat.mul_le_mul_right (256 ^ bs.length) (by omega : b.toNat ≤ 255)]

@[simp] theorem int2be_length (n len : Nat) : (int2be n len).length = len := by
  induction len generalizing n with
  | zero => rfl
  | succ len ih => simp [int2be, ih]

/-- The low `len` bytes of n have the value n mod 256^len. -/
theorem be2int_int2be (n len : Nat) : be2int (int2be n len) = n % 256 ^ len := by
  induction len generalizing n with
  | zero => simp [int2be, Nat.mod_one]
  | succ len ih =>
    rw [int2be, be2int_append, ih]
    simp only [List.length_singleton, be2int_cons, be2int_nil, BitVec.toNat_ofNat]
    have h : n % 256 ^ (len + 1) = n / 256 % 256 ^ len * 256 + n % 256 := by
      rw [Nat.pow_succ, Nat.mul_comm (256 ^ len), Nat.mod_mul]; ring
    rw [h]; norm_num

@[simp] theorem int2beMin_length (n : Nat) : (int2beMin n).length = ceilDiv (bitlen n) 8 := by simp [int2beMin]

@[simp] theorem lastBytes_length (k : Nat) (bs : Bytes) (h : k ≤ bs.length) : (lastBytes k bs).length = k := by
  simp [lastBytes]; omega

/-! Searches and loops of the modular solver. -/

/-- What the least-value search finds: the least value of the range that passes. -/
theorem leastFrom_some {test : Nat → Bool} : ∀ {len lo n}, leastFrom test len lo = some n →
    lo ≤ n ∧ n < lo + len ∧ test n = true ∧ ∀ k, lo ≤ k → k < n → test k = false
  | 0, lo, n, h => by simp [leastFrom] at h
  | len + 1, lo, n, h => by
    unfold leastFrom at h
    split at h
    · next ht => cases h; exact ⟨le_rfl, by omega, ht, fun k h1 h2 => by omega⟩
    · next ht =>
      obtain ⟨h1, h2, h3, h4⟩ := leastFrom_some h
      refine ⟨by omega, by omega, h3, fun k hk1 hk2 => ?_⟩
      rcases Nat.eq_or_lt_of_le hk1 with rfl | hlt
      · simpa using ht
      · exact h4 k hlt hk2

/-- The search fails only where no value of the range passes. -/
theorem leastFrom_none {test : Nat → Bool} : ∀ {len lo}, leastFrom test len lo = none →
    ∀ k, lo ≤ k → k < lo + len → test k = false
  | 0, lo, _, k, h1, h2 => by omega
  | len + 1, lo, h, k, h1, h2 => by
    unfold leastFrom at h
    split at h
    · cases h
    · next ht =>
      rcases Nat.eq_or_lt_of_le h1 with rfl | hlt
      · simpa using ht
      · exact leastFrom_none h k hlt (by omega)

/-- The split p − 1 = Q · 2^S: the loop keeps Q · 2^S and ends at an odd Q when its fuel covers Q. -/
theorem oddPart_spec : ∀ (fuel q s : Nat), 0 < q → q ≤ fuel →
    (oddPart fuel q s).1 * 2 ^ (oddPart fuel q s).2 = q * 2 ^ s ∧ (oddPart fuel q s).1 % 2 = 1 ∧ s ≤ (oddPart fuel q s).2
  | 0, q, s, h1, h2 => by omega
  | fuel + 1, q, s, h1, h2 => by
    unfold oddPart
    split
    · next he =>
      obtain ⟨i1, i2, i3⟩ := oddPart_spec fuel (q / 2) (s + 1) (by omega) (by omega)
      refine ⟨?_, i2, by omega⟩
      rw [i1, Nat.pow_succ, Nat.mul_comm (2 ^ s) 2, ← Nat.mul_assoc]
      congr 1; omega
    · next he => exact ⟨rfl, by simp only []; omega, le_rfl⟩

/-- The Euclid loop ends with a = gcd, and keeps `x0 * u ≡ a` and `x1 * u ≡ b` modulo p, with x0, x1 below p
(`41_modular_solver.md` R139). -/
theorem euclidLoop_spec (p u : Nat) (hp : 0 < p) : ∀ (fuel a b x0 x1 : Nat), b < fuel →
    x0 * u ≡ a [MOD p] → x1 * u ≡ b [MOD p] → x0 < p → x1 < p →
    (euclidLoop p fuel a b x0 x1).1 = Nat.gcd a b ∧
      (euclidLoop p fuel a b x0 x1).2 * u ≡ Nat.gcd a b [MOD p] ∧ (euclidLoop p fuel a b x0 x1).2 < p
  | 0, a, b, x0, x1, hb, _, _, _, _ => by omega
  | fuel + 1, a, b, x0, x1, hb, h0, h1, l0, l1 => by
    unfold euclidLoop
    split
    · next hz => subst hz; simpa using ⟨h0, l0⟩
    · next hz =>
      have hr : a - a / b * b = a % b := by
        have := Nat.div_add_mod a b; rw [Nat.mul_comm] at this; omega
      have hlt : a % b < b := Nat.mod_lt _ (Nat.pos_of_ne_zero hz)
      have hpz : (0 : Int) < p := by exact_mod_cast hp
      obtain ⟨x2, hx2⟩ : ∃ x2 : Nat, (((x0 : Int) - (a / b : Nat) * (x1 : Int)) % (p : Int)) = x2 :=
        ⟨_, (Int.toNat_of_nonneg (Int.emod_nonneg _ hpz.ne')).symm⟩
      have l2 : x2 < p := by
        have := Int.emod_lt_of_pos ((x0 : Int) - (a / b : Nat) * (x1 : Int)) hpz
        rw [hx2] at this; exact_mod_cast this
      have h2 : x2 * u ≡ a % b [MOD p] := by
        have e0 := (Int.natCast_modEq_iff.mpr h0)
        have e1 := (Int.natCast_modEq_iff.mpr h1)
        apply Int.natCast_modEq_iff.mp
        push_cast at e0 e1 ⊢
        have e2 : (x2 : Int) ≡ (x0 : Int) - (a / b : Nat) * (x1 : Int) [ZMOD p] := by
          rw [← hx2]; exact Int.mod_modEq _ _
        have e3 := e2.mul_right (u : Int)
        have e4 : ((x0 : Int) - (a / b : Nat) * (x1 : Int)) * u ≡ (a : Int) - (a / b : Nat) * (b : Int) [ZMOD p] := by
          have := e0.sub (e1.mul_left ((a / b : Nat) : Int))
          calc _ = (x0 : Int) * u - (a / b : Nat) * ((x1 : Int) * u) := by ring
            _ ≡ _ [ZMOD p] := this
        have e5 : (a : Int) - (a / b : Nat) * (b : Int) = (a : Int) % b := by
          rw [Int.emod_def]; push_cast; ring
        exact (e3.trans e4).trans (by rw [e5])
      have ih := euclidLoop_spec p u hp fuel b (a % b) x1 x2 (by omega) h1 h2 l1 l2
      have hg : Nat.gcd b (a % b) = Nat.gcd a b := by rw [Nat.gcd_comm a b, Nat.gcd_comm b, ← Nat.gcd_rec]
      simp only [hr, hx2, Int.toNat_natCast]
      rw [hg] at ih
      exact ih

/-- The inverse unit, once for all that use it: it answers a value below p exactly where r and p are coprime, and that
value is an inverse of r (`41_modular_solver.md` R137 to R139). -/
theorem modInv_spec (p r : Nat) (hp : 2 ≤ p) :
    (Nat.gcd (r % p) p ≠ 1 → modInv p r = none) ∧
    (Nat.gcd (r % p) p = 1 → ∃ x, modInv p r = some x ∧ x < p ∧ r * x % p = 1) := by
  have hs := euclidLoop_spec p (r % p) (by omega) (r % p + 1) p (r % p) 0 1 (by omega)
    (by simp [Nat.ModEq]) (by simp [Nat.ModEq]) (by omega) (by omega)
  rw [Nat.gcd_comm p] at hs
  obtain ⟨h1, h2, h3⟩ := hs
  constructor
  · intro h; simp [modInv, h1, h]
  · intro h
    rw [h] at h1 h2
    refine ⟨_, by simp [modInv, h1], h3, ?_⟩
    have h2' : (euclidLoop p (r % p + 1) p (r % p) 0 1).2 * (r % p) % p = 1 % p := h2
    rw [Nat.mod_eq_of_lt (by omega : 1 < p), Nat.mul_mod, Nat.mod_mod, ← Nat.mul_mod, Nat.mul_comm] at h2'
    exact h2'

/-- What the square-root unit answers: a checked root below p, for p = 2 or an odd p (`41_modular_solver.md` R143,
R147). -/
theorem modSqrt_ok {p v x : Nat} (hp : 2 ≤ p) (h : modSqrt p v = .ok x) :
    x < p ∧ x * x % p = v % p ∧ (p = 2 ∨ p % 2 = 1) := by
  have root_zero : v % p = 0 → 0 < p ∧ 0 * 0 % p = v % p := fun h0 => ⟨by omega, by simp [h0]⟩
  unfold modSqrt at h
  split at h
  · next h2 =>
    cases h
    subst h2
    refine ⟨Nat.mod_lt _ (by omega), ?_, Or.inl rfl⟩
    rcases Nat.mod_two_eq_zero_or_one v with hv | hv <;> simp [hv]
  · split at h
    · cases h
    · next h2 hodd =>
      have hp1 : p % 2 = 1 := by omega
      dsimp only at h
      split at h
      · next hv => cases h; exact ⟨(root_zero hv).1, (root_zero hv).2, Or.inr hp1⟩
      · split at h
        · cases h
        · split at h
          · cases h
          · next x' hx =>
            split at h
            · next hc =>
              cases h
              refine ⟨?_, hc, Or.inr hp1⟩
              have big : 2 < p := by omega
              unfold rootCandidate at hx
              split at hx
              · cases hx; rw [modExp_eq]; exact Nat.mod_lt _ (by omega)
              · split at hx
                · cases hx
                · have loop : ∀ fuel m c t y, y < p → ∀ z, tonelliLoop p fuel m c t y = some z → z < p := by
                    intro fuel
                    induction fuel with
                    | zero => intro m c t y _ z hz; simp [tonelliLoop] at hz
                    | succ fuel ih =>
                      intro m c t y hy z hz
                      unfold tonelliLoop at hz
                      split at hz
                      · cases hz; exact hy
                      · split at hz
                        · cases hz
                        · exact ih _ _ _ _ (Nat.mod_lt _ (by omega)) z hz
                  exact loop _ _ _ _ _ (by rw [modExp_eq]; exact Nat.mod_lt _ (by omega)) _ hx
            · cases h

/-- What the square-root unit raises: BAD_OPERAND exactly for an even p > 2 (`41_modular_solver.md` R149), else
NO_SQUARE_ROOT. -/
theorem modSqrt_error {p v : Nat} {k : ErrKind} (h : modSqrt p v = .error k) :
    (k = .badOperand ∧ p % 2 = 0 ∧ p ≠ 2) ∨ (k = .noSquareRoot ∧ p % 2 = 1) := by
  unfold modSqrt at h
  split at h
  · cases h
  · split at h
    · next h2 h0 => cases h; exact Or.inl ⟨rfl, h0, h2⟩
    · next h2 h0 =>
      have h1 : p % 2 = 1 := by omega
      refine Or.inr ⟨?_, h1⟩
      dsimp only at h
      split at h
      · cases h
      · split at h
        · cases h; rfl
        · split at h
          · cases h; rfl
          · split at h
            · cases h
            · cases h; rfl

/-- An even p > 2 is refused before anything else is looked at (`41_modular_solver.md` R149). -/
theorem modSqrt_even {p : Nat} (v : Nat) (h2 : p ≠ 2) (h0 : p % 2 = 0) : modSqrt p v = .error .badOperand := by
  simp [modSqrt, h2, h0]

end Sys2Proof.Machine
end

