-- ==== Sys2Proof/Laws/State.lean ====
section
/-! SUPPORT. One lemma per field per update of State, true by rfl, so that no proof unfolds a record update. -/

namespace Sys2Proof.Machine.State

@[simp] theorem accept_cfg (s : State) (w : Word) : (s.accept w).cfg = s.cfg := rfl
@[simp] theorem accept_p (s : State) (w : Word) : (s.accept w).p = s.p := rfl
@[simp] theorem accept_a (s : State) (w : Word) : (s.accept w).a = s.a := rfl
@[simp] theorem accept_r (s : State) (w : Word) : (s.accept w).r = s.r := rfl
@[simp] theorem accept_a3 (s : State) (w : Word) : (s.accept w).a3 = s.a3 := rfl
@[simp] theorem accept_rinv (s : State) (w : Word) : (s.accept w).rinv = s.rinv := rfl
@[simp] theorem accept_b2val (s : State) (w : Word) : (s.accept w).b2val = s.b2val := rfl
@[simp] theorem accept_b1 (s : State) (w : Word) : (s.accept w).b1 = s.b1 := rfl
@[simp] theorem accept_b2 (s : State) (w : Word) : (s.accept w).b2 = s.b2 := rfl
@[simp] theorem accept_discr (s : State) (w : Word) : (s.accept w).discr = s.discr := rfl
@[simp] theorem accept_lbits (s : State) (w : Word) : (s.accept w).lbits = s.lbits := rfl
@[simp] theorem accept_seedlen (s : State) (w : Word) : (s.accept w).seedlen = s.seedlen := rfl
@[simp] theorem accept_seed (s : State) (w : Word) : (s.accept w).seed = s.seed := rfl
@[simp] theorem accept_ctrl (s : State) (w : Word) : (s.accept w).ctrl = s.ctrl := rfl
@[simp] theorem accept_status (s : State) (w : Word) : (s.accept w).status = { busy := true, done := false, wrbusy := s.status.wrbusy, err := .none, stage := .none } := rfl
@[simp] theorem accept_cmd (s : State) (w : Word) : (s.accept w).cmd = w := rfl
@[simp] theorem accept_stage (s : State) (w : Word) : (s.accept w).stage = .decode := rfl
@[simp] theorem accept_hreq (s : State) (w : Word) : (s.accept w).hreq = s.hreq := rfl
@[simp] theorem accept_turns (s : State) (w : Word) : (s.accept w).turns = s.turns := rfl
@[simp] theorem accept_reply (s : State) (w : Word) : (s.accept w).reply = s.reply := rfl
@[simp] theorem accept_draws (s : State) (w : Word) : (s.accept w).draws = s.draws := rfl
@[simp] theorem accept_hist (s : State) (w : Word) : (s.accept w).hist = [] := rfl
@[simp] theorem accept_hashTable (s : State) (w : Word) : (s.accept w).hashTable = s.hashTable := rfl

@[simp] theorem succeed_cfg (s : State) (ev : List PortEvent) : (s.succeed ev).cfg = s.cfg := rfl
@[simp] theorem succeed_p (s : State) (ev : List PortEvent) : (s.succeed ev).p = s.p := rfl
@[simp] theorem succeed_a (s : State) (ev : List PortEvent) : (s.succeed ev).a = s.a := rfl
@[simp] theorem succeed_r (s : State) (ev : List PortEvent) : (s.succeed ev).r = s.r := rfl
@[simp] theorem succeed_a3 (s : State) (ev : List PortEvent) : (s.succeed ev).a3 = s.a3 := rfl
@[simp] theorem succeed_rinv (s : State) (ev : List PortEvent) : (s.succeed ev).rinv = s.rinv := rfl
@[simp] theorem succeed_b2val (s : State) (ev : List PortEvent) : (s.succeed ev).b2val = s.b2val := rfl
@[simp] theorem succeed_b1 (s : State) (ev : List PortEvent) : (s.succeed ev).b1 = s.b1 := rfl
@[simp] theorem succeed_b2 (s : State) (ev : List PortEvent) : (s.succeed ev).b2 = s.b2 := rfl
@[simp] theorem succeed_discr (s : State) (ev : List PortEvent) : (s.succeed ev).discr = s.discr := rfl
@[simp] theorem succeed_lbits (s : State) (ev : List PortEvent) : (s.succeed ev).lbits = s.lbits := rfl
@[simp] theorem succeed_seedlen (s : State) (ev : List PortEvent) : (s.succeed ev).seedlen = s.seedlen := rfl
@[simp] theorem succeed_seed (s : State) (ev : List PortEvent) : (s.succeed ev).seed = s.seed := rfl
@[simp] theorem succeed_ctrl (s : State) (ev : List PortEvent) : (s.succeed ev).ctrl = s.ctrl := rfl
@[simp] theorem succeed_status (s : State) (ev : List PortEvent) : (s.succeed ev).status = { busy := false, done := true, wrbusy := s.status.wrbusy, err := .none, stage := .fin } := rfl
@[simp] theorem succeed_cmd (s : State) (ev : List PortEvent) : (s.succeed ev).cmd = s.cmd := rfl
@[simp] theorem succeed_stage (s : State) (ev : List PortEvent) : (s.succeed ev).stage = .fin := rfl
@[simp] theorem succeed_hreq (s : State) (ev : List PortEvent) : (s.succeed ev).hreq = none := rfl
@[simp] theorem succeed_turns (s : State) (ev : List PortEvent) : (s.succeed ev).turns = s.turns := rfl
@[simp] theorem succeed_reply (s : State) (ev : List PortEvent) : (s.succeed ev).reply = s.reply := rfl
@[simp] theorem succeed_draws (s : State) (ev : List PortEvent) : (s.succeed ev).draws = s.draws := rfl
@[simp] theorem succeed_hist (s : State) (ev : List PortEvent) : (s.succeed ev).hist = ev := rfl
@[simp] theorem succeed_hashTable (s : State) (ev : List PortEvent) : (s.succeed ev).hashTable = s.hashTable := rfl

@[simp] theorem completed_cfg (s : State) (k : ErrKind) (st : Stage) (ev : List PortEvent) : (s.completed k st ev).cfg = s.cfg := rfl
@[simp] theorem completed_p (s : State) (k : ErrKind) (st : Stage) (ev : List PortEvent) : (s.completed k st ev).p = s.p := rfl
@[simp] theorem completed_a (s : State) (k : ErrKind) (st : Stage) (ev : List PortEvent) : (s.completed k st ev).a = s.a := rfl
@[simp] theorem completed_r (s : State) (k : ErrKind) (st : Stage) (ev : List PortEvent) : (s.completed k st ev).r = s.r := rfl
@[simp] theorem completed_a3 (s : State) (k : ErrKind) (st : Stage) (ev : List PortEvent) : (s.completed k st ev).a3 = s.a3 := rfl
@[simp] theorem completed_rinv (s : State) (k : ErrKind) (st : Stage) (ev : List PortEvent) : (s.completed k st ev).rinv = s.rinv := rfl
@[simp] theorem completed_b2val (s : State) (k : ErrKind) (st : Stage) (ev : List PortEvent) : (s.completed k st ev).b2val = s.b2val := rfl
@[simp] theorem completed_b1 (s : State) (k : ErrKind) (st : Stage) (ev : List PortEvent) : (s.completed k st ev).b1 = s.b1 := rfl
@[simp] theorem completed_b2 (s : State) (k : ErrKind) (st : Stage) (ev : List PortEvent) : (s.completed k st ev).b2 = s.b2 := rfl
@[simp] theorem completed_discr (s : State) (k : ErrKind) (st : Stage) (ev : List PortEvent) : (s.completed k st ev).discr = s.discr := rfl
@[simp] theorem completed_lbits (s : State) (k : ErrKind) (st : Stage) (ev : List PortEvent) : (s.completed k st ev).lbits = s.lbits := rfl
@[simp] theorem completed_seedlen (s : State) (k : ErrKind) (st : Stage) (ev : List PortEvent) : (s.completed k st ev).seedlen = s.seedlen := rfl
@[simp] theorem completed_seed (s : State) (k : ErrKind) (st : Stage) (ev : List PortEvent) : (s.completed k st ev).seed = s.seed := rfl
@[simp] theorem completed_ctrl (s : State) (k : ErrKind) (st : Stage) (ev : List PortEvent) : (s.completed k st ev).ctrl = s.ctrl := rfl
@[simp] theorem completed_status (s : State) (k : ErrKind) (st : Stage) (ev : List PortEvent) : (s.completed k st ev).status = { busy := false, done := true, wrbusy := s.status.wrbusy, err := k, stage := st } := rfl
@[simp] theorem completed_cmd (s : State) (k : ErrKind) (st : Stage) (ev : List PortEvent) : (s.completed k st ev).cmd = s.cmd := rfl
@[simp] theorem completed_stage (s : State) (k : ErrKind) (st : Stage) (ev : List PortEvent) : (s.completed k st ev).stage = st := rfl
@[simp] theorem completed_hreq (s : State) (k : ErrKind) (st : Stage) (ev : List PortEvent) : (s.completed k st ev).hreq = none := rfl
@[simp] theorem completed_turns (s : State) (k : ErrKind) (st : Stage) (ev : List PortEvent) : (s.completed k st ev).turns = s.turns := rfl
@[simp] theorem completed_reply (s : State) (k : ErrKind) (st : Stage) (ev : List PortEvent) : (s.completed k st ev).reply = s.reply := rfl
@[simp] theorem completed_draws (s : State) (k : ErrKind) (st : Stage) (ev : List PortEvent) : (s.completed k st ev).draws = s.draws := rfl
@[simp] theorem completed_hist (s : State) (k : ErrKind) (st : Stage) (ev : List PortEvent) : (s.completed k st ev).hist = ev := rfl
@[simp] theorem completed_hashTable (s : State) (k : ErrKind) (st : Stage) (ev : List PortEvent) : (s.completed k st ev).hashTable = s.hashTable := rfl

@[simp] theorem dropWrite_cfg (s : State) : (s.dropWrite).cfg = s.cfg := rfl
@[simp] theorem dropWrite_p (s : State) : (s.dropWrite).p = s.p := rfl
@[simp] theorem dropWrite_a (s : State) : (s.dropWrite).a = s.a := rfl
@[simp] theorem dropWrite_r (s : State) : (s.dropWrite).r = s.r := rfl
@[simp] theorem dropWrite_a3 (s : State) : (s.dropWrite).a3 = s.a3 := rfl
@[simp] theorem dropWrite_rinv (s : State) : (s.dropWrite).rinv = s.rinv := rfl
@[simp] theorem dropWrite_b2val (s : State) : (s.dropWrite).b2val = s.b2val := rfl
@[simp] theorem dropWrite_b1 (s : State) : (s.dropWrite).b1 = s.b1 := rfl
@[simp] theorem dropWrite_b2 (s : State) : (s.dropWrite).b2 = s.b2 := rfl
@[simp] theorem dropWrite_discr (s : State) : (s.dropWrite).discr = s.discr := rfl
@[simp] theorem dropWrite_lbits (s : State) : (s.dropWrite).lbits = s.lbits := rfl
@[simp] theorem dropWrite_seedlen (s : State) : (s.dropWrite).seedlen = s.seedlen := rfl
@[simp] theorem dropWrite_seed (s : State) : (s.dropWrite).seed = s.seed := rfl
@[simp] theorem dropWrite_ctrl (s : State) : (s.dropWrite).ctrl = s.ctrl := rfl
@[simp] theorem dropWrite_status (s : State) : (s.dropWrite).status = { s.status with wrbusy := true } := rfl
@[simp] theorem dropWrite_cmd (s : State) : (s.dropWrite).cmd = s.cmd := rfl
@[simp] theorem dropWrite_stage (s : State) : (s.dropWrite).stage = s.stage := rfl
@[simp] theorem dropWrite_hreq (s : State) : (s.dropWrite).hreq = s.hreq := rfl
@[simp] theorem dropWrite_turns (s : State) : (s.dropWrite).turns = s.turns := rfl
@[simp] theorem dropWrite_reply (s : State) : (s.dropWrite).reply = s.reply := rfl
@[simp] theorem dropWrite_draws (s : State) : (s.dropWrite).draws = s.draws := rfl
@[simp] theorem dropWrite_hist (s : State) : (s.dropWrite).hist = s.hist := rfl
@[simp] theorem dropWrite_hashTable (s : State) : (s.dropWrite).hashTable = s.hashTable := rfl

@[simp] theorem applyReset_cfg (s : State) : s.applyReset.cfg = s.cfg := rfl
@[simp] theorem applyReset_p (s : State) : s.applyReset.p = (State.resetOf s.cfg).p := rfl
@[simp] theorem applyReset_a (s : State) : s.applyReset.a = (State.resetOf s.cfg).a := rfl
@[simp] theorem applyReset_r (s : State) : s.applyReset.r = (State.resetOf s.cfg).r := rfl
@[simp] theorem applyReset_a3 (s : State) : s.applyReset.a3 = (State.resetOf s.cfg).a3 := rfl
@[simp] theorem applyReset_rinv (s : State) : s.applyReset.rinv = (State.resetOf s.cfg).rinv := rfl
@[simp] theorem applyReset_b2val (s : State) : s.applyReset.b2val = (State.resetOf s.cfg).b2val := rfl
@[simp] theorem applyReset_b1 (s : State) : s.applyReset.b1 = (State.resetOf s.cfg).b1 := rfl
@[simp] theorem applyReset_b2 (s : State) : s.applyReset.b2 = (State.resetOf s.cfg).b2 := rfl
@[simp] theorem applyReset_discr (s : State) : s.applyReset.discr = (State.resetOf s.cfg).discr := rfl
@[simp] theorem applyReset_lbits (s : State) : s.applyReset.lbits = (State.resetOf s.cfg).lbits := rfl
@[simp] theorem applyReset_seedlen (s : State) : s.applyReset.seedlen = (State.resetOf s.cfg).seedlen := rfl
@[simp] theorem applyReset_seed (s : State) : s.applyReset.seed = (State.resetOf s.cfg).seed := rfl
@[simp] theorem applyReset_ctrl (s : State) : s.applyReset.ctrl = (State.resetOf s.cfg).ctrl := rfl
@[simp] theorem applyReset_status (s : State) : s.applyReset.status = (State.resetOf s.cfg).status := rfl
@[simp] theorem applyReset_cmd (s : State) : s.applyReset.cmd = (State.resetOf s.cfg).cmd := rfl
@[simp] theorem applyReset_stage (s : State) : s.applyReset.stage = (State.resetOf s.cfg).stage := rfl
@[simp] theorem applyReset_hreq (s : State) : s.applyReset.hreq = (State.resetOf s.cfg).hreq := rfl
@[simp] theorem applyReset_turns (s : State) : s.applyReset.turns = s.turns := rfl
@[simp] theorem applyReset_reply (s : State) : s.applyReset.reply = (State.resetOf s.cfg).reply := rfl
@[simp] theorem applyReset_draws (s : State) : s.applyReset.draws = s.draws := rfl
@[simp] theorem applyReset_hist (s : State) : s.applyReset.hist = (State.resetOf s.cfg).hist := rfl
@[simp] theorem applyReset_hashTable (s : State) : s.applyReset.hashTable = s.hashTable := rfl

@[simp] theorem setBig_cfg (s : State) (v : Nat) (x : BigReg) : (s.setBig v x).cfg = s.cfg := by cases x <;> rfl
@[simp] theorem setBig_lbits (s : State) (v : Nat) (x : BigReg) : (s.setBig v x).lbits = s.lbits := by cases x <;> rfl
@[simp] theorem setBig_seedlen (s : State) (v : Nat) (x : BigReg) : (s.setBig v x).seedlen = s.seedlen := by cases x <;> rfl
@[simp] theorem setBig_seed (s : State) (v : Nat) (x : BigReg) : (s.setBig v x).seed = s.seed := by cases x <;> rfl
@[simp] theorem setBig_ctrl (s : State) (v : Nat) (x : BigReg) : (s.setBig v x).ctrl = s.ctrl := by cases x <;> rfl
@[simp] theorem setBig_status (s : State) (v : Nat) (x : BigReg) : (s.setBig v x).status = s.status := by cases x <;> rfl
@[simp] theorem setBig_cmd (s : State) (v : Nat) (x : BigReg) : (s.setBig v x).cmd = s.cmd := by cases x <;> rfl
@[simp] theorem setBig_stage (s : State) (v : Nat) (x : BigReg) : (s.setBig v x).stage = s.stage := by cases x <;> rfl
@[simp] theorem setBig_hreq (s : State) (v : Nat) (x : BigReg) : (s.setBig v x).hreq = s.hreq := by cases x <;> rfl
@[simp] theorem setBig_turns (s : State) (v : Nat) (x : BigReg) : (s.setBig v x).turns = s.turns := by cases x <;> rfl
@[simp] theorem setBig_reply (s : State) (v : Nat) (x : BigReg) : (s.setBig v x).reply = s.reply := by cases x <;> rfl
@[simp] theorem setBig_draws (s : State) (v : Nat) (x : BigReg) : (s.setBig v x).draws = s.draws := by cases x <;> rfl
@[simp] theorem setBig_hist (s : State) (v : Nat) (x : BigReg) : (s.setBig v x).hist = s.hist := by cases x <;> rfl
@[simp] theorem setBig_hashTable (s : State) (v : Nat) (x : BigReg) : (s.setBig v x).hashTable = s.hashTable := by cases x <;> rfl

@[simp] theorem setBig_big_self (s : State) (v : Nat) (x : BigReg) : (s.setBig v x).big x = v := by cases x <;> rfl

theorem setBig_big_of_ne (s : State) (v : Nat) {x y : BigReg} (h : y ≠ x) : (s.setBig v x).big y = s.big y := by
  cases x <;> cases y <;> first | rfl | exact absurd rfl h

@[simp] theorem zeroReg_cfg (s : State) (d : DataReg) : (s.zeroReg d).cfg = s.cfg := by cases d <;> simp [State.zeroReg]
@[simp] theorem zeroReg_ctrl (s : State) (d : DataReg) : (s.zeroReg d).ctrl = s.ctrl := by cases d <;> simp [State.zeroReg]
@[simp] theorem zeroReg_status (s : State) (d : DataReg) : (s.zeroReg d).status = s.status := by cases d <;> simp [State.zeroReg]
@[simp] theorem zeroReg_cmd (s : State) (d : DataReg) : (s.zeroReg d).cmd = s.cmd := by cases d <;> simp [State.zeroReg]
@[simp] theorem zeroReg_stage (s : State) (d : DataReg) : (s.zeroReg d).stage = s.stage := by cases d <;> simp [State.zeroReg]
@[simp] theorem zeroReg_hreq (s : State) (d : DataReg) : (s.zeroReg d).hreq = s.hreq := by cases d <;> simp [State.zeroReg]
@[simp] theorem zeroReg_turns (s : State) (d : DataReg) : (s.zeroReg d).turns = s.turns := by cases d <;> simp [State.zeroReg]
@[simp] theorem zeroReg_reply (s : State) (d : DataReg) : (s.zeroReg d).reply = s.reply := by cases d <;> simp [State.zeroReg]
@[simp] theorem zeroReg_draws (s : State) (d : DataReg) : (s.zeroReg d).draws = s.draws := by cases d <;> simp [State.zeroReg]
@[simp] theorem zeroReg_hist (s : State) (d : DataReg) : (s.zeroReg d).hist = s.hist := by cases d <;> simp [State.zeroReg]
@[simp] theorem zeroReg_hashTable (s : State) (d : DataReg) : (s.zeroReg d).hashTable = s.hashTable := by cases d <;> simp [State.zeroReg]

@[simp] theorem zeroSet_cfg (s : State) (ws : List DataReg) : (s.zeroSet ws).cfg = s.cfg := by
  induction ws generalizing s with
  | nil => rfl
  | cons d ds ih => exact (ih (s.zeroReg d)).trans (zeroReg_cfg s d)
@[simp] theorem zeroSet_ctrl (s : State) (ws : List DataReg) : (s.zeroSet ws).ctrl = s.ctrl := by
  induction ws generalizing s with
  | nil => rfl
  | cons d ds ih => exact (ih (s.zeroReg d)).trans (zeroReg_ctrl s d)
@[simp] theorem zeroSet_status (s : State) (ws : List DataReg) : (s.zeroSet ws).status = s.status := by
  induction ws generalizing s with
  | nil => rfl
  | cons d ds ih => exact (ih (s.zeroReg d)).trans (zeroReg_status s d)
@[simp] theorem zeroSet_cmd (s : State) (ws : List DataReg) : (s.zeroSet ws).cmd = s.cmd := by
  induction ws generalizing s with
  | nil => rfl
  | cons d ds ih => exact (ih (s.zeroReg d)).trans (zeroReg_cmd s d)
@[simp] theorem zeroSet_stage (s : State) (ws : List DataReg) : (s.zeroSet ws).stage = s.stage := by
  induction ws generalizing s with
  | nil => rfl
  | cons d ds ih => exact (ih (s.zeroReg d)).trans (zeroReg_stage s d)
@[simp] theorem zeroSet_hreq (s : State) (ws : List DataReg) : (s.zeroSet ws).hreq = s.hreq := by
  induction ws generalizing s with
  | nil => rfl
  | cons d ds ih => exact (ih (s.zeroReg d)).trans (zeroReg_hreq s d)
@[simp] theorem zeroSet_turns (s : State) (ws : List DataReg) : (s.zeroSet ws).turns = s.turns := by
  induction ws generalizing s with
  | nil => rfl
  | cons d ds ih => exact (ih (s.zeroReg d)).trans (zeroReg_turns s d)
@[simp] theorem zeroSet_reply (s : State) (ws : List DataReg) : (s.zeroSet ws).reply = s.reply := by
  induction ws generalizing s with
  | nil => rfl
  | cons d ds ih => exact (ih (s.zeroReg d)).trans (zeroReg_reply s d)
@[simp] theorem zeroSet_draws (s : State) (ws : List DataReg) : (s.zeroSet ws).draws = s.draws := by
  induction ws generalizing s with
  | nil => rfl
  | cons d ds ih => exact (ih (s.zeroReg d)).trans (zeroReg_draws s d)
@[simp] theorem zeroSet_hist (s : State) (ws : List DataReg) : (s.zeroSet ws).hist = s.hist := by
  induction ws generalizing s with
  | nil => rfl
  | cons d ds ih => exact (ih (s.zeroReg d)).trans (zeroReg_hist s d)
@[simp] theorem zeroSet_hashTable (s : State) (ws : List DataReg) : (s.zeroSet ws).hashTable = s.hashTable := by
  induction ws generalizing s with
  | nil => rfl
  | cons d ds ih => exact (ih (s.zeroReg d)).trans (zeroReg_hashTable s d)

@[simp] theorem raise_cfg (s : State) (ws : List DataReg) (e : Raise) (ev : List PortEvent) : (s.raise ws e ev).cfg = s.cfg := by simp [State.raise]
@[simp] theorem raise_ctrl (s : State) (ws : List DataReg) (e : Raise) (ev : List PortEvent) : (s.raise ws e ev).ctrl = s.ctrl := by simp [State.raise]
@[simp] theorem raise_status (s : State) (ws : List DataReg) (e : Raise) (ev : List PortEvent) : (s.raise ws e ev).status = { busy := false, done := true, wrbusy := s.status.wrbusy, err := e.kind, stage := e.stage } := rfl
@[simp] theorem raise_cmd (s : State) (ws : List DataReg) (e : Raise) (ev : List PortEvent) : (s.raise ws e ev).cmd = s.cmd := by simp [State.raise]
@[simp] theorem raise_stage (s : State) (ws : List DataReg) (e : Raise) (ev : List PortEvent) : (s.raise ws e ev).stage = e.stage := rfl
@[simp] theorem raise_hreq (s : State) (ws : List DataReg) (e : Raise) (ev : List PortEvent) : (s.raise ws e ev).hreq = none := rfl
@[simp] theorem raise_turns (s : State) (ws : List DataReg) (e : Raise) (ev : List PortEvent) : (s.raise ws e ev).turns = s.turns := by simp [State.raise]
@[simp] theorem raise_reply (s : State) (ws : List DataReg) (e : Raise) (ev : List PortEvent) : (s.raise ws e ev).reply = s.reply := by simp [State.raise]
@[simp] theorem raise_draws (s : State) (ws : List DataReg) (e : Raise) (ev : List PortEvent) : (s.raise ws e ev).draws = s.draws := by simp [State.raise]
@[simp] theorem raise_hist (s : State) (ws : List DataReg) (e : Raise) (ev : List PortEvent) : (s.raise ws e ev).hist = ev := rfl
@[simp] theorem raise_hashTable (s : State) (ws : List DataReg) (e : Raise) (ev : List PortEvent) : (s.raise ws e ev).hashTable = s.hashTable := by simp [State.raise]

@[simp] theorem succeed_big (s : State) (ev : List PortEvent) (x : BigReg) : (s.succeed ev).big x = s.big x := by
  cases x <;> rfl

@[simp] theorem completed_big (s : State) (k : ErrKind) (st : Stage) (ev : List PortEvent) (x : BigReg) :
    (s.completed k st ev).big x = s.big x := by
  cases x <;> rfl

@[simp] theorem accept_big (s : State) (w : Word) (x : BigReg) : (s.accept w).big x = s.big x := by cases x <;> rfl

@[simp] theorem dropWrite_big (s : State) (x : BigReg) : s.dropWrite.big x = s.big x := by cases x <;> rfl

/-- Success completion is the common completion with no error at END. -/
theorem succeed_eq_completed (s : State) (ev : List PortEvent) : s.succeed ev = s.completed .none .fin ev := rfl

/-- Error completion is the common completion over the zeroed write set. -/
theorem raise_eq_completed (s : State) (ws : List DataReg) (e : Raise) (ev : List PortEvent) :
    s.raise ws e ev = (s.zeroSet ws).completed e.kind e.stage ev := by
  simp [State.raise, State.completed]

/-- The completion of an illegal word zeroes nothing. -/
theorem illegal_eq_completed (s : State) : s.illegal = s.completed .illegalCmd .decode [] := rfl

end Sys2Proof.Machine.State
end

