-- ==== Sys2Proof/Laws/Ops.lean ====
section
/-! SUPPORT. One lemma per shared operation that says what it can do: zeroing a write set, completion, the operand
checks, the stages that may raise, words of registers and of the seed buffer, the hash port's history. -/

namespace Sys2Proof.Machine

/-! Zeroing a write set (`60_exceptions.md` R221). -/

/-- Zeroing one register leaves every other one as it is. -/
theorem zeroReg_frame (s : State) {d x : DataReg} (h : x ≠ d) : SameReg s (s.zeroReg d) x := by
  cases d <;> cases x <;> simp_all [SameReg, State.zeroReg]
  next d x => rw [State.setBig_big_of_ne s 0 h]
  all_goals (next x => cases x <;> rfl)

/-- Zeroing one register leaves 0 in it. -/
theorem zeroReg_zero (s : State) (d : DataReg) : ZeroReg (s.zeroReg d) d := by
  cases d <;> simp [ZeroReg, State.zeroReg]

/-- A register that holds 0 keeps it while others are zeroed. -/
theorem zeroReg_keeps (s : State) (d : DataReg) {x : DataReg} (h : ZeroReg s x) : ZeroReg (s.zeroReg d) x := by
  by_cases hx : x = d
  · subst hx; exact zeroReg_zero s x
  · have := zeroReg_frame s hx
    cases x <;> simp_all [ZeroReg, SameReg]

/-- A list of zeroed registers leaves every other register as it is. -/
theorem zeroSet_frame (ws : List DataReg) : ∀ (s : State) {x : DataReg}, x ∉ ws → SameReg s (s.zeroSet ws) x := by
  induction ws with
  | nil => intro s x _; cases x <;> rfl
  | cons d ws ih =>
    intro s x h
    simp only [List.mem_cons, not_or] at h
    have h1 := zeroReg_frame s h.1
    have h2 := ih (s.zeroReg d) h.2
    cases x <;> exact Eq.trans h1 h2

/-- Every register of the list holds 0 afterwards. -/
theorem zeroSet_zero (ws : List DataReg) : ∀ (s : State) {x : DataReg}, x ∈ ws → ZeroReg (s.zeroSet ws) x := by
  have keep : ∀ (ws : List DataReg) (s : State) {x : DataReg}, ZeroReg s x → ZeroReg (s.zeroSet ws) x := by
    intro ws
    induction ws with
    | nil => intro s x h; exact h
    | cons d ws ih => intro s x h; exact ih (s.zeroReg d) (zeroReg_keeps s d h)
  induction ws with
  | nil => intro s x h; cases h
  | cons d ws ih =>
    intro s x h
    rcases List.mem_cons.mp h with rfl | h
    · exact keep ws (s.zeroReg x) (zeroReg_zero s x)
    · exact ih (s.zeroReg d) h

/-! Completion (`60_exceptions.md` R220, R222). -/

/-- What a completion can be: success with the results, or the first raise with a zeroed write set. -/
theorem settle_cases (s : State) (ws : List DataReg) (ev : List PortEvent) (out : Except Raise State) :
    (∃ t, out = .ok t ∧ s.settle ws ev out = t.completed .none .fin ev) ∨
    (∃ e, out = .error e ∧
      s.settle ws ev out = (s.zeroSet ws).completed e.kind e.stage (if e.stage = .check then [] else ev)) := by
  cases out with
  | ok t => exact Or.inl ⟨t, rfl, rfl⟩
  | error e => exact Or.inr ⟨e, rfl, State.raise_eq_completed s ws e _⟩

@[simp] theorem settle_ok (s t : State) (ws : List DataReg) (ev : List PortEvent) :
    s.settle ws ev (.ok t) = t.completed .none .fin ev := rfl

@[simp] theorem settle_error (s : State) (ws : List DataReg) (ev : List PortEvent) (e : Raise) :
    s.settle ws ev (.error e) =
      (s.zeroSet ws).completed e.kind e.stage (if e.stage = .check then [] else ev) :=
  State.raise_eq_completed s ws e _

/-! Operand checks (`60_exceptions.md` R214). -/

theorem checkModulus_cases (s : State) :
    (2 ≤ s.p ∧ checkModulus s = .ok ()) ∨ (s.p < 2 ∧ checkModulus s = .error ⟨.badOperand, .check⟩) := by
  unfold checkModulus
  split
  · exact Or.inr ⟨‹_›, rfl⟩
  · exact Or.inl ⟨by omega, rfl⟩

theorem checkDefaultA_cases (adef : Bool) (s : State) :
    ((adef = true → 3 ≤ s.p) ∧ checkDefaultA adef s = .ok ()) ∨
    (adef = true ∧ s.p < 3 ∧ checkDefaultA adef s = .error ⟨.badOperand, .check⟩) := by
  unfold checkDefaultA
  split
  · next h => simp only [Bool.and_eq_true, decide_eq_true_eq] at h; exact Or.inr ⟨h.1, h.2, rfl⟩
  · next h => simp only [Bool.and_eq_true, decide_eq_true_eq, not_and, not_lt] at h; exact Or.inl ⟨h, rfl⟩

theorem checkSeedLen_cases (s : State) :
    (1 ≤ s.seedlen.toNat ∧ s.seedlen.toNat ≤ s.cfg.seedMax ∧ checkSeedLen s = .ok ()) ∨
    ((s.seedlen.toNat < 1 ∨ s.cfg.seedMax < s.seedlen.toNat) ∧
      checkSeedLen s = .error ⟨.badOperand, .check⟩) := by
  unfold checkSeedLen
  split
  · next h => simp only [Bool.or_eq_true, decide_eq_true_eq] at h; exact Or.inr ⟨h, rfl⟩
  · next h =>
    simp only [Bool.or_eq_true, decide_eq_true_eq, not_or, not_lt] at h; exact Or.inl ⟨h.1, h.2, rfl⟩

theorem checkLbits_cases (s : State) :
    (1 ≤ s.lbits.toNat ∧ s.lbits.toNat ≤ s.cfg.width ∧ checkLbits s = .ok ()) ∨
    ((s.lbits.toNat < 1 ∨ s.cfg.width < s.lbits.toNat) ∧ checkLbits s = .error ⟨.badOperand, .check⟩) := by
  unfold checkLbits
  split
  · next h => simp only [Bool.or_eq_true, decide_eq_true_eq] at h; exact Or.inr ⟨h, rfl⟩
  · next h =>
    simp only [Bool.or_eq_true, decide_eq_true_eq, not_or, not_lt] at h; exact Or.inl ⟨h.1, h.2, rfl⟩

/-! Stages that may raise. -/

/-- Stage INV: the inverse where r is coprime to p, else NO_INVERSE (`41_modular_solver.md` R137, R138). -/
theorem invStage_cases (p r : Nat) (hp : 2 ≤ p) :
    (Nat.gcd (r % p) p = 1 ∧ ∃ x, invStage p r = .ok x ∧ x < p ∧ r * x % p = 1) ∨
    (Nat.gcd (r % p) p ≠ 1 ∧ invStage p r = .error ⟨.noInverse, .inv⟩) := by
  have h := modInv_spec p r hp
  by_cases hg : Nat.gcd (r % p) p = 1
  · obtain ⟨x, hx, hlt, hmul⟩ := h.2 hg
    exact Or.inl ⟨hg, x, by simp [invStage, hx], hlt, hmul⟩
  · exact Or.inr ⟨hg, by simp [invStage, h.1 hg]⟩

/-- Stage SQRT: a checked root below p, or one of the two kinds it raises (`41_modular_solver.md` R142, R144). -/
theorem sqrtStage_cases (p v : Nat) (hp : 2 ≤ p) :
    (∃ x, sqrtStage p v = .ok x ∧ modSqrt p v = .ok x ∧ x < p ∧ x * x % p = v % p ∧ (p = 2 ∨ p % 2 = 1)) ∨
    (sqrtStage p v = .error ⟨.badOperand, .sqrt⟩ ∧ p % 2 = 0 ∧ p ≠ 2) ∨
    (sqrtStage p v = .error ⟨.noSquareRoot, .sqrt⟩ ∧ p % 2 = 1) := by
  cases h : modSqrt p v with
  | ok x =>
    obtain ⟨h1, h2, h3⟩ := modSqrt_ok hp h
    exact Or.inl ⟨x, by simp [sqrtStage, h], rfl, h1, h2, h3⟩
  | error k =>
    rcases modSqrt_error h with ⟨rfl, h1, h2⟩ | ⟨rfl, h1⟩
    · exact Or.inr (Or.inl ⟨by simp [sqrtStage, h], h1, h2⟩)
    · exact Or.inr (Or.inr ⟨by simp [sqrtStage, h], h1⟩)

/-- Stage DISC: the discriminant, or SINGULAR_CURVE where it is 0 (`42_discriminant_checker.md` R160). -/
theorem discStage_cases (p a3 b : Nat) :
    ((4 * a3 + 27 * b) % p ≠ 0 ∧ discStage p a3 b = .ok ((4 * a3 + 27 * b) % p)) ∨
    ((4 * a3 + 27 * b) % p = 0 ∧ discStage p a3 b = .error ⟨.singularCurve, .disc⟩) := by
  unfold discStage
  by_cases h : (4 * a3 + 27 * b) % p = 0
  · exact Or.inr ⟨h, by simp [h]⟩
  · exact Or.inl ⟨h, by simp [h]⟩

/-- Stage CUBE is the cube (`41_modular_solver.md` R135). -/
@[simp] theorem cubeStage_eq (p a : Nat) : cubeStage p a = a ^ 3 % p := modExp_eq a 3 p

/-! Words of a register (`10_state.md` R21, `20_memory.md` R70). -/

@[simp] theorem wordOf_toNat (x j : Nat) : (wordOf x j).toNat = x / 2 ^ (32 * j) % 2 ^ 32 := by
  simp [wordOf]

/-- A word below the one that is replaced comes from the rest y alone. -/
theorem lowWord_eq (A v y B M D : Nat) (hB : 0 < B) :
    (A * (B * (M * (D * M))) + v * (B * (M * D)) + y) / B % M = y / B % M := by
  have e : A * (B * (M * (D * M))) + v * (B * (M * D)) + y = B * (M * (A * (D * M) + v * D)) + y := by ring
  rw [e, Nat.mul_add_div hB, Nat.mul_add_mod]

/-- After a write of word j, word k is v for k = j and the old word otherwise. -/
theorem withWord_word (x j : Nat) (v : Word) (k : Nat) :
    withWord x j v / 2 ^ (32 * k) % 2 ^ 32 = if k = j then v.toNat else x / 2 ^ (32 * k) % 2 ^ 32 := by
  have hv : v.toNat < 2 ^ 32 := v.isLt
  have hlow : x % 2 ^ (32 * j) < 2 ^ (32 * j) := Nat.mod_lt _ (by positivity)
  unfold withWord
  rcases lt_trichotomy k j with h | h | h
  · obtain ⟨d, rfl⟩ := Nat.exists_eq_add_of_lt h
    rw [show k + d + 1 = k + 1 + d from by ac_rfl, if_neg (by clear hv hlow; omega)]
    have e1 : 2 ^ (32 * (k + 1 + d) + 32) = 2 ^ (32 * k) * (2 ^ 32 * (2 ^ (32 * d) * 2 ^ 32)) := by
      rw [← pow_add, ← pow_add, ← pow_add]; exact congrArg (fun n => 2 ^ n) (by ring)
    have e2 : 2 ^ (32 * (k + 1 + d)) = 2 ^ (32 * k) * (2 ^ 32 * 2 ^ (32 * d)) := by
      rw [← pow_add, ← pow_add]; exact congrArg (fun n => 2 ^ n) (by ring)
    have e3 : x % 2 ^ (32 * (k + 1 + d)) / 2 ^ (32 * k) % 2 ^ 32 = x / 2 ^ (32 * k) % 2 ^ 32 := by
      rw [e2, Nat.mod_mul_right_div_self, Nat.mod_mul_right_mod]
    rw [← e3]
    generalize x / 2 ^ (32 * (k + 1 + d) + 32) = A
    generalize x % 2 ^ (32 * (k + 1 + d)) = y
    rw [e1, e2]
    exact lowWord_eq A v.toNat y _ _ _ (by positivity)
  · subst h
    rw [if_pos rfl]
    have e : x / 2 ^ (32 * k + 32) * 2 ^ (32 * k + 32) + v.toNat * 2 ^ (32 * k) + x % 2 ^ (32 * k)
        = 2 ^ (32 * k) * (2 ^ 32 * (x / 2 ^ (32 * k + 32)) + v.toNat) + x % 2 ^ (32 * k) := by
      rw [pow_add]; ring
    rw [e, Nat.mul_add_div (by positivity), Nat.div_eq_of_lt hlow, Nat.add_zero, Nat.mul_add_mod,
      Nat.mod_eq_of_lt hv]
  · obtain ⟨d, rfl⟩ := Nat.exists_eq_add_of_lt h
    rw [show j + d + 1 = j + 1 + d from by ac_rfl, if_neg (by clear hv hlow; omega)]
    have e1 : 2 ^ (32 * (j + 1 + d)) = 2 ^ (32 * j + 32) * 2 ^ (32 * d) := by
      rw [← pow_add]; exact congrArg (fun n => 2 ^ n) (by ring)
    have lt : v.toNat * 2 ^ (32 * j) + x % 2 ^ (32 * j) < 2 ^ (32 * j + 32) := by
      have : (v.toNat + 1) * 2 ^ (32 * j) ≤ 2 ^ 32 * 2 ^ (32 * j) := Nat.mul_le_mul_right _ (by omega)
      rw [pow_add, Nat.mul_comm (2 ^ (32 * j))]
      nlinarith
    have e2 : (x / 2 ^ (32 * j + 32) * 2 ^ (32 * j + 32) + v.toNat * 2 ^ (32 * j) + x % 2 ^ (32 * j))
        / 2 ^ (32 * j + 32) = x / 2 ^ (32 * j + 32) := by
      rw [Nat.add_assoc, Nat.mul_comm, Nat.mul_add_div (by positivity), Nat.div_eq_of_lt lt, Nat.add_zero]
    rw [e1, ← Nat.div_div_eq_div_mul, e2, Nat.div_div_eq_div_mul]

/-- A write of a word below the width keeps the value below 2^W. -/
theorem withWord_lt {x j w : Nat} (v : Word) (hx : x < 2 ^ (32 * w)) (hj : j < w) : withWord x j v < 2 ^ (32 * w) := by
  obtain ⟨d, rfl⟩ : ∃ d, w = j + 1 + d := ⟨w - j - 1, by omega⟩
  have hv : v.toNat < 2 ^ 32 := v.isLt
  have hlow : x % 2 ^ (32 * j) < 2 ^ (32 * j) := Nat.mod_lt _ (by positivity)
  have e : 2 ^ (32 * (j + 1 + d)) = 2 ^ (32 * j + 32) * 2 ^ (32 * d) := by rw [← pow_add]; exact congrArg (fun n => 2 ^ n) (by ring)
  have hq : x / 2 ^ (32 * j + 32) < 2 ^ (32 * d) := by
    rw [Nat.div_lt_iff_lt_mul (by positivity), Nat.mul_comm, ← e]; exact hx
  have lt : v.toNat * 2 ^ (32 * j) + x % 2 ^ (32 * j) < 2 ^ (32 * j + 32) := by
    have : (v.toNat + 1) * 2 ^ (32 * j) ≤ 2 ^ 32 * 2 ^ (32 * j) := Nat.mul_le_mul_right _ (by omega)
    rw [pow_add, Nat.mul_comm (2 ^ (32 * j))]
    nlinarith
  have : (x / 2 ^ (32 * j + 32) + 1) * 2 ^ (32 * j + 32) ≤ 2 ^ (32 * d) * 2 ^ (32 * j + 32) :=
    Nat.mul_le_mul_right _ (by omega)
  unfold withWord
  rw [e, Nat.mul_comm (2 ^ (32 * j + 32))]
  nlinarith

/-! Words of the seed buffer (`20_memory.md` R67, R70). -/

/-- Word j of the buffer is its four bytes, the lowest address in the low lane. -/
theorem seedWord_toNat (seed : Bytes) (j : Nat) :
    (seedWord seed j).toNat = (seed.getD (4 * j) 0).toNat + 2 ^ 8 * (seed.getD (4 * j + 1) 0).toNat
      + 2 ^ 16 * (seed.getD (4 * j + 2) 0).toNat + 2 ^ 24 * (seed.getD (4 * j + 3) 0).toNat := by
  unfold seedWord
  generalize seed.getD (4 * j) 0 = a
  generalize seed.getD (4 * j + 1) 0 = b
  generalize seed.getD (4 * j + 2) 0 = c
  generalize seed.getD (4 * j + 3) 0 = d
  have ha := a.isLt
  have hb := b.isLt
  have hc := c.isLt
  simp only [BitVec.toNat_append]
  rw [← Nat.shiftLeft_add_eq_or_of_lt hc, ← Nat.shiftLeft_add_eq_or_of_lt hb, ← Nat.shiftLeft_add_eq_or_of_lt ha]
  simp only [Nat.shiftLeft_eq]
  omega

@[simp] theorem withSeedWord_length (seed : Bytes) (j : Nat) (v : Word) :
    (withSeedWord seed j v).length = seed.length := by simp [withSeedWord]

/-- A write of seed word j leaves every byte outside 4j to 4j+3 as it is. -/
theorem withSeedWord_frame (seed : Bytes) (j : Nat) (v : Word) {k : Nat} (h : k < 4 * j ∨ 4 * j + 4 ≤ k) :
    (withSeedWord seed j v).getD k 0 = seed.getD k 0 := by
  unfold withSeedWord
  simp only [List.getD_eq_getElem?_getD]
  rw [List.getElem?_set_ne (by omega), List.getElem?_set_ne (by omega), List.getElem?_set_ne (by omega),
    List.getElem?_set_ne (by omega)]

/-- A write of seed word j inside the buffer stores lane n at byte 4j + n. -/
theorem withSeedWord_byte (seed : Bytes) (j : Nat) (v : Word) (hj : 4 * j + 3 < seed.length) {n : Nat} (hn : n < 4) :
    (withSeedWord seed j v).getD (4 * j + n) 0 = v.extractLsb' (8 * n) 8 := by
  have cases4 : n = 0 ∨ n = 1 ∨ n = 2 ∨ n = 3 := by omega
  unfold withSeedWord
  simp only [List.getD_eq_getElem?_getD]
  rcases cases4 with rfl | rfl | rfl | rfl
  · rw [List.getElem?_set_ne (by omega), List.getElem?_set_ne (by omega), List.getElem?_set_ne (by omega)]
    simp [List.getElem?_set_self (show 4 * j < seed.length by omega)]
  · rw [List.getElem?_set_ne (by omega), List.getElem?_set_ne (by omega),
      List.getElem?_set_self (by simp; omega)]
    rfl
  · rw [List.getElem?_set_ne (by omega), List.getElem?_set_self (by simp; omega)]
    rfl
  · rw [List.getElem?_set_self (by simp; omega)]
    rfl

/-! The hash primitive and its port (`60_exceptions.md` R226, R229). -/

/-- The answer depends on the table and the message alone. -/
theorem hashOf_congr {s t : State} (h : s.hashTable = t.hashTable) : s.hashOf = t.hashOf := by
  funext m; simp [State.hashOf, h]

@[simp] theorem portHistory_nil (hash : Bytes → Digest) : portHistory hash [] = [] := rfl

@[simp] theorem portHistory_cons (hash : Bytes → Digest) (m : Bytes) (ms : List Bytes) :
    portHistory hash (m :: ms) = .req m :: .resp (hash m) :: portHistory hash ms := rfl

@[simp] theorem portHistory_append (hash : Bytes → Digest) (ms ns : List Bytes) :
    portHistory hash (ms ++ ns) = portHistory hash ms ++ portHistory hash ns := by simp [portHistory]

@[simp] theorem portHistory_length (hash : Bytes → Digest) (ms : List Bytes) :
    (portHistory hash ms).length = 2 * ms.length := by
  induction ms with
  | nil => rfl
  | cons m ms ih => simp only [portHistory_cons, List.length_cons, ih]; omega

/-- Entries 2k and 2k + 1 of a history are request k and its answer. -/
theorem portHistory_get (hash : Bytes → Digest) : ∀ (ms : List Bytes) (k : Nat),
    (portHistory hash ms)[2 * k]? = ms[k]?.map .req ∧
    (portHistory hash ms)[2 * k + 1]? = ms[k]?.map fun m => .resp (hash m)
  | [], k => by simp
  | m :: ms, 0 => by simp
  | m :: ms, k + 1 => by
    have ih := portHistory_get hash ms k
    rw [show 2 * (k + 1) = 2 * k + 1 + 1 by omega]
    simp [ih.1, ih.2]

end Sys2Proof.Machine
end

