-- ==== Sys2Proof/Laws/Port.lean ====
section
/-! SUPPORT. The register port: which accesses are valid, where each register lies, what a read and a write can do. -/

namespace Sys2Proof.Machine

/-- The accesses the port takes (`20_memory.md` R68). -/
theorem validAccess_iff (addr width : Nat) :
    validAccess addr width = true ↔ width = 4 ∧ addr % 4 = 0 ∧ addr ≤ 0x7FF := by
  simp only [validAccess, Bool.and_eq_true, beq_iff_eq, decide_eq_true_eq]
  omega

/-- Any other access is refused and changes nothing (R68). -/
theorem access_refused (s : State) {addr width : Nat} (h : validAccess addr width = false) (v : Word) :
    s.access (.read addr width) = { s with reply := .busError } ∧
    s.access (.write addr width v) = { s with reply := .busError } := by
  simp [State.access, h]

/-- A valid read answers a free value in a data region while a command runs, else the register word (R69, R73). -/
theorem access_read (s : State) {addr : Nat} (h : validAccess addr 4 = true) :
    s.access (.read addr 4) =
      if s.status.busy && inDataRegion addr then
        { s with reply := .data (Config.busyRead s.draws), draws := s.draws + 1 }
      else { s with reply := .data (s.wordAt addr) } := by
  simp [State.access, h, State.memRead]

theorem access_write (s : State) {addr : Nat} (h : validAccess addr 4 = true) (v : Word) :
    s.access (.write addr 4 v) = { s.memWrite addr v with reply := .ack } := by
  simp [State.access, h]

/-- Every access changes the registers as a write at a valid offset does, or not at all. -/
theorem access_cases (s : State) (q : Access) :
    (∃ r d, s.access q = { s with reply := r, draws := d }) ∨
    (∃ addr v, q = .write addr 4 v ∧ validAccess addr 4 = true ∧
      s.access q = { s.memWrite addr v with reply := .ack }) := by
  cases q with
  | read addr width =>
    simp only [State.access]
    split
    · simp only [State.memRead]
      split
      · exact Or.inl ⟨_, _, rfl⟩
      · exact Or.inl ⟨_, s.draws, rfl⟩
    · exact Or.inl ⟨_, s.draws, rfl⟩
  | write addr width v =>
    by_cases h : validAccess addr width = true
    · obtain rfl := ((validAccess_iff addr width).mp h).1
      exact Or.inr ⟨addr, v, rfl, h, access_write s h v⟩
    · exact Or.inl ⟨.busError, s.draws, by simp [State.access, h]⟩

theorem whenIdle_busy {s : State} (t : State) (h : s.status.busy = true) : s.whenIdle t = s.dropWrite := by
  simp [State.whenIdle, h]

theorem whenIdle_idle {s : State} (t : State) (h : s.status.busy = false) : s.whenIdle t = t := by
  simp [State.whenIdle, h]

/-- Everything a write can do while a command runs: to CTRL and STATUS it takes effect, to a data word or CMD it is
dropped, anywhere else it is ignored (`20_memory.md` R72). -/
theorem memWrite_busy (s : State) (addr : Nat) (v : Word) (h : s.status.busy = true) :
    s.memWrite addr v = { s with status := s.status.writeOneToClear v } ∨
    s.memWrite addr v = { s with ctrl := Ctrl.ofWrite v } ∨
    s.memWrite addr v = s.dropWrite ∨ s.memWrite addr v = s := by
  unfold State.memWrite
  split <;> (try split) <;> simp [whenIdle_busy _ h]

/-- The slot of a register starts at 0x80 times its number, 1 to 9 (`20_memory.md` R71). -/
theorem base_slot (x : BigReg) : ∃ k, 1 ≤ k ∧ k ≤ 9 ∧ x.base = 0x80 * k ∧ slotReg k = some x := by
  cases x
  exacts [⟨1, by decide⟩, ⟨2, by decide⟩, ⟨3, by decide⟩, ⟨4, by decide⟩, ⟨5, by decide⟩, ⟨6, by decide⟩, ⟨7, by decide⟩,
    ⟨8, by decide⟩, ⟨9, by decide⟩]

/-- Past the control registers the map is the seed region and the slots (`20_memory.md` R71). -/
theorem target_data (c : Params) {addr : Nat} (h : 0x01C ≤ addr) :
    target c addr =
      if 0x500 ≤ addr ∧ addr < 0x600 then
        if (addr - 0x500) / 4 < c.seedWords then .seedWord ((addr - 0x500) / 4) else .hole
      else match slotReg (addr / 0x80) with
        | some x => if addr % 0x80 / 4 < c.wWords then .bigWord x (addr % 0x80 / 4) else .hole
        | none => .hole := by
  have control : ∀ off, off ≤ 0x018 → addr ≠ off := fun off ho => by omega
  simp only [target, control _ (show 0x000 ≤ 0x018 by decide), control _ (show 0x004 ≤ 0x018 by decide),
    control _ (show 0x008 ≤ 0x018 by decide), control _ (show 0x00C ≤ 0x018 by decide),
    control _ (show 0x010 ≤ 0x018 by decide), control _ (show 0x014 ≤ 0x018 by decide),
    control 0x018 le_rfl, if_false] <;> rfl

/-- Word j of a big-integer register lies at its base plus 4j (R66, R71); past W/32 words the slot is a hole. -/
theorem target_big (c : Params) (x : BigReg) {j : Nat} (hj : j < 32) :
    target c (x.base + 4 * j) = if j < c.wWords then .bigWord x j else .hole := by
  obtain ⟨k, h1, h9, hb, hk⟩ := base_slot x
  have slot : (x.base + 4 * j) / 0x80 = k := by omega
  have word : (x.base + 4 * j) % 0x80 / 4 = j := by omega
  have notSeed : ¬ (0x500 ≤ x.base + 4 * j ∧ x.base + 4 * j < 0x600) := by omega
  simp only [target_data c (show 0x01C ≤ x.base + 4 * j by omega), notSeed, slot, hk, word, if_false]

/-- Word j of the seed buffer lies at 0x500 + 4j (R67, R71); past SEEDMAX bytes there is a hole. -/
theorem target_seed (c : Params) {j : Nat} (hj : j < 64) :
    target c (0x500 + 4 * j) = if j < c.seedWords then .seedWord j else .hole := by
  have inSeed : 0x500 ≤ 0x500 + 4 * j ∧ 0x500 + 4 * j < 0x600 := by omega
  have word : (0x500 + 4 * j - 0x500) / 4 = j := by omega
  simp only [target_data c (show 0x01C ≤ 0x500 + 4 * j by omega), inSeed, and_self, if_true, word]

/-- The ranges without any register (`10_state.md` R39). -/
theorem target_hole (c : Params) {addr : Nat} (h : (0x01C ≤ addr ∧ addr ≤ 0x07F) ∨ (0x600 ≤ addr ∧ addr ≤ 0x7FF)) :
    target c addr = .hole := by
  have notSeed : ¬ (0x500 ≤ addr ∧ addr < 0x600) := by omega
  have noSlot : ∀ k, k = 0 ∨ (12 ≤ k ∧ k ≤ 15) → slotReg k = none := by
    rintro k (rfl | ⟨lo, hi⟩)
    · rfl
    · interval_cases k <;> rfl
  simp only [target_data c (show 0x01C ≤ addr by omega), notSeed, if_false, noSlot (addr / 0x80) (by omega)]

end Sys2Proof.Machine
end

