-- ==== Sys2Proof/Laws/Step.lean ====
section
/-! SUPPORT. What one step can do, by the turn it takes; runs; the two halves of a stagewise turn. -/

namespace Sys2Proof.Machine

/-! One step, by the head of the schedule. -/

theorem step_nil {s : State} (h : s.turns = []) : step s = s.runCommand := by simp [step, h]

theorem step_access {s : State} {q : Access} {ts : List Turn} (h : s.turns = .access q :: ts) :
    step s = .next (({ s with turns := ts } : State).access q) := by simp [step, h, State.takeTurn]

theorem step_rst {s : State} {ts : List Turn} (h : s.turns = .rst :: ts) :
    step s = .next ({ s with turns := ts } : State).applyReset := by simp [step, h, State.takeTurn]

theorem step_work {s : State} {ts : List Turn} (h : s.turns = .work :: ts) :
    step s = ({ s with turns := ts } : State).workStage := by simp [step, h, State.takeTurn]

theorem step_answer {s : State} {ts : List Turn} (h : s.turns = .answer :: ts) :
    step s = .next ({ s with turns := ts } : State).takeAnswer := by simp [step, h, State.takeTurn]

theorem step_run {s : State} {ts : List Turn} (h : s.turns = .run :: ts) :
    step s = ({ s with turns := ts } : State).runCommand := by simp [step, h, State.takeTurn]

/-! The block's atomic run (`70_reset_and_hazards.md` R253). -/

theorem runCommand_idle {s : State} (h : s.status.busy = false) : s.runCommand = .next s := by
  simp [State.runCommand, h]

theorem runCommand_legal {s : State} {i : Instr} (h : s.status.busy = true) (hd : decode s.cmd = .ok i) :
    s.runCommand = exec i s := by simp [State.runCommand, h, fetch, hd]

theorem runCommand_illegal {s : State} {e : DecodeError} (h : s.status.busy = true)
    (hd : decode s.cmd = .error e) : s.runCommand = .next (s.completed .illegalCmd .decode []) := by
  simp [State.runCommand, h, fetch, hd, State.illegal_eq_completed]

/-- Every command ends in the one completion operation, over its own write set. -/
theorem exec_settle (i : Instr) (s : State) :
    ∃ ev out, exec i s = .next (s.settle (writeSet i) ev out) := by cases i <;> exact ⟨_, _, rfl⟩

/-! One stage of work (`43_curve_generator.md` R172). -/

theorem workStage_idle {s : State} (h : s.status.busy = false) : s.workStage = .next s := by
  simp [State.workStage, h]

theorem workStage_illegal {s : State} {e : DecodeError} (h : s.status.busy = true)
    (hd : decode s.cmd = .error e) : s.workStage = .next (s.completed .illegalCmd .decode []) := by
  simp [State.workStage, h, fetch, hd, State.illegal_eq_completed]

/-- The block waits while its request is in flight (`60_exceptions.md` R230). -/
theorem workStage_waits {s : State} {i : Instr} (h : s.status.busy = true) (hd : decode s.cmd = .ok i)
    (hs : s.stage = .expand) (hr : s.hreq.isSome = true) : s.workStage = .next s := by
  simp [State.workStage, h, fetch, hd, hs, hr]

/-- Everything a turn of the block can do to a legal command: wait for the primitive, issue the next request, complete,
or move on one stage of the path. -/
theorem workStage_cases {s : State} {i : Instr} (h : s.status.busy = true) (hd : decode s.cmd = .ok i) :
    (s.stage = .expand ∧ s.hreq.isSome = true ∧ s.workStage = .next s) ∨
    (∃ m, s.stage = .expand ∧ s.hreq = none ∧ s.nextMessage i = some m ∧
      s.workStage = .next { s with hreq := some m, hist := s.hist ++ [.req m] }) ∨
    ((s.stage = .expand → s.hreq = none ∧ s.nextMessage i = none) ∧ s.workStage = exec i s) ∨
    (∃ st, (s.stage = .expand → s.hreq = none ∧ s.nextMessage i = none) ∧ endStage i s ≠ s.stage ∧
      stageAfter s.stage (stagePath i) = some st ∧ st ≠ .fin ∧ s.workStage = .next { s with stage := st }) := by
  generalize hw : s.workStage = o
  simp only [State.workStage, h, fetch, hd, if_true] at hw
  subst hw
  split
  · next hx => exact Or.inl ⟨hx.1, hx.2, rfl⟩
  · next hx =>
    have idle : s.stage = .expand → s.hreq = none := by
      intro he
      cases hr : s.hreq with
      | none => rfl
      | some m => exact absurd ⟨he, by simp [hr]⟩ hx
    split
    · next m hm =>
      split at hm
      · next he => exact Or.inr (Or.inl ⟨m, he, idle he, hm, rfl⟩)
      · cases hm
    · next hm =>
      have quiet : s.stage = .expand → s.hreq = none ∧ s.nextMessage i = none := by
        intro he; rw [if_pos he] at hm; exact ⟨idle he, hm⟩
      split
      · exact Or.inr (Or.inr (Or.inl ⟨quiet, rfl⟩))
      · next hend =>
        split
        · exact Or.inr (Or.inr (Or.inl ⟨quiet, rfl⟩))
        · next st hne hst =>
          exact Or.inr (Or.inr (Or.inr ⟨st, quiet, hend, hst, fun hf => hne (hf ▸ rfl), rfl⟩))
        · exact Or.inr (Or.inr (Or.inl ⟨quiet, rfl⟩))

/-! The primitive's turn (`60_exceptions.md` R230). -/

theorem takeAnswer_some {s : State} {m : Bytes} (h : s.hreq = some m) :
    s.takeAnswer = { s with hreq := none, hist := s.hist ++ [.resp (s.hashOf m)] } := by simp [State.takeAnswer, h]

theorem takeAnswer_none {s : State} (h : s.hreq = none) : s.takeAnswer = s := by simp [State.takeAnswer, h]

/-! Runs. -/

@[simp] theorem run_zero (s : State) : Host.Core.run Sys2Proof.core 0 s = .next s := rfl

theorem run_succ {s t : State} (n : Nat) (h : step s = .next t) :
    Host.Core.run Sys2Proof.core (n + 1) s = Host.Core.run Sys2Proof.core n t := by
  have h' : Sys2Proof.core.step s = .next t := h
  simp [Host.Core.run, h']

end Sys2Proof.Machine
end

