-- ==== Sys2Proof/Laws/Inv.lean ====
section
/-! SUPPORT. The invariants as tests that evaluate, so that a concrete state can be shown to have them. -/

namespace Sys2Proof.Machine

/-- `State.Inv` as a test. -/
def invCheck (s : State) : Bool :=
  s.cfg.wellFormed
    && [BigReg.p, .a, .r, .a3, .rinv, .b2val, .b1, .b2, .discr].all (fun x => decide (s.big x < 2 ^ s.cfg.width))
    && s.seed.length == s.cfg.seedMax
    && (!s.status.busy || (!s.status.done && s.status.err == .none && s.status.stage == .none))
    && (!s.status.busy || s.liveStages.contains s.stage)
    && (s.status.busy || s.status.stage == s.stage)
    && (s.status.busy || restingPairs.contains (s.status.err, s.status.stage))
    && (!s.status.done || s.status.stage != .none)
    && (!s.hreq.isSome || (s.status.busy && s.stage == .expand))

theorem inv_of_check {s : State} (h : invCheck s = true) : s.Inv := by
  simp only [invCheck, Bool.and_eq_true, Bool.or_eq_true, Bool.not_eq_true', beq_iff_eq, bne_iff_ne,
    List.contains_iff_mem, List.all_cons, List.all_nil, decide_eq_true_eq, and_true] at h
  obtain ⟨⟨⟨⟨⟨⟨⟨⟨h1, h2⟩, h3⟩, h4⟩, h5⟩, h6⟩, h7⟩, h8⟩, h9⟩ := h
  refine ⟨h1, ?_, h3, ?_, ?_, ?_, ?_, ?_, ?_⟩
  · intro x; cases x <;> simp_all
  · intro hb; simpa [hb, and_assoc] using h4
  · intro hb; simpa [hb] using h5
  · intro hb; simpa [hb] using h6
  · intro hb; simpa [hb] using h7
  · intro hb; simpa [hb] using h8
  · intro hb; simpa [hb] using h9

/-- `State.PortInv` for a state whose word in CMD is the command i. -/
theorem portInv_of_check {s : State} {i : Instr} (hd : decode s.cmd = .ok i)
    (h : s.hist <+: portHistory s.hashOf (commandMessages i s) ∧ s.hreq = openRequest s.hist) : s.PortInv := by
  intro _ j hj
  rw [hd] at hj
  cases hj
  exact h

/-- An idle block has nothing to keep on the hash port. -/
theorem portInv_idle {s : State} (h : s.status.busy = false) : s.PortInv := by
  intro hb; simp [h] at hb

end Sys2Proof.Machine
end

