-- ==== Sys2Proof/Laws/PerInstr.lean ====
section
/-! SUPPORT. One lemma per command: its word, written as the fields of `30_encoding.md` R91, decodes to it. -/

namespace Sys2Proof.Laws.EncodeDecode

open Sys2Proof.Machine

/-- A command is well formed, its fields form a legal word, the word decodes to it, and its stage path starts at DECODE
and ends at END (`30_encoding.md` R92, R97; `43_curve_generator.md` R171). -/
def Statement (i : Instr) : Prop :=
  i.wellFormed = true ∧ i.fields.wellFormed = true ∧ decode (encode i) = .ok i ∧
    (stagePath i).head? = some .decode ∧ (stagePath i).getLast? = some .fin ∧ (stagePath i).Nodup

theorem nop : Statement .nop := by unfold Statement; decide
theorem bitlen : Statement .bitlen := by unfold Statement; decide
theorem expand : Statement .expand := by unfold Statement; decide
theorem cube (adef : Bool) : Statement (.cube adef) := by unfold Statement; cases adef <;> decide
theorem modinv : Statement .modinv := by unfold Statement; decide
theorem modmul : Statement .modmul := by unfold Statement; decide
theorem modsqrt : Statement .modsqrt := by unfold Statement; decide
theorem disc : Statement .disc := by unfold Statement; decide
theorem solve (adef : Bool) : Statement (.solve adef) := by unfold Statement; cases adef <;> decide
theorem generate (adef : Bool) : Statement (.generate adef) := by unfold Statement; cases adef <;> decide
theorem clear : Statement .clear := by unfold Statement; decide

end Sys2Proof.Laws.EncodeDecode
end

