-- ==== Sys2Proof/Machine/Sha1.lean ====
section
/-! DEFINITION. SHA-1 (FIPS 180), PRESUMED: the spec names the function and its 20-byte digest and nothing of its
inside (`91_not_in_source.md` N12, `60_exceptions.md` R226). No command uses this file: it gives the premise
"Hash = SHA-1" its name. Log entry 12. -/

namespace Sys2Proof.Machine

/-- The big-endian word of up to four bytes. -/
def sha1Word (bs : Bytes) : Word := BitVec.ofNat 32 (be2int bs)

/-- The message padded to a multiple of 64 bytes: 80, zeros, the bit length in 8 bytes. -/
def sha1Pad (m : Bytes) : Bytes :=
  m ++ [0x80] ++ List.replicate ((119 - m.length % 64) % 64) 0 ++ int2be (8 * m.length) 8

/-- The first n groups of k bytes. -/
def chunks (k : Nat) : Nat → Bytes → List Bytes
  | 0, _ => []
  | n + 1, bs => bs.take k :: chunks k n (bs.drop k)

/-- The message schedule: n more words after the sixteen latest of `ws`, which holds the newest first. -/
def sha1Schedule : Nat → List Word → List Word
  | 0, ws => ws
  | n + 1, ws =>
    sha1Schedule n
      (((ws.getD 2 0 ^^^ ws.getD 7 0 ^^^ ws.getD 13 0 ^^^ ws.getD 15 0).rotateLeft 1) :: ws)

/-- The function and the constant of round t. -/
def sha1Round (t : Nat) (b c d : Word) : Word × Word :=
  if t < 20 then ((b &&& c) ||| (~~~b &&& d), 0x5A827999)
  else if t < 40 then (b ^^^ c ^^^ d, 0x6ED9EBA1)
  else if t < 60 then ((b &&& c) ||| (b &&& d) ||| (c &&& d), 0x8F1BBCDC)
  else (b ^^^ c ^^^ d, 0xCA62C1D6)

/-- The rounds from round t on, over the rest of the schedule. -/
def sha1Rounds : List Word → Nat → Word → Word → Word → Word → Word → List Word
  | [], _, a, b, c, d, e => [a, b, c, d, e]
  | w :: ws, t, a, b, c, d, e =>
    let f := sha1Round t b c d
    sha1Rounds ws (t + 1) (a.rotateLeft 5 + f.1 + e + f.2 + w) a (b.rotateLeft 30) c d

/-- One block of 64 bytes. -/
def sha1Block (h : List Word) (block : Bytes) : List Word :=
  let ws := (sha1Schedule 64 ((chunks 4 16 block).map sha1Word).reverse).reverse
  (sha1Rounds ws 0 (h.getD 0 0) (h.getD 1 0) (h.getD 2 0) (h.getD 3 0) (h.getD 4 0)).zipWith (· + ·) h

/-- The hash words after every block. -/
def sha1Words (m : Bytes) : List Word :=
  let bs := sha1Pad m
  (chunks 64 (bs.length / 64) bs).foldl sha1Block [0x67452301, 0xEFCDAB89, 0x98BADCFE, 0x10325476, 0xC3D2E1F0]

/-- SHA-1 of a byte string. -/
def sha1 (m : Bytes) : Digest :=
  let out := (sha1Words m).flatMap fun w => int2be w.toNat 4
  Vector.ofFn fun k => out.getD k.val 0

/-- The named premise of `60_exceptions.md` R226: the hash primitive is SHA-1. No rule needs it; only numeric examples
do. -/
def State.HashIsSha1 (s : State) : Prop := ∀ m, s.hashOf m = sha1 m

end Sys2Proof.Machine
end

