-- ==== Sys2Proof/Tests/Slice0.lean ====
section
/-! SUPPORT. Small tests of single steps, with expected values from `95_test_vectors.md` or worked out by hand from the
rules, and a witness for the hypotheses of every statement. -/

namespace Sys2Proof.Tests

open Sys2Proof Sys2Proof.Machine

/-! ## Helpers -/

/-- An idle block with W = 32 and SEEDMAX = 4, right after reset. -/
def small : State := State.resetOf ⟨1, 1⟩

/-- `small` with a modulus. -/
def withP (p : Nat) : State := { small with p := p }

/-- The state in which a command leaves the block. -/
def done (i : Instr) (s : State) : State :=
  match exec i s with
  | .next t => t
  | .fault _ => s
  | .refused _ => s

theorem exec_done (i : Instr) (s : State) : exec i s = .next (done i s) := by cases i <;> rfl

/-- The state after one step. -/
def after (s : State) : State :=
  match step s with
  | .next t => t
  | .fault _ => s
  | .refused _ => s

/-- STATUS as the host reads it after a command. -/
def statusOf (i : Instr) (s : State) : Word := (done i s).status.word

/-- SHA-1 of the one-byte seed 07, FIPS 180 outside the model. -/
def digest07 : Digest :=
  #v[0x5d, 0x1b, 0xe7, 0xe9, 0xdd, 0xa1, 0xee, 0x88, 0x96, 0xbe, 0x5b, 0x7e, 0x34, 0xa8, 0x5e, 0xe1, 0x64, 0x52, 0xa7,
    0xb4]

/-- A block with P = 13, seed 07, LBITS = 4 and a primitive that answers 07. -/
def seeded : State :=
  { withP 13 with
    seed := [7, 0, 0, 0], seedlen := 1, lbits := 4, a := 10, r := 4, a3 := 12, b2val := 3, rinv := 10,
    hashTable := [([7], digest07)] }

/-! ## WellFormed: each check refuses an ill-formed term -/

theorem test_zero_field_refused : (⟨0, false, 1⟩ : CmdFields).zeroOk = false ∧
    (⟨0, false, 1⟩ : CmdFields).wellFormed = false ∧ decode 0x00000200 = .error .zeroField := by decide

theorem test_opcode_refused : (⟨0x0B, false, 0⟩ : CmdFields).opcOk = false ∧
    (⟨0x0B, false, 0⟩ : CmdFields).wellFormed = false ∧ decode 0x0000000B = .error .opcode := by decide

theorem test_adef_refused : (⟨0x04, true, 0⟩ : CmdFields).adefOk = false ∧
    (⟨0x04, true, 0⟩ : CmdFields).wellFormed = false ∧ decode 0x00000104 = .error .adefNotAllowed := by decide

theorem test_width_refused : (⟨0, 1⟩ : Params).widthOk = false ∧ (⟨33, 1⟩ : Params).widthOk = false ∧
    (⟨33, 1⟩ : Params).wellFormed = false := by decide

theorem test_seedmax_refused : (⟨1, 0⟩ : Params).seedMaxOk = false ∧ (⟨1, 65⟩ : Params).seedMaxOk = false ∧
    (⟨1, 65⟩ : Params).wellFormed = false := by decide

/-! ## Decode: every command's word, bit by bit from `30_encoding.md` R91 (ZERO ++ ADEF ++ OPC) -/

theorem test_decode_nop : decode ((0 : BitVec 23) ++ 0b0#1 ++ 0b00000000#8) = .ok .nop := by decide
theorem test_decode_bitlen : decode ((0 : BitVec 23) ++ 0b0#1 ++ 0b00000001#8) = .ok .bitlen := by decide
theorem test_decode_expand : decode ((0 : BitVec 23) ++ 0b0#1 ++ 0b00000010#8) = .ok .expand := by decide
theorem test_decode_cube : decode ((0 : BitVec 23) ++ 0b0#1 ++ 0b00000011#8) = .ok (.cube false) ∧
    decode ((0 : BitVec 23) ++ 0b1#1 ++ 0b00000011#8) = .ok (.cube true) := by decide
theorem test_decode_modinv : decode ((0 : BitVec 23) ++ 0b0#1 ++ 0b00000100#8) = .ok .modinv := by decide
theorem test_decode_modmul : decode ((0 : BitVec 23) ++ 0b0#1 ++ 0b00000101#8) = .ok .modmul := by decide
theorem test_decode_modsqrt : decode ((0 : BitVec 23) ++ 0b0#1 ++ 0b00000110#8) = .ok .modsqrt := by decide
theorem test_decode_disc : decode ((0 : BitVec 23) ++ 0b0#1 ++ 0b00000111#8) = .ok .disc := by decide
theorem test_decode_solve : decode ((0 : BitVec 23) ++ 0b0#1 ++ 0b00001000#8) = .ok (.solve false) ∧
    decode ((0 : BitVec 23) ++ 0b1#1 ++ 0b00001000#8) = .ok (.solve true) := by decide
theorem test_decode_generate : decode ((0 : BitVec 23) ++ 0b0#1 ++ 0b00001001#8) = .ok (.generate false) ∧
    decode ((0 : BitVec 23) ++ 0b1#1 ++ 0b00001001#8) = .ok (.generate true) := by decide
theorem test_decode_clear : decode ((0 : BitVec 23) ++ 0b0#1 ++ 0b00001010#8) = .ok .clear := by decide
theorem test_decode_table_word : decodeTableWord 32 0x109 = some (.generate true) ∧
    decodeTableWord 8 0x03 = some (.cube false) ∧ decodeTableWord 32 0x104 = none := by decide

/-! ## Commands: `95_test_vectors.md` section 3 and programs P2, P4 -/

/-- Section 3.1: 255 and 256. -/
theorem test_bitlen : (done .bitlen (withP 255)).lbits = 8 ∧ (done .bitlen (withP 256)).lbits = 9 ∧
    (done .bitlen (withP 0)).lbits = 0 := by decide

/-- Section 3.2, X12 with W = 544: seed FF FF, LBITS 168, a carry makes m_1 three bytes; digests as printed there. -/
theorem test_expand_carry :
    let s : State := { State.reset with
      seed := (State.reset.seed.set 0 0xFF).set 1 0xFF, seedlen := 2, lbits := 168
      hashTable := [([0xFF, 0xFF], sha1 [0xFF, 0xFF]), ([1, 0, 0], sha1 [1, 0, 0])] }
    (done .expand s).r = 0x7A9508E90548B0440A4A61E5743B76C1E309B23B7F ∧ (done .expand s).hist.length = 4 := by
  decide +kernel

/-- Section 3.2, X5: LBITS = 1 gives R = 0 and still makes the request. -/
theorem test_expand_one_bit : (done .expand { seeded with lbits := 1 }).r = 0 ∧
    (done .expand { seeded with lbits := 1 }).hist = [.req [7], .resp digest07] := by decide

/-- Section 3.3: P = 13, A = 23 (unreduced), and ADEF on P = 31. -/
theorem test_cube : (done (.cube false) { withP 13 with a := 23 }).a3 = 12 ∧
    (done (.cube true) (withP 31)).a3 = 4 := by decide

/-- Section 3.3: ADEF with P = 2. -/
theorem test_cube_adef_refused : statusOf (.cube true) { withP 2 with a3 := 9 } = 0x242 ∧
    (done (.cube true) { withP 2 with a3 := 9 }).a3 = 0 := by decide

/-- Section 3.4: P = 97, R = 35 (the Euclid trace). -/
theorem test_modinv : (done .modinv { withP 97 with r := 35 }).rinv = 61 ∧
    statusOf .modinv { withP 97 with r := 35 } = 0xF02 := by decide

/-- Section 3.4: P = 15, R = 5 share a factor. -/
theorem test_modinv_error : statusOf .modinv { withP 15 with r := 5, rinv := 3 } = 0x612 ∧
    (done .modinv { withP 15 with r := 5, rinv := 3 }).rinv = 0 := by decide

/-- Section 3.5: P = 13, A3 = 25, RINV = 21. -/
theorem test_modmul : (done .modmul { withP 13 with a3 := 25, rinv := 21 }).b2val = 5 ∧
    statusOf .modmul (withP 0) = 0x242 := by decide

/-- Section 3.6: P = 193 (four passes of the loop), P = 7 (closed form), P = 10 (even). -/
theorem test_modsqrt : (done .modsqrt { withP 193 with b2val := 2 }).b1 = 141 ∧
    (done .modsqrt { withP 193 with b2val := 2 }).b2 = 52 ∧ (done .modsqrt { withP 7 with b2val := 9 }).b1 = 4 ∧
    statusOf .modsqrt { withP 10 with b2val := 0 } = 0x842 := by decide

/-- Section 3.6, composite P: 4 is refused modulo 15 though 2² = 4; a non-residue of 13; v = 0 gives B2 = P. -/
theorem test_modsqrt_corners : statusOf .modsqrt { withP 15 with b2val := 4 } = 0x822 ∧
    statusOf .modsqrt { withP 13 with b2val := 2 } = 0x822 ∧
    (done .modsqrt { withP 9 with b2val := 0 }).b2 = 9 := by decide

/-- Program P2: DISC on A3 = 12, B2VAL = 3. Program P4: A3 = 0, B2VAL = 0. -/
theorem test_disc : (done .disc { withP 13 with a3 := 12, b2val := 3 }).discr = 12 ∧
    statusOf .disc { withP 13 with discr := 5 } = 0x932 := by decide

/-- Program P2: SOLVE with r = 4, then r = 5; DISCR is outside the write set. -/
theorem test_solve :
    let t := done (.solve false) { withP 13 with a := 10, r := 4 }
    t.a3 = 12 ∧ t.rinv = 10 ∧ t.b2val = 3 ∧ t.b1 = 9 ∧ t.b2 = 4 := by decide

theorem test_solve_error :
    let t := done (.solve false) { withP 13 with a := 10, r := 5, discr := 12 }
    t.status.word = 0x822 ∧ t.a3 = 0 ∧ t.rinv = 0 ∧ t.b2val = 0 ∧ t.discr = 12 := by decide

/-- P = 13, seed 07: L = 4, the mask 07 on B4 gives r = 4, then the values of program P2. -/
theorem test_generate :
    let t := done (.generate true) { seeded with r := 0, a := 0 }
    t.status.word = 0xF02 ∧ t.lbits = 4 ∧ t.r = 4 ∧ t.a3 = 12 ∧ t.b1 = 9 ∧ t.b2 = 4 ∧ t.discr = 12 := by
  decide

/-- Program P4: an even P with an r that has no inverse, and with SEEDLEN = 0. -/
theorem test_generate_error : statusOf (.generate false) { seeded with p := 10, a := 3 } = 0x612 ∧
    statusOf (.generate false) { seeded with seedlen := 0 } = 0x242 := by decide

/-- Program P4: NOP completes with 0xF02; WRBUSY survives. -/
theorem test_nop : statusOf .nop small = 0xF02 ∧ statusOf .nop small.dropWrite = 0xF06 := by decide

/-- Program P4: CLEAR leaves CTRL. -/
theorem test_clear : (done .clear { seeded with ctrl := ⟨true⟩ }).p = 0 ∧
    (done .clear { seeded with ctrl := ⟨true⟩ }).seed = [0, 0, 0, 0] ∧
    (done .clear { seeded with ctrl := ⟨true⟩ }).irq = true := by decide

/-! ## Primitive, port, words -/

/-- The premise's function on "abc" (`95_test_vectors.md` section 3.2). -/
theorem test_sha1_abc : be2int (sha1 [0x61, 0x62, 0x63]).toList = 0xA9993E364706816ABA3E25717850C26C9CD0D89D := by
  decide +kernel

/-- Program P1: ID, CFG, and the seed bytes 30 45 AE 6F in one word. -/
theorem test_port_words : State.reset.wordAt 0 = 0x48464347 ∧ State.reset.wordAt 4 = 0x00001011 ∧
    withSeedWord [0, 0, 0, 0] 0 0x6FAE4530 = [0x30, 0x45, 0xAE, 0x6F] ∧
    withWord 0 1 0xFFFFFFFE = 0xFFFFFFFE00000000 := by decide

/-- Program P4: writes to P and CMD while busy are dropped and set WRBUSY: STATUS 5; an ACK of both bits. -/
theorem test_port_busy : ((small.accept 0).access (.write 0x080 4 13)).status.word = 5 ∧
    ((small.accept 0).access (.write 0x010 4 1)).cmd = 0 ∧
    ((done .nop small.dropWrite).access (.write 0x00C 4 6)).status.word = 0xF00 := by decide

/-- Program P4: three illegal words, each one step. -/
theorem test_illegal : (after (small.withFetchWord 32 0x00B)).status.word = 0x152 ∧
    (after (small.withFetchWord 32 0x104)).status.word = 0x152 ∧
    (after (small.withFetchWord 32 0x209)).status.word = 0x152 := by decide

/-! ## Witnesses: the hypotheses of every statement are met by a concrete state, clause by clause

Named after the statement; `_at_…` names a boundary of a clause. -/

theorem small_inv : small.Inv := inv_of_check (by decide)

theorem seeded_inv : seeded.Inv := inv_of_check (by decide)

/-- A running command: the word `i` accepted. -/
def busy (i : Instr) : State := seeded.accept (encode i)

theorem busy_inv : (busy (.generate true)).Inv := inv_of_check (by decide)

theorem wit_IllegalWords :
    (∃ e, decode 0x0000000B = .error e) ∧ decode 0x00000109 = .ok (.generate true) ∧
    ((small.accept 0x0000000B).status.busy = true ∧ decode (small.accept 0x0000000B).cmd = .error .opcode ∧
      ({ small.accept 0x0000000B with turns := [.run] } : State).turns = .run :: [] ∧
      ({ small.accept 0x0000000B with turns := [.work] } : State).turns = .work :: []) := by
  refine ⟨⟨.opcode, ?_⟩, ?_⟩ <;> decide

theorem wit_MinimalBigEndianEncoding : 1 ≤ 1 ∧ int2beMin 1 = [1] ∧ int2beMin 255 = [255] ∧ int2beMin 256 = [1, 0] ∧
    be2int [0, 1] = 1 := by decide

theorem wit_HashPortValues : (requestBeats [1, 2])[0]? = some ⟨1, true, false⟩ ∧
    (requestBeats [1, 2])[1]? = some ⟨2, false, true⟩ ∧ (requestBeats [1])[0]? = some ⟨1, true, true⟩ ∧
    (digestWord digest07).extractLsb' 152 8 = 0x5d ∧ (digestWord digest07).extractLsb' 0 8 = 0xb4 := by
  decide

theorem wit_BitlenCommand : small.Inv ∧ small.p = 0 ∧ seeded.Inv ∧ 1 ≤ seeded.p ∧
    ({ small with p := 2 ^ 32 - 1 } : State).Inv :=
  ⟨small_inv, rfl, seeded_inv, by decide, inv_of_check (by decide)⟩

/-- LBITS 1, 160, 161 and 521: both ends of a block, and the mask that clears a whole byte. -/
theorem wit_FirstBlockIsDigestModulo : 1 ≤ 1 ∧ hBits 1 = 1 ∧ hBits 160 = 160 ∧ hBits 161 = 1 ∧ maskCount 521 = 8 ∧
    (firstBlock 161 digest07).length = 1 := by decide

theorem wit_ExpansionIsWeightedSum : 1 ≤ 321 ∧ sCount 321 = 2 ∧ sCount 320 = 1 := by decide

theorem wit_ExpansionBound : 1 ≤ 544 ∧ 544 ≤ 544 ∧ 1 ≤ seeded.p ∧ bitlen seeded.p = 4 := by decide

theorem wit_ExpandCommand_error : ({ seeded with seedlen := 0 } : State).seedlen.toNat < 1 ∧
    seeded.cfg.seedMax < ({ seeded with seedlen := 5 } : State).seedlen.toNat ∧
    ({ seeded with lbits := 0 } : State).lbits.toNat < 1 ∧
    seeded.cfg.width < ({ seeded with lbits := 33 } : State).lbits.toNat ∧
    statusOf .expand { seeded with lbits := 33 } = 0x242 := by decide

theorem wit_ExpandCommand : 1 ≤ seeded.seedlen.toNat ∧ seeded.seedlen.toNat ≤ seeded.cfg.seedMax ∧
    1 ≤ seeded.lbits.toNat ∧ seeded.lbits.toNat ≤ seeded.cfg.width ∧
    ({ seeded with seedlen := 4, lbits := 32 } : State).seedlen.toNat ≤ seeded.cfg.seedMax ∧
    ({ seeded with seedlen := 4, lbits := 32 } : State).lbits.toNat ≤ seeded.cfg.width := by decide

/-- Past CHECK in both commands, with the first and only request; an EXPAND that fails at CHECK, and a DISC. -/
theorem wit_HashRequestCount : seeded.Inv ∧
    (exec .expand seeded = .next (done .expand seeded) ∧ (done .expand seeded).status.stage ≠ .check ∧
      (seeded.lbits.toNat + 159) / 160 = 1) ∧
    (exec (.generate true) seeded = .next (done (.generate true) seeded) ∧
      (done (.generate true) seeded).status.stage ≠ .check ∧ 2 ^ (4 - 1) ≤ seeded.p ∧ seeded.p < 2 ^ 4) ∧
    (done .expand seeded).hist = [.req [7], .resp digest07] ∧
    (small.Inv ∧ exec .expand small = .next (done .expand small) ∧ (done .expand small).status.stage = .check) ∧
    (exec .disc seeded = .next (done .disc seeded) ∧ Instr.disc ≠ .expand) :=
  ⟨seeded_inv, ⟨exec_done _ _, by decide⟩, ⟨exec_done _ _, by decide⟩, by decide,
    ⟨small_inv, exec_done _ _, by decide⟩, exec_done _ _, by decide⟩

theorem wit_CubeCommand : (withP 1).p < 2 ∧ ((true = true) ∧ (withP 2).p < 3) ∧ 2 ≤ (withP 2).p ∧ 3 ≤ (withP 3).p ∧
    27 < (withP 28).p ∧ ((withP 28).p - 3) ^ 3 % (withP 28).p = 1 := by decide

theorem wit_ModinvCommand : (withP 1).p < 2 ∧ (2 ≤ (withP 2).p ∧ Nat.gcd ((withP 2).r % (withP 2).p) (withP 2).p ≠ 1) ∧
    (2 ≤ seeded.p ∧ Nat.gcd (seeded.r % seeded.p) seeded.p = 1) := by decide

theorem wit_ModmulCommand : (withP 1).p < 2 ∧ 2 ≤ (withP 2).p := by decide

theorem wit_ModsqrtOnPrimes : seeded.p.Prime ∧ (∃ y, y * y % seeded.p = seeded.b2val % seeded.p) ∧
    ({ seeded with r := 1 } : State).p = seeded.p ∧
    ({ seeded with b2val := 16 } : State).b2val % seeded.p = seeded.b2val % seeded.p :=
  ⟨by norm_num [seeded, withP], ⟨4, by decide⟩, rfl, by decide⟩

/-- 2 has no square root modulo 3. -/
theorem wit_ModsqrtOnPrimes_nonresidue : (withP 3).p.Prime ∧
    ¬ ∃ y, y * y % (withP 3).p = ({ withP 3 with b2val := 2 } : State).b2val % (withP 3).p := by
  refine ⟨by norm_num [withP], ?_⟩
  rintro ⟨y, hy⟩
  have hy' : y * y % 3 = 2 := hy
  have h3 : y % 3 = 0 ∨ y % 3 = 1 ∨ y % 3 = 2 := by omega
  rcases h3 with h | h | h <;> rw [Nat.mul_mod, h] at hy' <;> omega

theorem wit_ModsqrtClosedForm :
    let s : State := { withP 7 with b2val := 9 }
    s.p.Prime ∧ s.p % 4 = 3 ∧ s.b2val % s.p ≠ 0 ∧ ∃ y, y * y % s.p = s.b2val % s.p :=
  ⟨by norm_num [withP], by decide, by decide, 3, by decide⟩

theorem wit_ModsqrtOddModulus : 2 ≤ (withP 15).p ∧ (withP 15).p % 2 = 1 ∧
    statusOf .modsqrt { withP 15 with b2val := 1 } = 0xF02 ∧ statusOf .modsqrt { withP 15 with b2val := 4 } = 0x822 := by
  decide

theorem wit_ModsqrtCorners : (withP 1).p < 2 ∧ (2 < (withP 4).p ∧ (withP 4).p % 2 = 0) ∧ (withP 2).p = 2 ∧
    (2 < (withP 3).p ∧ (withP 3).p % 2 = 1 ∧ ({ withP 3 with b2val := 3 } : State).b2val % (withP 3).p = 0) := by
  decide

theorem wit_SolveCommand : ((withP 1).p < 2 ∧ true = true ∧ (withP 2).p < 3) ∧
    (2 ≤ (withP 3).p ∧ 3 ≤ (withP 3).p ∧ Nat.gcd ((withP 3).r % (withP 3).p) (withP 3).p ≠ 1) ∧
    (2 ≤ seeded.p ∧ 3 ≤ seeded.p ∧ Nat.gcd (seeded.r % seeded.p) seeded.p = 1 ∧
      modSqrt seeded.p ((seeded.p - 3) ^ 3 % seeded.p * 10 % seeded.p) = .ok 9) := by decide

/-- The two kinds that SOLVE raises at SQRT: r = 5 modulo 13, and r = 3 modulo the even 10. -/
theorem wit_SolveCommand_sqrt : modSqrt 13 (10 ^ 3 % 13 * 8 % 13) = .error .noSquareRoot ∧ 5 * 8 % 13 = 1 ∧
    modSqrt 10 (1 ^ 3 % 10 * 7 % 10) = .error .badOperand ∧ 3 * 7 % 10 = 1 := by decide

theorem wit_SolveSucceedsOnPrimes : seeded.p.Prime ∧ 3 ≤ seeded.p ∧ seeded.r % seeded.p ≠ 0 ∧
    (∃ y, seeded.r * (y * y) % seeded.p = (seeded.p - 3) ^ 3 % seeded.p) ∧
    ∃ y, seeded.r * (y * y) % seeded.p = seeded.a ^ 3 % seeded.p :=
  ⟨by norm_num [seeded, withP], by decide, by decide, ⟨9, by decide⟩, 9, by decide⟩

/-- Both sides of the agreement: success, an error at INV, an error at SQRT. -/
theorem wit_SolveAgreesWithUnitCommands : statusOf (.solve true) seeded = 0xF02 ∧
    statusOf (.solve true) { seeded with r := 0 } = 0x612 ∧ statusOf (.solve true) { seeded with r := 5 } = 0x822 := by
  decide

theorem wit_SolutionSatisfiesCurveRelation :
    (exec (.solve true) seeded = .next (done (.solve true) seeded) ∧ (done (.solve true) seeded).status.err = .none) ∧
    (exec (.generate true) seeded = .next (done (.generate true) seeded) ∧
      (done (.generate true) seeded).status.err = .none) :=
  ⟨⟨exec_done _ _, by decide⟩, exec_done _ _, by decide⟩

theorem wit_DiscCommand : (withP 1).p < 2 ∧ (2 ≤ (withP 2).p ∧ (4 * (withP 2).a3 + 27 * (withP 2).b2val) % (withP 2).p = 0) ∧
    (2 ≤ seeded.p ∧ (4 * seeded.a3 + 27 * seeded.b2val) % seeded.p ≠ 0) := by decide

/-- The primitive answers 07, so R = 4: not singular with a = p − 3; singular with A = 0. -/
theorem wit_SingularCurveExactlyWhen :
    let s : State := { seeded with a := 0 }
    s.Inv ∧ s.p.Prime ∧ exec (.generate false) s = .next (done (.generate false) s) ∧
    exec (.generate true) s = .next (done (.generate true) s) ∧
    (done (.generate false) s).status.stage ≠ .check ∧ expand s.hashOf s.seedBytes (bitlen s.p) ≠ 0 ∧
    (done (.generate false) s).status.err = .singularCurve ∧ (done (.generate true) s).status.err = .none ∧
    s.p ∣ s.a :=
  ⟨inv_of_check (by decide), by norm_num [seeded, withP], exec_done _ _, exec_done _ _, by decide,
    by decide, by decide, by decide, by decide⟩

theorem wit_GenerateCommand : seeded.Inv ∧ (withP 1).p < 2 ∧ (withP 2).p < 3 ∧ small.seedlen.toNat < 1 ∧
    seeded.cfg.seedMax < ({ seeded with seedlen := 5 } : State).seedlen.toNat ∧
    (2 ≤ seeded.p ∧ 3 ≤ seeded.p ∧ 1 ≤ seeded.seedlen.toNat ∧ seeded.seedlen.toNat ≤ seeded.cfg.seedMax ∧
      Nat.gcd (expand seeded.hashOf seeded.seedBytes (bitlen seeded.p)) seeded.p = 1 ∧
      modSqrt seeded.p (12 * 10 % seeded.p) = .ok 9 ∧ (4 * 12 + 27 * (12 * 10 % seeded.p)) % seeded.p ≠ 0) :=
  ⟨seeded_inv, by decide, by decide, by decide, by decide, by decide⟩

/-- Its other clauses: R = 4 shares a factor with P = 10; a = 2 gives a non-residue modulo 13; a = 0 a singular
curve. -/
theorem wit_GenerateCommand_errors :
    Nat.gcd (expand seeded.hashOf seeded.seedBytes (bitlen 10)) 10 ≠ 1 ∧
    statusOf (.generate false) { seeded with a := 2 } = 0x822 ∧
    statusOf (.generate false) { seeded with a := 0 } = 0x932 := by decide

theorem wit_GenerateSucceedsOnPrimes : seeded.Inv ∧ seeded.p.Prime ∧ 3 ≤ seeded.p ∧ 1 ≤ seeded.seedlen.toNat ∧
    seeded.seedlen.toNat ≤ seeded.cfg.seedMax ∧
    expand seeded.hashOf seeded.seedBytes (bitlen seeded.p) ≠ 0 ∧
    (∃ y, expand seeded.hashOf seeded.seedBytes (bitlen seeded.p) * (y * y) % seeded.p
      = (seeded.p - 3) ^ 3 % seeded.p) ∧
    ¬ seeded.p ∣ seeded.p - 3 ∧ ¬ seeded.p ∣ 4 * expand seeded.hashOf seeded.seedBytes (bitlen seeded.p) + 27 :=
  ⟨seeded_inv, by norm_num [seeded, withP], by decide, by decide, by decide, by decide,
    ⟨9, by decide⟩, by decide, by decide⟩

/-- Success, an error at DISC and an error at CHECK, from states of the invariant. -/
theorem wit_GenerateAgreesWithUnitCommands : seeded.Inv ∧ ({ seeded with a := 0 } : State).Inv ∧ small.Inv ∧
    statusOf (.generate false) seeded = 0xF02 ∧ statusOf (.generate false) { seeded with a := 0 } = 0x932 ∧
    statusOf (.generate false) small = 0x242 :=
  ⟨seeded_inv, inv_of_check (by decide), small_inv, by decide, by decide, by decide⟩

theorem wit_GenerateResultFacts : seeded.Inv ∧ seeded.p.Prime ∧
    exec (.generate true) seeded = .next (done (.generate true) seeded) ∧
    (done (.generate true) seeded).status.err = .none :=
  ⟨seeded_inv, by norm_num [seeded, withP], exec_done _ _, by decide⟩

/-- Two states that differ outside the read set of MODINV. -/
theorem wit_ReadSetDeterminesOutcome :
    let t : State := { seeded with a := 1, b1 := 7, lbits := 0, cmd := 4, ctrl := ⟨true⟩ }
    seeded.cfg = t.cfg ∧ (∀ m, seeded.hashOf m = t.hashOf m) ∧
    (∀ x ∈ readSet .modinv, SameInput seeded t x) ∧ exec .modinv seeded = .next (done .modinv seeded) ∧
    exec .modinv t = .next (done .modinv t) :=
  ⟨rfl, fun _ => rfl, by simp [readSet, SameInput, State.big], exec_done _ _, exec_done _ _⟩

theorem wit_ClearCommand : Instr.nop ≠ .clear ∧ DataReg.seed ∈ [DataReg.big .p, .big .a, .seed, .seedlen] ∧
    runOne .clear seeded = .next (done .clear (seeded.accept (encode .clear))) := ⟨by decide, by decide, exec_done _ _⟩

theorem wit_CommandsWriteOnlyTheirWriteSet : exec .modmul seeded = .next (done .modmul seeded) ∧
    DataReg.big .p ∉ writeSet .modmul := ⟨exec_done _ _, by decide⟩

theorem wit_ErrorZeroesTheWriteSet : exec (.solve false) small = .next (done (.solve false) small) ∧
    (done (.solve false) small).status.err ≠ .none ∧ DataReg.big .b2 ∈ writeSet (.solve false) ∧
    DataReg.big .p ∉ writeSet (.solve false) := ⟨exec_done _ _, by decide, by decide, by decide⟩

/-- Every kind that a command can end with. -/
theorem wit_EveryCommandCompletes : (done .modinv (withP 13)).status.err = .noInverse ∧
    (done .modsqrt { withP 13 with b2val := 2 }).status.err = .noSquareRoot ∧
    (done .disc (withP 13)).status.err = .singularCurve ∧ (done .disc small).status.err = .badOperand ∧
    (done .nop small).status.err = .none := by decide

theorem wit_BadOperandCauses : exec .modsqrt (withP 4) = .next (done .modsqrt (withP 4)) ∧ (withP 4).p % 2 = 0 ∧
    2 < (withP 4).p ∧ (done .modsqrt (withP 4)).status.stage = .sqrt ∧
    (done .modsqrt (withP 1)).status.stage = .check :=
  ⟨exec_done _ _, by decide, by decide, by decide, by decide⟩

/-- Width 2, a misaligned offset, and 0x800, the first offset past the space; each alone. -/
theorem wit_BusErrorChangesNothing : (2 ≠ 4 ∧ validAccess 0x010 2 = false) ∧ (0x012 % 4 ≠ 0 ∧ validAccess 0x012 4 = false) ∧
    (0x7FF < 0x800 ∧ validAccess 0x800 4 = false) ∧ validAccess 0x7FC 4 = true := by decide

theorem wit_ReadsHaveNoSideEffect :
    ({ small with turns := [.access (.read 0x00C 4)] } : State).turns = .access (.read 0x00C 4) :: [] ∧
    small.status.busy = false := by decide

theorem wit_IdleReadsOfData : small.Inv ∧ small.status.busy = false ∧ 0 < small.cfg.wWords ∧ 0 < small.cfg.seedWords :=
  ⟨small_inv, rfl, by decide, by decide⟩

/-- An idle, a busy and a failed block; STATUS of the last is BAD_OPERAND at CHECK. -/
theorem wit_ControlReadsAreDefined : small.Inv ∧ (busy .nop).Inv ∧ (done .disc small).Inv ∧
    (done .disc small).status.word.toNat = 2 * 1 + 16 * 4 + 256 * 2 :=
  ⟨small_inv, inv_of_check (by decide), inv_of_check (by decide), by decide⟩

theorem wit_WriteOfOneWord : small.Inv ∧ small.status.busy = false ∧ BigReg.b2val ∉ [BigReg.b1, BigReg.b2, BigReg.discr] ∧
    0 < small.cfg.wWords ∧ (small.access (.write 0x008 4 0xFFFFFFFF)).ctrl = ⟨true⟩ :=
  ⟨small_inv, rfl, by decide, by decide, by decide⟩

theorem wit_WriteOfSeedWord : small.Inv ∧ small.status.busy = false ∧ 0 < small.cfg.seedWords :=
  ⟨small_inv, rfl, by decide⟩

/-- A running block, with an address of each kind: the last dropped word of R71's table, the last word of a read-only
slot. -/
theorem wit_WritesWhileBusy : (busy (.generate true)).Inv ∧ (busy (.generate true)).status.busy = true ∧
    (0 < (busy (.generate true)).cfg.seedWords ∧ 0x500 = 0x500 + 4 * 0) ∧
    (BigReg.b2val ∈ [BigReg.p, .a, .r, .a3, .rinv, .b2val] ∧ 0x300 = BigReg.base .b2val + 4 * 0) ∧
    BigReg.discr ∈ [BigReg.b1, .b2, .discr] := ⟨busy_inv, by decide, by decide, by decide, by decide⟩

/-- One offset of each kind of hole, at its ends: 0x01C, 0x07C, 0x600, 0x7FC, past SEED[3], past word 0 of P; and word 0
of B1 on an idle block. -/
theorem wit_HolesReadZeroIgnoreWrites : small.Inv ∧ small.status.busy = false ∧
    (target small.cfg 0x01C = .hole ∧ target small.cfg 0x07C = .hole ∧ target small.cfg 0x600 = .hole ∧
      target small.cfg 0x7FC = .hole ∧ target small.cfg 0x504 = .hole ∧ target small.cfg 0x084 = .hole) ∧
    0x500 + small.cfg.seedMax ≤ 0x504 ∧ BigReg.base .p + 4 * small.cfg.wWords ≤ 0x084 ∧
    0x084 < BigReg.base .p + 0x80 ∧ (BigReg.b1 ∈ [BigReg.b1, .b2, .discr] ∧
      (small.access (.write 0x380 4 5)).b1 = 0) :=
  ⟨small_inv, rfl, by decide, by decide, by decide, by decide, by decide, by decide⟩

theorem wit_CommandAcceptance : small.status.busy = false ∧ (busy .nop).status.busy = true := by decide

theorem wit_StatusWriteOneToClear : small.status.busy = false ∧ (done .nop small).status.done = true ∧
    ((done .nop small).access (.write 0x00C 4 0x2)).status.word = 0xF00 := by decide

theorem wit_InterruptOutput : (0x2 : Word).getLsbD 1 = true ∧ exec .nop small = .next (done .nop small) ∧
    (done .nop { small with ctrl := ⟨true⟩ }).irq = true := ⟨by decide, exec_done _ _, by decide⟩

theorem wit_LoadBigInteger : small.Inv ∧ small.status.busy = false ∧
    BigReg.p ∉ [BigReg.b1, BigReg.b2, BigReg.discr] ∧ 2 ^ 32 - 1 < 2 ^ small.cfg.width :=
  ⟨small_inv, rfl, by decide, by decide⟩

/-- Seeds of 1 byte and of SEEDMAX bytes. -/
theorem wit_LoadSeed : small.Inv ∧ small.status.busy = false ∧ (1 ≤ ([7] : Bytes).length ∧
    ([7] : Bytes).length ≤ small.cfg.seedMax) ∧ ([1, 2, 3, 4] : Bytes).length ≤ small.cfg.seedMax :=
  ⟨small_inv, rfl, by decide, by decide⟩

theorem wit_ResetValues : Params.default.wellFormed = true ∧ (⟨1, 1⟩ : Params).wellFormed = true ∧
    (⟨32, 64⟩ : Params).wellFormed = true := by decide

theorem wit_ResetStopsACommand :
    ({ busy (.generate true) with turns := [.rst] } : State).turns = .rst :: [] ∧
    (busy (.generate true)).status.busy = true := by decide

theorem wit_IdleBlockStaysIdle : small.status.busy = false ∧
    ∀ t ∈ [Turn.run, Turn.work], t = .run ∨ t = .work := by decide

theorem wit_StepRunsDecodedCommand : (busy .disc).status.busy = true ∧ decode (busy .disc).cmd = .ok .disc ∧
    (busy .disc).turns = [] ∧ ({ busy .disc with turns := [.run] } : State).turns = .run :: [] ∧
    decodeTableWord 32 0x103 = some (.cube true) := by decide

/-- A step of each kind from states of the invariant: a request issued, an answer taken, a completion. -/
theorem wit_StepKeepsInvariant : (busy (.generate true)).Inv ∧ small.Inv ∧
    step (busy (.generate true)) = .next (done (.generate true) (busy (.generate true))) :=
  ⟨busy_inv, small_inv, rfl⟩

/-- GENERATE waiting in stage EXPAND for the answer to its only request. -/
def waiting : State :=
  { busy (.generate true) with stage := .expand, hreq := some [7], hist := [.req [7]], turns := [.answer] }

theorem wit_StepKeepsPortProtocol : waiting.Inv ∧ waiting.PortInv ∧ step waiting = .next (after waiting) ∧
    (after waiting).hreq = none ∧ (after waiting).hist = [.req [7], .resp digest07] :=
  ⟨inv_of_check (by decide),
    portInv_of_check (i := .generate true) (by decide)
      ⟨⟨[.resp digest07], by decide⟩, by decide⟩,
    rfl, by decide, by decide⟩

theorem wit_RunsAreSafe : State.reset.Inv := inv_of_check (by decide +kernel)

theorem wit_BusyFreezesRegisters : waiting.status.busy = true ∧ step waiting = .next (after waiting) ∧
    (after waiting).status.busy = true := ⟨by decide, rfl, by decide⟩

theorem wit_StagewiseRunEqualsAtomicRun : (busy (.solve true)).JustAccepted ∧
    decode (busy (.solve true)).cmd = .ok (.solve true) ∧
    exec (.solve true) (busy (.solve true)) = .next (done (.solve true) (busy (.solve true))) ∧
    ∀ t ∈ [Turn.work, Turn.answer], t = .work ∨ t = .answer :=
  ⟨⟨rfl, rfl, rfl, rfl⟩, by decide, exec_done _ _, by decide⟩

/-- Sixteen rounds with host accesses before, between and after the turns of the block and of the primitive. -/
theorem wit_FairRunsComplete :
    let g : List Turn := [.access (.write 0x010 4 1), .work, .access (.read 0x00C 4), .answer, .work]
    (busy (.generate true)).Inv ∧ (busy (.generate true)).JustAccepted ∧ (List.replicate 16 g).length = 16 ∧
    (∀ h ∈ List.replicate 16 g, FairRound h) ∧ decode (busy (.generate true)).cmd = .ok (.generate true) ∧
    exec (.generate true) (busy (.generate true)) = .next (done (.generate true) (busy (.generate true))) := by
  refine ⟨busy_inv, ⟨rfl, rfl, rfl, rfl⟩, by simp, ?_, by decide, exec_done _ _⟩
  intro h hh
  obtain rfl := List.eq_of_mem_replicate hh
  exact ⟨by decide, [.access (.write 0x010 4 1)], [.access (.read 0x00C 4)], [.work], rfl⟩

theorem wit_UnansweredRequestHangs :
    let s : State := { waiting with turns := [.work, .access (.write 0x010 4 0)] }
    s.status.busy = true ∧ decode s.cmd = .ok (.generate true) ∧ s.stage = .expand ∧ s.hreq = some [7] ∧
    ∀ t ∈ s.turns, t = .work ∨ ∃ q, t = .access q := by
  refine ⟨rfl, by decide, rfl, rfl, ?_⟩
  intro t ht
  simp only [List.mem_cons, List.not_mem_nil, or_false] at ht
  rcases ht with rfl | rfl
  · exact Or.inl rfl
  · exact Or.inr ⟨_, rfl⟩

end Sys2Proof.Tests
end

section
/-! Proofs: the values after reset, and the offsets of the register port that hold no register or a read-only one
(`10_state.md` R39, R47). -/

namespace Sys2Proof.Machine

/-! The words of the control registers (`10_state.md` R34 to R38). -/

@[simp] theorem wordAt_id (s : State) : s.wordAt 0x000 = idWord := rfl
@[simp] theorem wordAt_cfg (s : State) : s.wordAt 0x004 = cfgWord s.cfg := rfl
@[simp] theorem wordAt_ctrl (s : State) : s.wordAt 0x008 = s.ctrl.word := rfl
@[simp] theorem wordAt_status (s : State) : s.wordAt 0x00C = s.status.word := rfl
@[simp] theorem wordAt_cmd (s : State) : s.wordAt 0x010 = s.cmd := rfl

@[simp] theorem resetOf_big (c : Params) (x : BigReg) : (State.resetOf c).big x = 0 := by
  cases x <;> rfl

/-- The bounds of `00_scope.md` R6 and R7 on the parameters of a block that can be built. -/
theorem params_wellFormed_iff (c : Params) :
    c.wellFormed = true ↔ (1 ≤ c.wWords ∧ c.wWords ≤ 32) ∧ (1 ≤ c.seedWords ∧ c.seedWords ≤ 64) := by
  simp [Params.wellFormed, Params.widthOk, Params.seedMaxOk]

/-- Both fields of CFG hold their parameter whole: each legal parameter fits its eight bits (`10_state.md` R35). -/
theorem cfgWord_toNat {c : Params} (h : c.wellFormed = true) :
    (cfgWord c).toNat = c.width / 32 + 2 ^ 8 * (c.seedMax / 4) := by
  obtain ⟨⟨-, hw⟩, -, hs⟩ := (params_wellFormed_iff c).mp h
  have width : c.width / 32 = c.wWords := Nat.mul_div_cancel_left _ (by decide)
  have seedMax : c.seedMax / 4 = c.seedWords := Nat.mul_div_cancel_left _ (by decide)
  have wFits : c.wWords % 2 ^ 8 = c.wWords := Nat.mod_eq_of_lt (by omega)
  have sFits : c.seedWords % 2 ^ 8 = c.seedWords := Nat.mod_eq_of_lt (by omega)
  have fields : (cfgWord c).toNat = c.seedWords <<< 8 ||| c.wWords := by
    simp only [cfgWord, BitVec.toNat_append, BitVec.ofNat_eq_ofNat, BitVec.toNat_ofNat, wFits, sFits, Nat.zero_mod,
      Nat.zero_shiftLeft, Nat.zero_or]
  rw [width, seedMax, fields, ← Nat.shiftLeft_add_eq_or_of_lt (by omega), Nat.shiftLeft_eq]
  omega

/-- Settles O49, field by field of the reset state; only CFG depends on the parameters. -/
theorem resetValues : Obligations.ResetValues := by
  unfold Obligations.ResetValues
  refine ⟨rfl, fun c hc => ?_⟩
  have seedSize : (State.resetOf c).seed.length = c.seedMax := List.length_replicate
  have seedZero : ∀ b ∈ (State.resetOf c).seed, b = 0 := fun _ => List.eq_of_mem_replicate
  have cfg : ((State.resetOf c).wordAt 0x004).toNat = c.width / 32 + 2 ^ 8 * (c.seedMax / 4) := by
    rw [wordAt_cfg]
    exact cfgWord_toNat hc
  have ctrl : (State.resetOf c).wordAt 0x008 = 0 := (wordAt_ctrl _).trans (by decide : Ctrl.word ⟨false⟩ = 0)
  have status : (State.resetOf c).wordAt 0x00C = 0 :=
    (wordAt_status _).trans (by decide : Status.word ⟨false, false, false, .none, .none⟩ = 0)
  exact ⟨resetOf_big c, rfl, rfl, seedSize, seedZero, rfl, cfg, ctrl, status, rfl, rfl, rfl, rfl, rfl⟩

/-! Offsets that ignore writes (`10_state.md` R39, `20_memory.md` R70, R71). -/

/-- A write to a hole or to a read-only register changes nothing, whether or not a command runs. -/
theorem memWrite_ignored {s : State} {addr : Nat} (v : Word)
    (h : target s.cfg addr = .hole ∨ target s.cfg addr = .id ∨ target s.cfg addr = .cfg ∨
      ∃ x j, x.hostWritable = false ∧ target s.cfg addr = .bigWord x j) :
    s.memWrite addr v = s := by
  unfold State.memWrite
  rcases h with h | h | h | ⟨x, j, hx, h⟩
  · rw [h]
  · rw [h]
  · rw [h]
  · simp [h, hx]

/-- The slots fill 0x080 to 0x4FF, 0x80 bytes each (`20_memory.md` R71). -/
theorem base_bounds (x : BigReg) : 0x080 ≤ x.base ∧ x.base + 0x80 ≤ 0x500 ∧ x.base % 0x80 = 0 := by
  cases x <;> decide

/-- The offsets past W/32 words in a slot are holes. -/
theorem target_slotRest (c : Params) (x : BigReg) {addr : Nat} (aligned : addr % 4 = 0)
    (lo : x.base + 4 * c.wWords ≤ addr) (hi : addr < x.base + 0x80) : target c addr = .hole := by
  obtain ⟨-, -, slotStart⟩ := base_bounds x
  obtain ⟨j, rfl⟩ : ∃ j, addr = x.base + 4 * j := ⟨(addr - x.base) / 4, by omega⟩
  rw [target_big c x (by omega), if_neg (by omega)]

/-- The offsets past SEEDMAX bytes in the seed region are holes. -/
theorem target_seedRest (c : Params) {addr : Nat} (aligned : addr % 4 = 0) (lo : 0x500 + c.seedMax ≤ addr)
    (hi : addr ≤ 0x5FF) : target c addr = .hole := by
  obtain ⟨j, rfl⟩ : ∃ j, addr = 0x500 + 4 * j := ⟨(addr - 0x500) / 4, by omega⟩
  rw [Params.seedMax] at lo
  rw [target_seed c (by omega), if_neg (by omega)]

/-- A word of the slot of B1, B2 or DISCR is a read-only register word or, past W/32 words, a hole. -/
theorem target_readOnlySlot (c : Params) {x : BigReg} (hx : x.hostWritable = false) {j : Nat} (hj : j < 32) :
    target c (x.base + 4 * j) = .hole ∨
      ∃ y i, y.hostWritable = false ∧ target c (x.base + 4 * j) = .bigWord y i := by
  rw [target_big c x hj]
  split
  · exact Or.inr ⟨x, j, hx, rfl⟩
  · exact Or.inl rfl

/-- A read of a hole answers 0 unless a command runs and the hole lies in a data region. -/
theorem access_read_hole {s : State} {addr : Nat} (valid : validAccess addr 4 = true)
    (hole : target s.cfg addr = .hole) (h : s.status.busy = false ∨ inDataRegion addr = false) :
    s.access (.read addr 4) = { s with reply := .data 0 } := by
  have word : s.wordAt addr = 0 := by rw [State.wordAt, hole]
  have fixed : (s.status.busy && inDataRegion addr) = false := Bool.and_eq_false_iff.mpr h
  rw [access_read s valid, fixed, word]
  rfl

/-- Settles O43: each range is a hole of the address map, so the write is ignored and the read answers 0 wherever a
running command leaves it defined; ID, CFG and the slots of B1, B2, DISCR are read-only. -/
theorem holesReadZeroIgnoreWrites : Obligations.HolesReadZeroIgnoreWrites := by
  unfold Obligations.HolesReadZeroIgnoreWrites
  refine fun s v _ => ⟨fun addr aligned range => ?_, fun addr control => ?_, fun x hx j hj => ?_⟩
  · obtain ⟨hole, lo, hi⟩ : target s.cfg addr = .hole ∧ 0x01C ≤ addr ∧ addr ≤ 0x7FF := by
      rcases range with low | high | ⟨lo, hi⟩ | ⟨x, lo, hi⟩
      · exact ⟨target_hole s.cfg (Or.inl low), by omega, by omega⟩
      · exact ⟨target_hole s.cfg (Or.inr high), by omega, by omega⟩
      · exact ⟨target_seedRest s.cfg aligned lo hi, by omega, by omega⟩
      · obtain ⟨_, _, _⟩ := base_bounds x
        exact ⟨target_slotRest s.cfg x aligned lo hi, by omega, by omega⟩
    have valid : validAccess addr 4 = true := (validAccess_iff addr 4).mpr ⟨rfl, aligned, hi⟩
    refine ⟨?_, fun idle => access_read_hole valid hole (Or.inl idle), fun outside => ?_⟩
    · rw [access_write s valid, memWrite_ignored v (Or.inl hole)]
    · have notData : inDataRegion addr = false := by
        simp only [inDataRegion, Bool.or_eq_false_iff, Bool.and_eq_false_iff, decide_eq_false_iff_not]
        omega
      exact access_read_hole valid hole (Or.inr notData)
  · rcases control with rfl | rfl
    · rw [access_write s rfl, memWrite_ignored v (Or.inr (Or.inl rfl))]
    · rw [access_write s rfl, memWrite_ignored v (Or.inr (Or.inr (Or.inl rfl)))]
  · have readOnly : x.hostWritable = false := by
      simp only [List.mem_cons, List.not_mem_nil, or_false] at hx
      rcases hx with rfl | rfl | rfl <;> rfl
    have valid : validAccess (x.base + 4 * j) 4 = true := by
      obtain ⟨_, _, _⟩ := base_bounds x
      exact (validAccess_iff _ 4).mpr ⟨rfl, by omega, by omega⟩
    rw [access_write s valid, memWrite_ignored v]
    rcases target_readOnlySlot s.cfg readOnly hj with hole | word
    · exact Or.inl hole
    · exact Or.inr (Or.inr (Or.inr word))

end Sys2Proof.Machine
end

section
/-! Proofs: the accesses that the register port refuses (`20_memory.md` R68). -/

namespace Sys2Proof.Machine

/-- Each cause that R68 names makes an access invalid, and nothing else does. -/
theorem validAccess_eq_false_iff (addr width : Nat) :
    validAccess addr width = false ↔ width ≠ 4 ∨ addr % 4 ≠ 0 ∨ 0x7FF < addr := by
  rw [← Bool.not_eq_true, validAccess_iff, not_and_or, not_and_or, not_le]

/-- Settles O36: an access with one of the three causes is not valid, and a refused access leaves only its answer. -/
theorem busErrorChangesNothing : Obligations.BusErrorChangesNothing := by
  unfold Obligations.BusErrorChangesNothing
  intro s addr width v cause
  have invalid : validAccess addr width = false := (validAccess_eq_false_iff addr width).mpr cause
  exact access_refused s invalid v

end Sys2Proof.Machine
end

section
/-! Proofs: the seed expander (`40_seed_expander.md`). Its command BITLEN, the expansion as one concatenation of blocks,
and the bound on its value. -/

namespace Sys2Proof.Machine

/-! BITLEN (R110). -/

/-- BITLEN has no failing path: it writes the bit length and completes (R110). -/
theorem exec_bitlen (s : State) :
    exec .bitlen s = .next (({ s with lbits := BitVec.ofNat 32 (bitlen s.p) } : State).completed .none .fin []) := rfl

/-- W is at most 1024 in a block that can be built (`00_scope.md` R6). -/
theorem width_le_of_wellFormed {c : Params} (h : c.wellFormed = true) : c.width ≤ 1024 := by
  obtain ⟨⟨-, wWords⟩, -⟩ := (params_wellFormed_iff c).mp h
  rw [Params.width]
  omega

/-- Settles O6: the k is bitlen(P), at most W because P is a W-bit value. -/
theorem bitlenCommand : Obligations.BitlenCommand := by
  unfold Obligations.BitlenCommand
  obtain ⟨-, -, decoded, -⟩ := Sys2Proof.Laws.EncodeDecode.bitlen
  refine ⟨⟨by decide, decoded, rfl, rfl, rfl⟩, fun s inv => ?_⟩
  have leWidth : bitlen s.p ≤ s.cfg.width := bitlen_le_iff.mpr (inv.regsFit .p)
  have le1024 : bitlen s.p ≤ 1024 := leWidth.trans (width_le_of_wellFormed inv.params)
  have fits : (BitVec.ofNat 32 (bitlen s.p)).toNat = bitlen s.p := by
    rw [BitVec.toNat_ofNat, Nat.mod_eq_of_lt (by omega)]
  have zero (h : s.p = 0) : bitlen s.p = 0 := by rw [h, bitlen_zero]
  have pos (h : 1 ≤ s.p) : 2 ^ (bitlen s.p - 1) ≤ s.p ∧ s.p < 2 ^ bitlen s.p :=
    ⟨two_pow_bitlen_le h, lt_two_pow_bitlen s.p⟩
  exact ⟨bitlen s.p, zero, pos, leWidth, le1024, fits, exec_bitlen s⟩

/-! The first block (R112 to R115). -/

/-- The block counts of R112 and R113: L bits are a first block of 1 to 160 bits and whole digests after it. -/
theorem hBits_spec {l : Nat} (h : 1 ≤ l) : 1 ≤ hBits l ∧ hBits l ≤ 160 ∧ l = hBits l + 160 * sCount l := by
  simp only [hBits, sCount]
  omega

theorem maskCount_le (l : Nat) : maskCount l ≤ 8 := by
  rw [maskCount]
  omega

/-- The mask of R115 leaves hBits − 1 of the bits of the hBytes bytes. -/
theorem hBytes_sub_maskCount {l : Nat} (h : 1 ≤ l) : 8 * hBytes l - maskCount l = hBits l - 1 := by
  obtain ⟨lo, hi, -⟩ := hBits_spec h
  simp only [hBytes, maskCount, ceilDiv]
  omega

/-- Masking one byte keeps its low 8 − cnt bits. -/
theorem toNat_and_mask (b : Byte) {cnt : Nat} (h : cnt ≤ 8) :
    (b &&& ((255 : Byte) >>> cnt)).toNat = b.toNat % 2 ^ (8 - cnt) := by
  have mask : ∀ c ≤ 8, ((255 : Byte) >>> c).toNat = 2 ^ (8 - c) - 1 := by decide
  rw [BitVec.toNat_and, mask cnt h, Nat.and_two_pow_sub_one_eq_mod]

/-- Masking the first byte keeps the integer's low bits, all but cnt of them (R115). -/
theorem be2int_maskFirst (bs : Bytes) {cnt : Nat} (h : cnt ≤ 8) :
    be2int (maskFirst cnt bs) = be2int bs % 2 ^ (8 * bs.length - cnt) := by
  cases bs with
  | nil => simp [maskFirst]
  | cons b bs =>
    have bits : 2 ^ (8 * (bs.length + 1) - cnt) = 256 ^ bs.length * 2 ^ (8 - cnt) := by
      rw [show 256 = 2 ^ 8 from rfl, ← pow_mul, ← pow_add]
      congr 1
      omega
    have rest : be2int bs < 256 ^ bs.length := be2int_lt bs
    have low : (b.toNat * 256 ^ bs.length + be2int bs) % 256 ^ bs.length = be2int bs := Nat.mul_add_mod_of_lt rest
    have high : (b.toNat * 256 ^ bs.length + be2int bs) / 256 ^ bs.length = b.toNat := by
      rw [mul_comm, Nat.mul_add_div (by positivity), Nat.div_eq_of_lt rest, Nat.add_zero]
    rw [maskFirst, be2int_cons, be2int_cons, List.length_cons, bits, toNat_and_mask b h, Nat.mod_mul, low, high]
    ring

/-- The masked first block has at most hBits − 1 bits (R120). -/
theorem be2int_firstBlock_lt {l : Nat} (h : 1 ≤ l) (d : Digest) : be2int (firstBlock l d) < 2 ^ (hBits l - 1) := by
  obtain ⟨-, hi, -⟩ := hBits_spec h
  have length : (lastBytes (hBytes l) d.toList).length = hBytes l :=
    lastBytes_length _ _ (by simp only [hBytes, ceilDiv, Vector.length_toList]; omega)
  rw [firstBlock, be2int_maskFirst _ (maskCount_le l), length, hBytes_sub_maskCount h]
  exact Nat.mod_lt _ (Nat.two_pow_pos _)

/-! The blocks after the first (R116, R117). -/

/-- The bytes of the first n digests of a sequence, in order: w_1 ‖ … ‖ w_n of R117 where d k is w_(k+1). -/
def digestBytes (d : Nat → Digest) (n : Nat) : Bytes := ((List.range n).map fun k => (d k).toList).flatten

@[simp] theorem digestBytes_zero (d : Nat → Digest) : digestBytes d 0 = [] := rfl

@[simp] theorem digestBytes_succ (d : Nat → Digest) (n : Nat) :
    digestBytes d (n + 1) = digestBytes d n ++ (d n).toList := by
  simp [digestBytes, List.range_succ]

@[simp] theorem digestBytes_length (d : Nat → Digest) (n : Nat) : (digestBytes d n).length = 20 * n := by
  induction n with
  | zero => rfl
  | succ n ih => rw [digestBytes_succ, List.length_append, ih, Vector.length_toList, Nat.mul_succ]

/-- Each digest weighs 160 bits. -/
theorem pow_digestBytes_length (d : Nat → Digest) (n : Nat) : 256 ^ (digestBytes d n).length = 2 ^ (160 * n) := by
  calc 256 ^ (digestBytes d n).length = (256 ^ 20) ^ n := by rw [digestBytes_length, pow_mul]
    _ = 2 ^ (160 * n) := by rw [show 256 ^ 20 = 2 ^ 160 from rfl, ← pow_mul]

/-- The weighted sum of R117: a further digest shifts those before it by 160 bits. -/
theorem be2int_digestBytes (d : Nat → Digest) (n : Nat) :
    be2int (digestBytes d n) = ∑ k ∈ Finset.range n, be2int (d k).toList * 2 ^ (160 * (n - (k + 1))) := by
  induction n with
  | zero => rfl
  | succ n ih =>
    have shift : ∀ k ∈ Finset.range n, be2int (d k).toList * 2 ^ (160 * (n - (k + 1))) * 2 ^ 160
        = be2int (d k).toList * 2 ^ (160 * (n + 1 - (k + 1))) := by
      intro k hk
      have := Finset.mem_range.mp hk
      rw [mul_assoc, ← pow_add]
      congr 2
      omega
    rw [digestBytes_succ, be2int_append, Vector.length_toList, show 256 ^ 20 = 2 ^ 160 from rfl, ih, Finset.sum_mul,
      Finset.sum_congr rfl shift, Finset.sum_range_succ]
    simp

/-! The expansion (R117, R120). -/

/-- The expansion as the value of w0 ‖ w_1 ‖ … ‖ w_sCount (R117). -/
theorem expand_eq_be2int (hash : Bytes → Digest) (seed : Bytes) (l : Nat) :
    expand hash seed l = be2int (firstBlock l (hash seed) ++
      digestBytes (fun k => hash (chainMessage seed (k + 1))) (sCount l)) := by
  rw [expand, chainMessages, List.flatMap_map, List.flatMap_def, digestBytes]

/-- Settles O8: the concatenation weighs w0 by the length of the digests after it, and those are their own sum. -/
theorem expansionIsWeightedSum : Obligations.ExpansionIsWeightedSum := by
  unfold Obligations.ExpansionIsWeightedSum
  intro hash seed l _
  refine ⟨expand_eq_be2int hash seed l, ?_⟩
  rw [expand_eq_be2int, be2int_append, pow_digestBytes_length, be2int_digestBytes]
  rfl

/-- A bound on the leading bytes of a big-endian integer bounds the whole. -/
theorem be2int_append_lt {xs : Bytes} {m : Nat} (h : be2int xs < m) (ys : Bytes) :
    be2int (xs ++ ys) < m * 256 ^ ys.length := by
  calc be2int (xs ++ ys) = be2int xs * 256 ^ ys.length + be2int ys := be2int_append xs ys
    _ < (be2int xs + 1) * 256 ^ ys.length := by rw [Nat.succ_mul]; exact Nat.add_lt_add_left (be2int_lt ys) _
    _ ≤ m * 256 ^ ys.length := Nat.mul_le_mul_right _ h

/-- The bound of R120 in blocks: the masked first block is the leading part of the concatenation. -/
theorem expand_lt_blocks (hash : Bytes → Digest) (seed : Bytes) {l : Nat} (h : 1 ≤ l) :
    expand hash seed l < 2 ^ (hBits l - 1 + 160 * sCount l) := by
  rw [expand_eq_be2int, pow_add, ← pow_digestBytes_length]
  exact be2int_append_lt (be2int_firstBlock_lt h _) _

/-- The bound of R120 in bits. -/
theorem expand_lt (hash : Bytes → Digest) (seed : Bytes) {l : Nat} (h : 1 ≤ l) : expand hash seed l < 2 ^ (l - 1) := by
  obtain ⟨lo, -, total⟩ := hBits_spec h
  have bits : hBits l - 1 + 160 * sCount l = l - 1 := by omega
  exact bits ▸ expand_lt_blocks hash seed h

/-- Settles O9: the bound in bits, weakened to W ≥ L, and compared with p ≥ 2^(bitlen(p) − 1). -/
theorem expansionBound : Obligations.ExpansionBound := by
  unfold Obligations.ExpansionBound
  refine ⟨fun hash seed l hl => ?_, fun hash seed l w hl hw => ?_, fun hash seed p hp => ?_⟩
  · have bound := expand_lt hash seed hl
    exact ⟨be2int_firstBlock_lt hl _, expand_lt_blocks hash seed hl, bound, bitlen_le_iff.mpr bound⟩
  · exact (expand_lt hash seed hl).trans_le (Nat.pow_le_pow_right (by decide) (by omega))
  · have posLength : 1 ≤ bitlen p := by rw [bitlen_of_pos hp]; omega
    exact (expand_lt hash seed posLength).trans_le (two_pow_bitlen_le hp)

end Sys2Proof.Machine
end

section
/-! Proofs: the square-root unit on a prime modulus (`41_modular_solver.md` R143, R144). Its values are read in the field
`ZMod p`, where Euler's criterion and the invariant of the Tonelli–Shanks loop are equations. -/

namespace Sys2Proof.Machine

/-! Residues as elements of `ZMod p`. -/

/-- A modular power equals a residue n exactly when the power in `ZMod p` is n. -/
theorem modExp_eq_iff {b e p n : Nat} (h : n < p) : modExp b e p = n ↔ (b : ZMod p) ^ e = n := by
  rw [modExp_eq, ← Nat.cast_pow, ZMod.natCast_eq_natCast_iff', Nat.mod_eq_of_lt h]

@[simp] theorem natCast_modExp (b e p : Nat) : (modExp b e p : ZMod p) = (b : ZMod p) ^ e := by
  rw [modExp_eq, ZMod.natCast_mod, Nat.cast_pow]

theorem natCast_pred {p : Nat} (h : 1 ≤ p) : ((p - 1 : Nat) : ZMod p) = -1 := by
  rw [Nat.cast_sub h, ZMod.natCast_self, Nat.cast_one, zero_sub]

/-- The check that ends R144, as an equation in `ZMod p`. -/
theorem mul_self_mod_eq_iff (p x v : Nat) : x * x % p = v % p ↔ (x : ZMod p) ^ 2 = v := by
  rw [← ZMod.natCast_eq_natCast_iff', Nat.cast_mul, sq]

/-! The least non-residue (R144). -/

/-- A non-square of the field is no value below 2. -/
theorem two_le_val_of_not_isSquare {p : Nat} [NeZero p] {a : ZMod p} (h : ¬ IsSquare a) : 2 ≤ a.val := by
  have ne_zero : a.val ≠ 0 := fun h0 => h ((ZMod.val_eq_zero a).mp h0 ▸ IsSquare.zero)
  have ne_one : a.val ≠ 1 := fun h1 => h (by rw [← ZMod.natCast_zmod_val a, h1, Nat.cast_one]; exact IsSquare.one)
  omega

/-- Modulo an odd prime the search for the least non-residue succeeds. -/
theorem leastNonResidue_spec {p : Nat} [Fact p.Prime] (odd : p % 2 = 1) :
    ∃ z, leastNonResidue p = some z ∧ (z : ZMod p) ^ ((p - 1) / 2) = -1 := by
  have lt : 1 < p := (Fact.out : p.Prime).one_lt
  have test (n : Nat) : (modExp n ((p - 1) / 2) p == p - 1) = true ↔ (n : ZMod p) ^ ((p - 1) / 2) = -1 := by
    rw [beq_iff_eq, modExp_eq_iff (by omega), natCast_pred (by omega)]
  cases found : leastNonResidue p with
  | some z =>
    obtain ⟨-, -, passes, -⟩ := leastFrom_some found
    exact ⟨z, rfl, (test z).mp passes⟩
  | none =>
    obtain ⟨a, nonSquare⟩ := FiniteField.exists_nonsquare (F := ZMod p) (by rw [ZMod.ringChar_zmod_n]; omega)
    have ne_zero : a ≠ 0 := fun h => nonSquare (h ▸ IsSquare.zero)
    have ne_one : a ^ (p / 2) ≠ 1 := fun h => nonSquare ((ZMod.euler_criterion p ne_zero).mpr h)
    have euler : a ^ (p / 2) = -1 := (ZMod.pow_div_two_eq_neg_one_or_one p ne_zero).resolve_left ne_one
    have passes : (modExp a.val ((p - 1) / 2) p == p - 1) = true := by
      rw [test, ZMod.natCast_zmod_val, show (p - 1) / 2 = p / 2 by omega, euler]
    have lo := two_le_val_of_not_isSquare nonSquare
    have hi := ZMod.val_lt a
    have fails := leastFrom_none found a.val lo (by omega)
    exact absurd passes (by rw [fails]; decide)

/-! The loop of Tonelli–Shanks (R144). -/

/-- What the loop keeps of c, t and x when M = k + 1: c has order 2^M, the order of t divides 2^k, and x is a root of
v up to the factor t. -/
structure TonelliInv (p v k c t x : Nat) : Prop where
  reduced : t < p
  orderC : (c : ZMod p) ^ 2 ^ k = -1
  orderT : (t : ZMod p) ^ 2 ^ k = 1
  root : (x : ZMod p) ^ 2 = t * v

/-- While t ≠ 1 the search of the loop finds the least i with t^(2^i) = 1, and the power before it is −1. -/
theorem leastExponent_spec {p k t : Nat} [Fact p.Prime] (reduced : t < p) (order : (t : ZMod p) ^ 2 ^ k = 1)
    (ne : t ≠ 1) :
    ∃ j, j < k ∧ leastFrom (fun i => modExp t (2 ^ i) p == 1) k 1 = some (j + 1) ∧ (t : ZMod p) ^ 2 ^ j = -1 := by
  have lt : 1 < p := (Fact.out : p.Prime).one_lt
  have test (i : Nat) : (modExp t (2 ^ i) p == 1) = true ↔ (t : ZMod p) ^ 2 ^ i = 1 := by
    rw [beq_iff_eq, modExp_eq_iff lt, Nat.cast_one]
  have ne_one : (t : ZMod p) ^ 2 ^ 0 ≠ 1 := by
    rw [pow_zero, pow_one, ← Nat.cast_one, Ne, ZMod.natCast_eq_natCast_iff', Nat.mod_eq_of_lt reduced,
      Nat.mod_eq_of_lt lt]
    exact ne
  have pos : k ≠ 0 := fun h => ne_one (h ▸ order)
  cases found : leastFrom (fun i => modExp t (2 ^ i) p == 1) k 1 with
  | none => exact absurd ((test k).mpr order) (by rw [leastFrom_none found k (by omega) (by omega)]; decide)
  | some i =>
    obtain ⟨lo, hi, passes, least⟩ := leastFrom_some found
    obtain ⟨j, rfl⟩ : ∃ j, i = j + 1 := ⟨i - 1, by omega⟩
    have before : (t : ZMod p) ^ 2 ^ j ≠ 1 := by
      rcases Nat.eq_zero_or_pos j with rfl | hj
      · exact ne_one
      · rw [Ne, ← test, least j hj (by omega)]
        decide
    have square : ((t : ZMod p) ^ 2 ^ j) ^ 2 = 1 := by rw [← pow_mul, ← pow_succ]; exact (test _).mp passes
    exact ⟨j, by omega, rfl, (sq_eq_one_iff.mp square).resolve_left before⟩

/-- One pass of the loop, for the exponent i that its search finds. -/
theorem tonelliLoop_pass {p k t i : Nat} (fuel c x : Nat) (ne : t ≠ 1)
    (found : leastFrom (fun i => modExp t (2 ^ i) p == 1) k 1 = some i) :
    tonelliLoop p (fuel + 1) (k + 1) c t x =
      let b := modExp c (2 ^ (k - i)) p
      tonelliLoop p fuel i (b * b % p) (t * (b * b % p) % p) (x * b % p) := by
  rw [show k - i = k + 1 - i - 1 by omega]
  simp [tonelliLoop, ne, found]

/-- A pass keeps the invariant: with b = c^(2^(k − j − 1)) the new c is b², and both t and b² have −1 as their power
to 2^j. -/
theorem TonelliInv.pass {p v k c t x j : Nat} (inv : TonelliInv p v k c t x) (pos : 0 < p) (lt : j < k)
    (minusOne : (t : ZMod p) ^ 2 ^ j = -1) :
    let b := modExp c (2 ^ (k - (j + 1))) p
    TonelliInv p v j (b * b % p) (t * (b * b % p) % p) (x * b % p) := by
  intro b
  have order : ((b * b % p : Nat) : ZMod p) ^ 2 ^ j = -1 := by
    have exponent : 2 ^ (k - (j + 1)) * (2 * 2 ^ j) = 2 ^ k := by
      rw [← pow_succ', ← pow_add]
      congr 1
      omega
    rw [ZMod.natCast_mod, Nat.cast_mul, natCast_modExp, ← sq, ← pow_mul, ← pow_mul, exponent]
    exact inv.orderC
  refine ⟨Nat.mod_lt _ pos, order, ?_, ?_⟩
  · rw [ZMod.natCast_mod, Nat.cast_mul, mul_pow, minusOne, order, neg_one_mul, neg_neg]
  · simp only [ZMod.natCast_mod, Nat.cast_mul, mul_pow, inv.root]
    ring

/-- The loop ends with a root of v when its fuel covers M. -/
theorem tonelliLoop_root {p v : Nat} [Fact p.Prime] : ∀ {fuel k c t x : Nat}, k + 1 < fuel → TonelliInv p v k c t x →
    ∃ y, tonelliLoop p fuel (k + 1) c t x = some y ∧ (y : ZMod p) ^ 2 = v
  | 0, _, _, _, _, covers, _ => by omega
  | fuel + 1, k, c, t, x, covers, inv => by
    by_cases one : t = 1
    · subst one
      exact ⟨x, by simp [tonelliLoop], by simpa using inv.root⟩
    · obtain ⟨j, lt, found, minusOne⟩ := leastExponent_spec inv.reduced inv.orderT one
      rw [tonelliLoop_pass fuel c x one found]
      exact tonelliLoop_root (by omega) (inv.pass (Fact.out : p.Prime).pos lt minusOne)

/-! The candidate root and the unit (R143, R144). -/

/-- The split p − 1 = Q · 2^S of an odd p has an odd Q and S ≥ 1. -/
theorem oddPart_pred {p : Nat} (lt : 1 < p) (odd : p % 2 = 1) :
    ∃ q k, oddPart p (p - 1) 0 = (q, k + 1) ∧ q % 2 = 1 ∧ q * 2 ^ k = (p - 1) / 2 := by
  obtain ⟨split, oddQ, -⟩ := oddPart_spec p (p - 1) 0 (by omega) (by omega)
  generalize oddPart p (p - 1) 0 = qs at split oddQ
  obtain ⟨q, s⟩ := qs
  cases s with
  | zero =>
    simp only [pow_zero, mul_one] at split oddQ
    omega
  | succ k =>
    simp only [pow_succ, pow_zero, mul_one, ← mul_assoc] at split oddQ
    exact ⟨q, k, rfl, oddQ, by omega⟩

/-- For an odd prime p the candidate is a root of every v that passes Euler's criterion. -/
theorem rootCandidate_root {p v : Nat} [Fact p.Prime] (odd : p % 2 = 1) (euler : (v : ZMod p) ^ ((p - 1) / 2) = 1) :
    ∃ x, rootCandidate p v = some x ∧ (x : ZMod p) ^ 2 = v := by
  have lt : 1 < p := (Fact.out : p.Prime).one_lt
  by_cases closed : p % 4 = 3
  · refine ⟨modExp v ((p + 1) / 4) p, by simp [rootCandidate, closed], ?_⟩
    rw [natCast_modExp, ← pow_mul, show (p + 1) / 4 * 2 = (p - 1) / 2 + 1 by omega, pow_succ, euler, one_mul]
  · obtain ⟨z, least, nonResidue⟩ := leastNonResidue_spec odd
    obtain ⟨q, k, parts, oddQ, half⟩ := oddPart_pred lt odd
    have start : TonelliInv p v k (modExp z q p) (modExp v q p) (modExp v ((q + 1) / 2) p) :=
      { reduced := by rw [modExp_eq]; exact Nat.mod_lt _ (by omega)
        orderC := by rw [natCast_modExp, ← pow_mul, half, nonResidue]
        orderT := by rw [natCast_modExp, ← pow_mul, half, euler]
        root := by
          rw [natCast_modExp, natCast_modExp, ← pow_mul, show (q + 1) / 2 * 2 = q + 1 by omega, pow_succ] }
    simpa [rootCandidate, closed, least, parts] using tonelliLoop_root (Nat.lt_succ_self (k + 1)) start

/-- The unit looks at its operand modulo p alone. -/
theorem modSqrt_congr {p v w : Nat} (h : v % p = w % p) : modSqrt p v = modSqrt p w := by
  simp only [modSqrt, h]

/-- For prime p the unit answers a root of every square, 0 included (R143 (a)). -/
theorem modSqrt_of_square {p v : Nat} (prime : p.Prime) (square : ∃ y, y * y % p = v % p) :
    ∃ x, modSqrt p v = .ok x := by
  have := Fact.mk prime
  rcases prime.eq_two_or_odd with two | odd
  · exact ⟨v % p, by simp [modSqrt, two]⟩
  have ne_two : p ≠ 2 := by omega
  by_cases zero : v % p = 0
  · exact ⟨0, by simp [modSqrt, ne_two, odd, zero]⟩
  have ne_zero : (v : ZMod p) ≠ 0 := by rwa [Ne, ZMod.natCast_eq_zero_iff, Nat.dvd_iff_mod_eq_zero]
  obtain ⟨y, hy⟩ := square
  have isSquare : IsSquare (v : ZMod p) := ⟨y, by rw [← sq]; exact ((mul_self_mod_eq_iff p y v).mp hy).symm⟩
  have euler : ((v % p : Nat) : ZMod p) ^ ((p - 1) / 2) = 1 := by
    rw [ZMod.natCast_mod, show (p - 1) / 2 = p / 2 by omega]
    exact (ZMod.euler_criterion p ne_zero).mp isSquare
  obtain ⟨x, candidate, root⟩ := rootCandidate_root odd euler
  have passes : modExp (v % p) ((p - 1) / 2) p = 1 :=
    (modExp_eq_iff prime.one_lt).mpr (euler.trans Nat.cast_one.symm)
  have checked : x * x % p = v % p := by rwa [← Nat.mod_mod v p, mul_self_mod_eq_iff]
  exact ⟨x, by simp [modSqrt, ne_two, odd, zero, passes, candidate, checked]⟩

/-- For prime p the unit raises NO_SQUARE_ROOT on every non-square (R143 (b)). -/
theorem modSqrt_of_not_square {p v : Nat} (prime : p.Prime) (h : ¬ ∃ y, y * y % p = v % p) :
    modSqrt p v = .error .noSquareRoot := by
  cases answer : modSqrt p v with
  | ok x =>
    obtain ⟨-, root, -⟩ := modSqrt_ok prime.two_le answer
    exact absurd ⟨x, root⟩ h
  | error k =>
    rcases modSqrt_error answer with ⟨-, even, ne_two⟩ | ⟨rfl, -⟩
    · have := prime.eq_two_or_odd
      omega
    · rfl

end Sys2Proof.Machine
end

section
/-! Proofs: the unit commands of the modular solver (`41_modular_solver.md`): CUBE, MODINV, MODMUL, MODSQRT. -/

namespace Sys2Proof.Machine

/-! The parts that commands share: header, operand checks, stages (`60_exceptions.md` R214). -/

/-- The head of a command's rule, from its word and its row of the opcode table (`30_encoding.md` R92). -/
theorem commandHeader_of_encode {i : Instr} {w : Word} (word : encode i = w)
    (row : Sys2Proof.Laws.EncodeDecode.Statement i) : CommandHeader i w (readSet i) (writeSet i) (stagePath i) := by
  obtain ⟨-, -, decoded, -⟩ := row
  exact ⟨word, word ▸ decoded, rfl, rfl, rfl⟩

theorem checkModulus_ok {s : State} (h : 2 ≤ s.p) : checkModulus s = .ok () := by
  rcases checkModulus_cases s with ⟨-, ok⟩ | ⟨lt, -⟩
  · exact ok
  · omega

theorem checkModulus_error {s : State} (h : s.p < 2) : checkModulus s = .error ⟨.badOperand, .check⟩ := by
  rcases checkModulus_cases s with ⟨le, -⟩ | ⟨-, error⟩
  · omega
  · exact error

/-- What holds where both checks of a command with ADEF pass. -/
theorem coefficient_bounds {adef : Bool} {p : Nat} (h : ¬ (p < 2 ∨ (adef = true ∧ p < 3))) :
    2 ≤ p ∧ (adef = true → 3 ≤ p) := by
  rw [not_or, not_and, not_lt, not_lt] at h
  exact h

/-- Both checks of a command with ADEF pass. -/
theorem coefficientChecks_ok {adef : Bool} {s : State} (h2 : 2 ≤ s.p) (h3 : adef = true → 3 ≤ s.p) :
    checkModulus s = .ok () ∧ checkDefaultA adef s = .ok () := by
  rcases checkDefaultA_cases adef s with ⟨-, ok⟩ | ⟨isDefault, lt, -⟩
  · exact ⟨checkModulus_ok h2, ok⟩
  · have := h3 isDefault
    omega

/-- One of the two checks of a command with ADEF fails, and whatever comes after them is not reached. -/
theorem coefficientChecks_error {α : Type} {adef : Bool} {s : State} (h : s.p < 2 ∨ (adef = true ∧ s.p < 3))
    (rest : Except Raise α) :
    (do checkModulus s; checkDefaultA adef s; rest) = .error ⟨.badOperand, .check⟩ := by
  rcases checkModulus_cases s with ⟨le, ok⟩ | ⟨-, error⟩
  · rcases checkDefaultA_cases adef s with ⟨le3, -⟩ | ⟨-, -, error⟩
    · rcases h with lt | ⟨isDefault, lt⟩
      · omega
      · have := le3 isDefault
        omega
    · rw [ok, error]
      rfl
  · rw [error]
    rfl

theorem sqrtStage_ok {p v x : Nat} (h : modSqrt p v = .ok x) : sqrtStage p v = .ok x := by simp [sqrtStage, h]

theorem sqrtStage_error {p v : Nat} {k : ErrKind} (h : modSqrt p v = .error k) :
    sqrtStage p v = .error ⟨k, .sqrt⟩ := by simp [sqrtStage, h]

/-! CUBE (R135). -/

/-- CUBE refuses its operands at CHECK (R135). -/
theorem exec_cube_check {adef : Bool} {s : State} (h : s.p < 2 ∨ (adef = true ∧ s.p < 3)) :
    exec (.cube adef) s = .next (({ s with a3 := 0 } : State).completed .badOperand .check []) := by
  rw [exec, execCube, cubeStages, coefficientChecks_error h]
  rfl

/-- CUBE writes the cube (R135). -/
theorem exec_cube_ok {adef : Bool} {s : State} (h2 : 2 ≤ s.p) (h3 : adef = true → 3 ≤ s.p) :
    exec (.cube adef) s = .next (({ s with a3 := s.effectiveA adef ^ 3 % s.p } : State).completed .none .fin []) := by
  obtain ⟨modulus, coefficient⟩ := coefficientChecks_ok h2 h3
  rw [exec, execCube, cubeStages, modulus, coefficient, cubeStage_eq]
  rfl

/-- (P − 3)³ ≡ −27 (mod P): with P = k + 27, the cube of k + 24 leaves the residue k. -/
theorem cube_pred_three_mod {p : Nat} (h : 27 < p) : (p - 3) ^ 3 % p = p - 27 := by
  obtain ⟨k, rfl⟩ : ∃ k, p = k + 27 := ⟨p - 27, by omega⟩
  calc (k + 27 - 3) ^ 3 % (k + 27) = ((k + 27) * (k ^ 2 + 45 * k + 512) + k) % (k + 27) := by
        rw [show k + 27 - 3 = k + 24 from rfl]
        congr 1
        ring
    _ = k + 27 - 27 := by rw [Nat.mul_add_mod, Nat.mod_eq_of_lt (by omega), Nat.add_sub_cancel]

/-- Settles O12: the two operand checks, the cube, and the value of the default coefficient's cube. -/
theorem cubeCommand : Obligations.CubeCommand := by
  unfold Obligations.CubeCommand
  exact ⟨commandHeader_of_encode (by decide) (Sys2Proof.Laws.EncodeDecode.cube false),
    commandHeader_of_encode (by decide) (Sys2Proof.Laws.EncodeDecode.cube true),
    fun _ _ => ⟨exec_cube_check, exec_cube_ok, cube_pred_three_mod⟩⟩

/-! MODINV (R137, R138). -/

/-- MODINV refuses P < 2 at CHECK (R137). -/
theorem exec_modinv_check {s : State} (h : s.p < 2) :
    exec .modinv s = .next (({ s with rinv := 0 } : State).completed .badOperand .check []) := by
  rw [exec, execModinv, modinvStages, checkModulus_error h]
  rfl

/-- MODINV raises what the inverse stage raises (R137). -/
theorem exec_modinv_error {s : State} (h : 2 ≤ s.p) (noInverse : invStage s.p s.r = .error ⟨.noInverse, .inv⟩) :
    exec .modinv s = .next (({ s with rinv := 0 } : State).completed .noInverse .inv []) := by
  rw [exec, execModinv, modinvStages, checkModulus_ok h, noInverse]
  rfl

/-- MODINV writes what the inverse stage finds (R137). -/
theorem exec_modinv_ok {s : State} {x : Nat} (h : 2 ≤ s.p) (inverse : invStage s.p s.r = .ok x) :
    exec .modinv s = .next (({ s with rinv := x } : State).completed .none .fin []) := by
  rw [exec, execModinv, modinvStages, checkModulus_ok h, inverse]
  rfl

theorem invStage_error {p r : Nat} (hp : 2 ≤ p) (h : Nat.gcd (r % p) p ≠ 1) :
    invStage p r = .error ⟨.noInverse, .inv⟩ := by
  rcases invStage_cases p r hp with ⟨coprime, -⟩ | ⟨-, error⟩
  · exact absurd coprime h
  · exact error

theorem invStage_ok {p r : Nat} (hp : 2 ≤ p) (h : Nat.gcd (r % p) p = 1) :
    ∃ x, invStage p r = .ok x ∧ x < p ∧ r * x % p = 1 := by
  rcases invStage_cases p r hp with ⟨-, found⟩ | ⟨shared, -⟩
  · exact found
  · exact absurd h shared

/-- 0 is no inverse. -/
theorem pos_of_mul_mod_eq_one {p r x : Nat} (h : r * x % p = 1) : 1 ≤ x := by
  rcases Nat.eq_zero_or_pos x with rfl | pos
  · simp at h
  · exact pos

/-- An inverse below p is the only one (R138). -/
theorem inverse_unique {p r x y : Nat} (coprime : Nat.gcd (r % p) p = 1) (hx : x < p) (hy : y < p)
    (invX : r * x % p = 1) (invY : r * y % p = 1) : y = x := by
  have gcd : Nat.gcd p r = 1 := by rwa [Nat.gcd_rec]
  have same : r * y ≡ r * x [MOD p] := invY.trans invX.symm
  exact (Nat.ModEq.cancel_left_of_coprime gcd same).eq_of_lt_of_lt hy hx

/-- Settles O13: the inverse stage decides between the two outcomes past CHECK, and its value is the only inverse. -/
theorem modinvCommand : Obligations.ModinvCommand := by
  unfold Obligations.ModinvCommand
  refine ⟨commandHeader_of_encode (by decide) Sys2Proof.Laws.EncodeDecode.modinv, fun s =>
    ⟨exec_modinv_check, fun h shared => exec_modinv_error h (invStage_error h shared), fun h coprime => ?_⟩⟩
  obtain ⟨x, found, lt, inverse⟩ := invStage_ok h coprime
  exact ⟨x, pos_of_mul_mod_eq_one inverse, by omega, inverse,
    fun y hy => inverse_unique coprime lt hy inverse, exec_modinv_ok h found⟩

/-! MODMUL (R140). -/

/-- MODMUL refuses P < 2 at CHECK (R140). -/
theorem exec_modmul_check {s : State} (h : s.p < 2) :
    exec .modmul s = .next (({ s with b2val := 0 } : State).completed .badOperand .check []) := by
  rw [exec, execModmul, modmulStages, checkModulus_error h]
  rfl

/-- MODMUL writes the product (R140). -/
theorem exec_modmul_ok {s : State} (h : 2 ≤ s.p) :
    exec .modmul s = .next (({ s with b2val := s.a3 * s.rinv % s.p } : State).completed .none .fin []) := by
  rw [exec, execModmul, modmulStages, checkModulus_ok h]
  rfl

/-- Settles O14: the modulus check decides between the two outcomes. -/
theorem modmulCommand : Obligations.ModmulCommand := by
  unfold Obligations.ModmulCommand
  exact ⟨commandHeader_of_encode (by decide) Sys2Proof.Laws.EncodeDecode.modmul,
    fun _ => ⟨exec_modmul_check, exec_modmul_ok⟩⟩

/-! MODSQRT (R142 to R149). -/

/-- MODSQRT refuses P < 2 at CHECK (R142). -/
theorem exec_modsqrt_check {s : State} (h : s.p < 2) :
    exec .modsqrt s = .next (({ s with b1 := 0, b2 := 0 } : State).completed .badOperand .check []) := by
  rw [exec, execModsqrt, modsqrtStages, checkModulus_error h]
  rfl

/-- MODSQRT raises at SQRT what the unit raises (R142). -/
theorem exec_modsqrt_error {s : State} {k : ErrKind} (h : 2 ≤ s.p) (noRoot : modSqrt s.p s.b2val = .error k) :
    exec .modsqrt s = .next (({ s with b1 := 0, b2 := 0 } : State).completed k .sqrt []) := by
  rw [exec, execModsqrt, modsqrtStages, checkModulus_ok h, sqrtStage_error noRoot]
  rfl

/-- MODSQRT writes the unit's root and its complement (R142, R146). -/
theorem exec_modsqrt_ok {s : State} {x : Nat} (h : 2 ≤ s.p) (root : modSqrt s.p s.b2val = .ok x) :
    exec .modsqrt s = .next (({ s with b1 := x, b2 := s.p - x } : State).completed .none .fin []) := by
  rw [exec, execModsqrt, modsqrtStages, checkModulus_ok h, sqrtStage_ok root]
  rfl

/-- Modulo 2 every value is its own root (R148). -/
theorem modSqrt_two (v : Nat) : modSqrt 2 v = .ok (v % 2) := by simp [modSqrt]

/-- Modulo an odd p the root of 0 is 0 (R146). -/
theorem modSqrt_zero {p v : Nat} (odd : p % 2 = 1) (zero : v % p = 0) : modSqrt p v = .ok 0 := by
  have ne_two : p ≠ 2 := by omega
  simp [modSqrt, ne_two, odd, zero]

/-- Settles O15: on a prime the unit answers exactly on squares, its answer is a checked root, and it looks at P and at
B2VAL modulo P alone. -/
theorem modsqrtOnPrimes : Obligations.ModsqrtOnPrimes := by
  unfold Obligations.ModsqrtOnPrimes
  refine fun s prime => ⟨fun square => ?_, fun nonSquare =>
    exec_modsqrt_error prime.two_le (modSqrt_of_not_square prime nonSquare)⟩
  obtain ⟨x, answer⟩ := modSqrt_of_square prime square
  obtain ⟨lt, root, -⟩ := modSqrt_ok prime.two_le answer
  refine ⟨x, by omega, root, exec_modsqrt_ok prime.two_le answer, fun t sameP sameV => ?_⟩
  have answer_t : modSqrt t.p t.b2val = .ok x := by rw [sameP, modSqrt_congr sameV, answer]
  rw [exec_modsqrt_ok (sameP ▸ prime.two_le) answer_t, sameP]

/-- Settles O18: each corner is one answer of the unit. -/
theorem modsqrtCorners : Obligations.ModsqrtCorners := by
  unfold Obligations.ModsqrtCorners
  refine ⟨commandHeader_of_encode (by decide) Sys2Proof.Laws.EncodeDecode.modsqrt, fun s =>
    ⟨exec_modsqrt_check, fun gt even => ?_, fun two => ?_, fun gt odd zero => ?_⟩⟩
  · exact exec_modsqrt_error gt.le (modSqrt_even s.b2val gt.ne' even)
  · have answer : modSqrt s.p s.b2val = .ok (s.b2val % 2) := by rw [two, modSqrt_two]
    rw [exec_modsqrt_ok two.ge answer, two]
  · exact exec_modsqrt_ok gt.le (modSqrt_zero odd zero)

end Sys2Proof.Machine
end

section
/-! Proofs: SOLVE (`41_modular_solver.md` R150 to R152), its outcomes, its agreement with the chain of unit commands, and
the curve relation of what SOLVE and GENERATE leave. -/

namespace Sys2Proof.Machine

/-! The stages of SOLVE (R150). -/

/-- The results of SOLVE for the coefficient a, with x the inverse of R and b the root. -/
def State.solved (s : State) (a x b : Nat) : State :=
  { s with a3 := a ^ 3 % s.p, rinv := x, b2val := a ^ 3 % s.p * x % s.p, b1 := b, b2 := s.p - b }

theorem solveStages_ok {a x b : Nat} {s : State} (inverse : invStage s.p s.r = .ok x)
    (root : modSqrt s.p (a ^ 3 % s.p * x % s.p) = .ok b) : solveStages a s = .ok (s.solved a x b) := by
  simp only [solveStages, cubeStage_eq, inverse, bind, Except.bind, mulStage, sqrtStage_ok root]
  rfl

theorem solveStages_inv {a : Nat} {s : State} {e : Raise} (noInverse : invStage s.p s.r = .error e) :
    solveStages a s = .error e := by
  simp only [solveStages, noInverse, bind, Except.bind]

theorem solveStages_sqrt {a x : Nat} {s : State} {k : ErrKind} (inverse : invStage s.p s.r = .ok x)
    (noRoot : modSqrt s.p (a ^ 3 % s.p * x % s.p) = .error k) : solveStages a s = .error ⟨k, .sqrt⟩ := by
  simp only [solveStages, cubeStage_eq, inverse, bind, Except.bind, mulStage, sqrtStage_error noRoot]

/-- The unit raises one of the two kinds of stage SQRT (R142). -/
theorem modSqrt_error_kind {p v : Nat} {k : ErrKind} (h : modSqrt p v = .error k) :
    k = .noSquareRoot ∨ k = .badOperand := by
  rcases modSqrt_error h with ⟨bad, -⟩ | ⟨noRoot, -⟩
  · exact Or.inr bad
  · exact Or.inl noRoot

theorem modSqrt_error_ne_none {p v : Nat} {k : ErrKind} (h : modSqrt p v = .error k) : k ≠ .none := by
  rcases modSqrt_error_kind h with rfl | rfl <;> decide

/-! The outcomes of SOLVE (R150). -/

/-- The write set of SOLVE, zeroed. -/
def State.unsolved (s : State) : State := { s with a3 := 0, rinv := 0, b2val := 0, b1 := 0, b2 := 0 }

/-- SOLVE refuses its operands at CHECK. -/
theorem exec_solve_check {adef : Bool} {s : State} (h : s.p < 2 ∨ (adef = true ∧ s.p < 3)) :
    exec (.solve adef) s = .next (s.unsolved.completed .badOperand .check []) := by
  rw [exec, execSolve, solveChecked, coefficientChecks_error h]
  rfl

/-- Past CHECK, SOLVE is its stages. -/
theorem solveChecked_stages {adef : Bool} {s : State} (h2 : 2 ≤ s.p) (h3 : adef = true → 3 ≤ s.p) :
    solveChecked adef s = solveStages (s.effectiveA adef) s := by
  obtain ⟨modulus, coefficient⟩ := coefficientChecks_ok h2 h3
  rw [solveChecked, modulus, coefficient]
  rfl

theorem exec_solve_error {adef : Bool} {s : State} {e : Raise} (h2 : 2 ≤ s.p) (h3 : adef = true → 3 ≤ s.p)
    (raised : solveStages (s.effectiveA adef) s = .error e) :
    exec (.solve adef) s = .next (s.unsolved.completed e.kind e.stage []) := by
  rw [exec, execSolve, solveChecked_stages h2 h3, raised, settle_error, ite_self]
  rfl

theorem exec_solve_ok {adef : Bool} {s : State} {x b : Nat} (h2 : 2 ≤ s.p) (h3 : adef = true → 3 ≤ s.p)
    (solved : solveStages (s.effectiveA adef) s = .ok (s.solved (s.effectiveA adef) x b)) :
    exec (.solve adef) s = .next ((s.solved (s.effectiveA adef) x b).completed .none .fin []) := by
  rw [exec, execSolve, solveChecked_stages h2 h3, solved, settle_ok]

/-- Settles O19: the operand checks, then the inverse stage, then the answer of the square-root unit. -/
theorem solveCommand : Obligations.SolveCommand := by
  unfold Obligations.SolveCommand
  refine ⟨commandHeader_of_encode (by decide) (Sys2Proof.Laws.EncodeDecode.solve false),
    commandHeader_of_encode (by decide) (Sys2Proof.Laws.EncodeDecode.solve true), fun adef s =>
    ⟨exec_solve_check, fun h2 h3 shared => exec_solve_error h2 h3 (solveStages_inv (invStage_error h2 shared)),
      fun h2 h3 coprime => ?_⟩⟩
  obtain ⟨x, found, lt, inverse⟩ := invStage_ok h2 coprime
  exact ⟨x, pos_of_mul_mod_eq_one inverse, by omega, inverse,
    fun k noRoot => ⟨modSqrt_error_kind noRoot, exec_solve_error h2 h3 (solveStages_sqrt found noRoot)⟩,
    fun b root => exec_solve_ok h2 h3 (solveStages_ok found root)⟩

/-! The chain of unit commands (R151). -/

/-- A state in which command i has been accepted and has completed without a hash request. -/
def State.ran (s : State) (i : Instr) (k : ErrKind) (st : Stage) : State :=
  ({ s with cmd := encode i } : State).completed k st []

theorem runChain_cons_ok {i : Instr} {is : List Instr} {s t : State} (one : runOne i s = .next t)
    (ok : t.status.err = .none) : runChain (i :: is) s = runChain is t := by
  simp [runChain, one, ok]

theorem runChain_cons_error {i : Instr} {is : List Instr} {s t : State} (one : runOne i s = .next t)
    (error : t.status.err ≠ .none) : runChain (i :: is) s = .next t := by
  simp [runChain, one, error]

theorem runOne_cube_ok {adef : Bool} {s : State} (h2 : 2 ≤ s.p) (h3 : adef = true → 3 ≤ s.p) :
    runOne (.cube adef) s =
      .next (({ s with a3 := s.effectiveA adef ^ 3 % s.p } : State).ran (.cube adef) .none .fin) :=
  exec_cube_ok (s := s.accept (encode (.cube adef))) h2 h3

theorem runOne_modinv_ok {s : State} {x : Nat} (h2 : 2 ≤ s.p) (inverse : invStage s.p s.r = .ok x) :
    runOne .modinv s = .next (({ s with rinv := x } : State).ran .modinv .none .fin) :=
  exec_modinv_ok (s := s.accept (encode .modinv)) h2 inverse

theorem runOne_modmul_ok {s : State} (h2 : 2 ≤ s.p) :
    runOne .modmul s = .next (({ s with b2val := s.a3 * s.rinv % s.p } : State).ran .modmul .none .fin) :=
  exec_modmul_ok (s := s.accept (encode .modmul)) h2

/-- The chain past CUBE, at MODINV. -/
def State.cubed (s : State) (adef : Bool) : State :=
  ({ s with a3 := s.effectiveA adef ^ 3 % s.p } : State).ran (.cube adef) .none .fin

/-- The chain past MODMUL, at MODSQRT, with x the inverse of R. -/
def State.multiplied (s : State) (adef : Bool) (x : Nat) : State :=
  ({ s with
      a3 := s.effectiveA adef ^ 3 % s.p, rinv := x, b2val := s.effectiveA adef ^ 3 % s.p * x % s.p } : State).ran
    .modmul .none .fin

/-- Where CUBE succeeds the chain goes on from its result. -/
theorem runChain_cubed {adef : Bool} {s : State} (is : List Instr) (h2 : 2 ≤ s.p) (h3 : adef = true → 3 ≤ s.p) :
    runChain (.cube adef :: is) s = runChain is (s.cubed adef) :=
  runChain_cons_ok (runOne_cube_ok h2 h3) rfl

/-- Where R has an inverse the chain goes on at MODSQRT. -/
theorem runChain_multiplied {adef : Bool} {s : State} {x : Nat} (is : List Instr) (h2 : 2 ≤ s.p)
    (h3 : adef = true → 3 ≤ s.p) (inverse : invStage s.p s.r = .ok x) :
    runChain (.cube adef :: .modinv :: .modmul :: is) s = runChain is (s.multiplied adef x) :=
  (runChain_cubed _ h2 h3).trans <|
    (runChain_cons_ok (runOne_modinv_ok (s := s.cubed adef) h2 inverse) rfl).trans <|
      runChain_cons_ok (runOne_modmul_ok h2) rfl

/-- Settles O21, by the first stage that raises: CHECK, INV, SQRT, or none. -/
theorem solveAgreesWithUnitCommands : Obligations.SolveAgreesWithUnitCommands := by
  unfold Obligations.SolveAgreesWithUnitCommands
  intro adef s
  by_cases check : s.p < 2 ∨ (adef = true ∧ s.p < 3)
  · exact ⟨_, _, exec_solve_check (s := s.accept _) check,
      runChain_cons_error (exec_cube_check (s := s.accept _) check) ErrKind.noConfusion, rfl, rfl, ErrKind.noConfusion,
      fun _ => ⟨rfl, rfl, rfl, rfl, rfl⟩, fun h => h.elim Stage.noConfusion Stage.noConfusion, Stage.noConfusion⟩
  obtain ⟨h2, h3⟩ := coefficient_bounds check
  rcases invStage_cases s.p s.r h2 with ⟨-, x, found, lt, inverse⟩ | ⟨-, noInverse⟩
  · cases answer : modSqrt s.p (s.effectiveA adef ^ 3 % s.p * x % s.p) with
    | error k =>
      have ne_none := modSqrt_error_ne_none answer
      have chain := (runChain_multiplied [.modsqrt] h2 h3 found).trans
        (runChain_cons_error (exec_modsqrt_error (s := (s.multiplied adef x).accept _) h2 answer) ne_none)
      exact ⟨_, _, exec_solve_error (s := s.accept _) h2 h3 (solveStages_sqrt found answer), chain, rfl, rfl,
        fun h => absurd h ne_none, fun _ => ⟨rfl, rfl, rfl, rfl, rfl⟩, fun _ => rfl, fun _ => ⟨lt, inverse, rfl⟩⟩
    | ok b =>
      have chain := (runChain_multiplied [.modsqrt] h2 h3 found).trans
        (runChain_cons_ok (exec_modsqrt_ok (s := (s.multiplied adef x).accept _) h2 answer) rfl)
      exact ⟨_, _, exec_solve_ok (s := s.accept _) h2 h3 (solveStages_ok found answer), chain, rfl, rfl,
        fun _ => rfl, fun h => absurd rfl h, fun h => h.elim Stage.noConfusion Stage.noConfusion, Stage.noConfusion⟩
  · have chain := (runChain_cubed [.modinv, .modmul, .modsqrt] h2 h3).trans
      (runChain_cons_error (exec_modinv_error (s := (s.cubed adef).accept _) h2 noInverse) ErrKind.noConfusion)
    exact ⟨_, _, exec_solve_error (s := s.accept _) h2 h3 (solveStages_inv noInverse), chain, rfl, rfl,
      ErrKind.noConfusion, fun _ => ⟨rfl, rfl, rfl, rfl, rfl⟩, fun _ => rfl, Stage.noConfusion⟩

/-! The curve relation (R152). -/

/-- What R152 says of the registers after a success with the effective coefficient a. -/
def CurveRelation (a : Nat) (t : State) : Prop :=
  t.r * (t.b1 * t.b1) % t.p = a ^ 3 % t.p ∧ t.r * (t.b2 * t.b2) % t.p = a ^ 3 % t.p ∧ t.b1 < t.p ∧ t.b2 + t.b1 = t.p

/-- A root b of c · r⁻¹ satisfies r · b² ≡ c. -/
theorem mul_root_mod {p r x b c : Nat} (inverse : r * x % p = 1) (root : b * b % p = c * x % p) :
    r * (b * b) % p = c % p := by
  have ne_one : p ≠ 1 := by rintro rfl; omega
  have one : r * x ≡ 1 [MOD p] := inverse.trans (Nat.one_mod_eq_one.mpr ne_one).symm
  calc r * (b * b) ≡ r * (c * x) [MOD p] := Nat.ModEq.mul_left r root
    _ = c * (r * x) := by ring
    _ ≡ c * 1 [MOD p] := Nat.ModEq.mul_left c one
    _ = c := mul_one c

/-- The two roots have one square (R146). -/
theorem complement_mul_self_mod {p b : Nat} (h : b ≤ p) : (p - b) * (p - b) % p = b * b % p := by
  rw [mul_self_mod_eq_iff, Nat.cast_sub h, ZMod.natCast_self, zero_sub, neg_sq, Nat.cast_mul, sq]

/-- The results of the stages satisfy the relation on every modulus. -/
theorem solved_curveRelation {a x b : Nat} {s : State} (h : 2 ≤ s.p) (inverse : s.r * x % s.p = 1)
    (root : modSqrt s.p (a ^ 3 % s.p * x % s.p) = .ok b) : CurveRelation a (s.solved a x b) := by
  obtain ⟨lt, square, -⟩ := modSqrt_ok h root
  have first : s.r * (b * b) % s.p = a ^ 3 % s.p := by
    have := mul_root_mod inverse (square.trans (Nat.mod_mod _ _))
    rwa [Nat.mod_mod] at this
  have second : s.r * ((s.p - b) * (s.p - b)) % s.p = a ^ 3 % s.p := by
    rw [Nat.mul_mod, complement_mul_self_mod lt.le, ← Nat.mul_mod, first]
  exact ⟨first, second, lt, Nat.sub_add_cancel lt.le⟩

/-- What SOLVE and GENERATE on the modulus p can answer: results that satisfy the relation for a, or a raise. -/
inductive AnswersCurve (a p : Nat) : Except Raise State → Prop
  | ok {t : State} (relation : CurveRelation a t) (sameP : t.p = p) : AnswersCurve a p (.ok t)
  | error {e : Raise} (ne_none : e.kind ≠ .none) : AnswersCurve a p (.error e)

/-- The stages CUBE to SQRT, on every P ≥ 2. -/
theorem solveStages_answersCurve (a : Nat) {s : State} (h : 2 ≤ s.p) : AnswersCurve a s.p (solveStages a s) := by
  rcases invStage_cases s.p s.r h with ⟨-, x, found, -, inverse⟩ | ⟨-, noInverse⟩
  · cases answer : modSqrt s.p (a ^ 3 % s.p * x % s.p) with
    | ok b =>
      rw [solveStages_ok found answer]
      exact .ok (solved_curveRelation h inverse answer) rfl
    | error k =>
      rw [solveStages_sqrt found answer]
      exact .error (modSqrt_error_ne_none answer)
  · rw [solveStages_inv noInverse]
    exact .error (by decide)

/-- The stages BITLEN and EXPAND of GENERATE, done (`43_curve_generator.md` R176). -/
def State.expanded (s : State) : State :=
  { s with lbits := BitVec.ofNat 32 (bitlen s.p), r := expand s.hashOf s.seedBytes (bitlen s.p) }

/-- The stages of GENERATE from CUBE to DISC (`43_curve_generator.md` R176). -/
def generateWork (a : Nat) (s : State) : Except Raise State := do
  let t ← solveStages a s
  let d ← discStage t.p t.a3 t.b2val
  return { t with discr := d }

/-- DISC adds its register or its raise to the answer of SOLVE's stages. -/
theorem generateWork_answersCurve (a : Nat) {s : State} (h : 2 ≤ s.p) : AnswersCurve a s.p (generateWork a s) := by
  have stages := solveStages_answersCurve a h
  rw [generateWork]
  generalize solveStages a s = out at stages ⊢
  cases stages with
  | error ne_none => exact .error ne_none
  | @ok t relation sameP =>
    simp only [bind, Except.bind]
    rcases discStage_cases t.p t.a3 t.b2val with ⟨-, disc⟩ | ⟨-, singular⟩
    · rw [disc]
      exact .ok (t := { t with discr := _ }) relation sameP
    · rw [singular]
      exact .error (by decide)

/-- GENERATE refuses its operands at CHECK, or goes on to its work (`43_curve_generator.md` R176). -/
theorem generateStages_cases (adef : Bool) (s : State) :
    (2 ≤ s.p ∧ generateStages adef s = generateWork (s.effectiveA adef) s.expanded) ∨
    generateStages adef s = .error ⟨.badOperand, .check⟩ := by
  by_cases check : s.p < 2 ∨ (adef = true ∧ s.p < 3)
  · exact Or.inr (coefficientChecks_error check _)
  obtain ⟨h2, h3⟩ := coefficient_bounds check
  obtain ⟨modulus, coefficient⟩ := coefficientChecks_ok h2 h3
  rcases checkSeedLen_cases s with ⟨-, -, length⟩ | ⟨-, length⟩
  · exact Or.inl ⟨h2, by rw [generateStages, modulus, coefficient, length]; rfl⟩
  · exact Or.inr (by rw [generateStages, modulus, coefficient, length]; rfl)

theorem generateStages_answersCurve (adef : Bool) (s : State) :
    AnswersCurve (s.effectiveA adef) s.p (generateStages adef s) := by
  rcases generateStages_cases adef s with ⟨h2, past⟩ | refused
  · rw [past]
    exact generateWork_answersCurve (s.effectiveA adef) (s := s.expanded) h2
  · rw [refused]
    exact .error (by decide)

theorem solveChecked_answersCurve (adef : Bool) (s : State) :
    AnswersCurve (s.effectiveA adef) s.p (solveChecked adef s) := by
  by_cases check : s.p < 2 ∨ (adef = true ∧ s.p < 3)
  · rw [solveChecked, coefficientChecks_error check]
    exact .error (by decide)
  · obtain ⟨h2, h3⟩ := coefficient_bounds check
    rw [solveChecked_stages h2 h3]
    exact solveStages_answersCurve _ h2

/-- A completion without an error kept the results of its stages. -/
theorem settle_curveRelation {a p : Nat} {s : State} {ws : List DataReg} {ev : List PortEvent}
    {out : Except Raise State} (answers : AnswersCurve a p out) (success : (s.settle ws ev out).status.err = .none) :
    CurveRelation a (s.settle ws ev out) ∧ (s.settle ws ev out).p = p := by
  cases answers with
  | ok relation sameP => exact ⟨relation, sameP⟩
  | error ne_none => exact absurd success ne_none

/-- Settles O22: SOLVE and GENERATE end in the same stages, whose results satisfy the relation. -/
theorem solutionSatisfiesCurveRelation : Obligations.SolutionSatisfiesCurveRelation := by
  unfold Obligations.SolutionSatisfiesCurveRelation
  intro i adef s t command runs success
  have relation : CurveRelation (s.effectiveA adef) t ∧ t.p = s.p := by
    rcases command with rfl | rfl
    · cases runs
      exact settle_curveRelation (solveChecked_answersCurve adef s) success
    · cases runs
      exact settle_curveRelation (generateStages_answersCurve adef s) success
  obtain ⟨⟨first, second, lt, sum⟩, sameP⟩ := relation
  exact ⟨first, second, lt, sum, sameP⟩

end Sys2Proof.Machine
end

section
/-! Proofs: the discriminant checker (`42_discriminant_checker.md`), its command DISC. -/

namespace Sys2Proof.Machine

theorem discStage_ok {p a3 b2val : Nat} (h : (4 * a3 + 27 * b2val) % p ≠ 0) :
    discStage p a3 b2val = .ok ((4 * a3 + 27 * b2val) % p) := by
  rcases discStage_cases p a3 b2val with ⟨-, ok⟩ | ⟨zero, -⟩
  · exact ok
  · exact absurd zero h

theorem discStage_error {p a3 b2val : Nat} (h : (4 * a3 + 27 * b2val) % p = 0) :
    discStage p a3 b2val = .error ⟨.singularCurve, .disc⟩ := by
  rcases discStage_cases p a3 b2val with ⟨nonzero, -⟩ | ⟨-, error⟩
  · exact absurd h nonzero
  · exact error

/-- DISC refuses P < 2 at CHECK (R160). -/
theorem exec_disc_check {s : State} (h : s.p < 2) :
    exec .disc s = .next (({ s with discr := 0 } : State).completed .badOperand .check []) := by
  rw [exec, execDisc, discStages, checkModulus_error h]
  rfl

/-- DISC raises SINGULAR_CURVE where the discriminant is 0 (R160). -/
theorem exec_disc_error {s : State} (h : 2 ≤ s.p) (singular : (4 * s.a3 + 27 * s.b2val) % s.p = 0) :
    exec .disc s = .next (({ s with discr := 0 } : State).completed .singularCurve .disc []) := by
  rw [exec, execDisc, discStages, checkModulus_ok h, discStage_error singular]
  rfl

/-- DISC writes a discriminant that is not 0 (R160). -/
theorem exec_disc_ok {s : State} (h : 2 ≤ s.p) (nonsingular : (4 * s.a3 + 27 * s.b2val) % s.p ≠ 0) :
    exec .disc s = .next
      (({ s with discr := (4 * s.a3 + 27 * s.b2val) % s.p } : State).completed .none .fin []) := by
  rw [exec, execDisc, discStages, checkModulus_ok h, discStage_ok nonsingular]
  rfl

/-- Settles O23: the operand check, then the discriminant; one that is not 0 is a residue from 1 to P − 1. -/
theorem discCommand : Obligations.DiscCommand := by
  unfold Obligations.DiscCommand
  refine ⟨commandHeader_of_encode (by decide) Sys2Proof.Laws.EncodeDecode.disc, fun s =>
    ⟨exec_disc_check, exec_disc_error, fun h nonsingular => ?_⟩⟩
  have lt : (4 * s.a3 + 27 * s.b2val) % s.p < s.p := Nat.mod_lt _ (by omega)
  exact ⟨exec_disc_ok h nonsingular, Nat.pos_of_ne_zero nonsingular, Nat.le_sub_one_of_lt lt⟩

end Sys2Proof.Machine
end

section
/-! Proofs: GENERATE (`43_curve_generator.md` R176, R179), the one state in which it can succeed and what holds of the
registers there. -/

namespace Sys2Proof.Machine

/-! What a success computed (R176). -/

/-- The working values of a successful GENERATE on the modulus p, for the coefficient a and the expanded r: the inverse
x of r, the root b of a³ · x, and a discriminant that is not 0. -/
structure CurveSolution (p a r x b : Nat) : Prop where
  inverse : r * x % p = 1
  root : modSqrt p (a ^ 3 % p * x % p) = .ok b
  nonsingular : (4 * (a ^ 3 % p) + 27 * (a ^ 3 % p * x % p)) % p ≠ 0

/-- The results of the stages CUBE to DISC for the coefficient a, with x the inverse of R and b the root. -/
def State.generated (s : State) (a x b : Nat) : State :=
  { s.solved a x b with discr := (4 * (a ^ 3 % s.p) + 27 * (a ^ 3 % s.p * x % s.p)) % s.p }

/-- The stages CUBE to DISC answer a state only where INV, SQRT and DISC raise nothing. -/
theorem generateWork_ok {a : Nat} {s t : State} (h : 2 ≤ s.p) (ok : generateWork a s = .ok t) :
    ∃ x b, CurveSolution s.p a s.r x b ∧ t = s.generated a x b := by
  rw [generateWork] at ok
  rcases invStage_cases s.p s.r h with ⟨-, x, found, -, inverse⟩ | ⟨-, noInverse⟩
  · cases answer : modSqrt s.p (a ^ 3 % s.p * x % s.p) with
    | ok b =>
      rw [solveStages_ok found answer] at ok
      simp only [bind, Except.bind, State.solved] at ok
      rcases discStage_cases s.p (a ^ 3 % s.p) (a ^ 3 % s.p * x % s.p) with ⟨nonsingular, disc⟩ | ⟨-, disc⟩
      · rw [disc] at ok
        cases ok
        exact ⟨x, b, ⟨inverse, answer, nonsingular⟩, rfl⟩
      · rw [disc] at ok
        cases ok
    | error k =>
      rw [solveStages_sqrt found answer] at ok
      cases ok
  · rw [solveStages_inv noInverse] at ok
    cases ok

/-- The one way in which GENERATE completes without an error. -/
theorem exec_generate_success {adef : Bool} {s t : State} (runs : exec (.generate adef) s = .next t)
    (success : t.status.err = .none) :
    ∃ x b, 2 ≤ s.p ∧ CurveSolution s.p (s.effectiveA adef) s.expanded.r x b ∧
      t = (s.expanded.generated (s.effectiveA adef) x b).completed .none .fin
        (portHistory s.hashOf (expandMessages s.seedBytes (bitlen s.p))) := by
  have answers := generateStages_answersCurve adef s
  rw [exec, execGenerate] at runs
  cases out : generateStages adef s with
  | error e =>
    rw [out] at answers runs
    cases runs
    cases answers with
    | error ne_none => exact absurd success ne_none
  | ok u =>
    rw [out] at runs
    cases runs
    rcases generateStages_cases adef s with ⟨h2, past⟩ | refused
    · obtain ⟨x, b, solution, rfl⟩ := generateWork_ok (s := s.expanded) h2 (past.symm.trans out)
      exact ⟨x, b, h2, solution, rfl⟩
    · rw [refused] at out
      cases out

/-! The facts of R179. -/

namespace CurveSolution

variable {p a r x b : Nat}

/-- A cube of 0 makes B2VAL and with it the discriminant 0. -/
theorem cube_ne_zero (h : CurveSolution p a r x b) : a ^ 3 % p ≠ 0 := by
  intro zero
  exact h.nonsingular (by simp [zero])

theorem r_ne_zero (h : CurveSolution p a r x b) : r ≠ 0 := by
  have inverse := h.inverse
  rw [Nat.mul_comm] at inverse
  exact Nat.ne_of_gt (pos_of_mul_mod_eq_one inverse)

theorem root_spec (h : CurveSolution p a r x b) (hp : 2 ≤ p) : b < p ∧ b * b % p = a ^ 3 % p * x % p := by
  obtain ⟨lt, square, -⟩ := modSqrt_ok hp h.root
  exact ⟨lt, square.trans (Nat.mod_mod _ _)⟩

/-- r · B2VAL ≡ a³, and a³ is not 0. -/
theorem square_ne_zero (h : CurveSolution p a r x b) (hp : 2 ≤ p) : a ^ 3 % p * x % p ≠ 0 := by
  obtain ⟨-, square⟩ := h.root_spec hp
  intro zero
  apply h.cube_ne_zero
  calc a ^ 3 % p = r * (b * b) % p := by rw [mul_root_mod h.inverse square, Nat.mod_mod]
    _ = 0 := by rw [Nat.mul_mod, square, zero, Nat.mul_zero, Nat.zero_mod]

theorem root_pos (h : CurveSolution p a r x b) (hp : 2 ≤ p) : 1 ≤ b := by
  obtain ⟨-, square⟩ := h.root_spec hp
  rcases Nat.eq_zero_or_pos b with rfl | pos
  · exact absurd square.symm (h.square_ne_zero hp)
  · exact pos

end CurveSolution

/-- LBITS holds the bit length without loss, since P is a W-bit value. -/
theorem bitlen_word_toNat {s : State} (inv : s.Inv) : (BitVec.ofNat 32 (bitlen s.p)).toNat = bitlen s.p := by
  have leWidth : bitlen s.p ≤ s.cfg.width := bitlen_le_iff.mpr (inv.regsFit .p)
  have := width_le_of_wellFormed inv.params
  rw [BitVec.toNat_ofNat, Nat.mod_eq_of_lt (by omega)]

/-- Settles O28: a success is the one state of the solution, where the bounds are those of the bit length and of the
expansion, and the rest are facts of the solution. -/
theorem generateResultFacts : Obligations.GenerateResultFacts := by
  unfold Obligations.GenerateResultFacts
  intro adef s t inv prime runs success
  obtain ⟨x, b, -, solution, rfl⟩ := exec_generate_success runs success
  have h2 := prime.two_le
  have lbits := bitlen_word_toNat inv
  have bounds : s.expanded.r < 2 ^ (bitlen s.p - 1) ∧ 2 ^ (bitlen s.p - 1) ≤ s.p :=
    ⟨expand_lt _ _ (by rw [bitlen_of_pos prime.pos]; omega), two_pow_bitlen_le prime.pos⟩
  obtain ⟨lt, square⟩ := solution.root_spec h2
  obtain ⟨first, second, -⟩ := solved_curveRelation (s := s.expanded) h2 solution.inverse solution.root
  exact ⟨rfl, lbits, lbits.symm ▸ bounds.1, lbits.symm ▸ bounds.2, solution.r_ne_zero, rfl, solution.cube_ne_zero,
    solution.inverse, rfl, solution.square_ne_zero h2, square, solution.root_pos h2, Nat.le_sub_one_of_lt lt, rfl,
    first, second, rfl, solution.nonsingular⟩

end Sys2Proof.Machine
end

section
/-! Proofs: the system commands NOP and CLEAR (`44_system_commands.md` R190, R191). -/

namespace Sys2Proof.Machine

/-! A command from the host's write to its completion (`30_encoding.md` R101, `RUN M`). -/

theorem target_cmd (c : Params) : target c 0x010 = .cmd := rfl

/-- The state after the host's write of a command to CMD of an idle block, with the schedule `ts` to go. -/
def State.afterCmd (s : State) (i : Instr) (ts : List Turn) : State :=
  { s.accept (encode i) with reply := .ack, turns := ts }

/-- `CMD M` at an idle block is accepted (`10_state.md` R38). -/
theorem step_hostCmd {s : State} {i : Instr} {ts : List Turn} (turns : s.turns = hostCmd i :: ts)
    (idle : s.status.busy = false) : step s = .next (s.afterCmd i ts) := by
  have valid : validAccess 0x010 4 = true := rfl
  have stillIdle : ({ s with turns := ts } : State).status.busy = false := idle
  rw [step_access turns, access_write _ valid, State.memWrite, target_cmd, whenIdle_idle _ stillIdle]
  rfl

/-- The accepted command runs in the block's turn (`70_reset_and_hazards.md` R253). -/
theorem step_afterCmd_run (s : State) {i : Instr} (ts : List Turn) (legal : decode (encode i) = .ok i) :
    step (s.afterCmd i (.run :: ts)) = exec i (s.afterCmd i ts) :=
  have word : (s.afterCmd i ts).cmd = encode i := rfl
  (step_run rfl).trans (runCommand_legal (s := s.afterCmd i ts) rfl (word.symm ▸ legal))

/-- The first two turns of `RUN M` from an idle block: the write to CMD, then the command on the accepted state. -/
theorem run_hostCmd_run {s t : State} {i : Instr} {ts : List Turn} (legal : decode (encode i) = .ok i)
    (idle : s.status.busy = false) (turns : s.turns = hostCmd i :: .run :: ts)
    (runs : exec i (s.afterCmd i ts) = .next t) : Host.Core.run Sys2Proof.core 2 s = .next t := by
  rw [run_succ 1 (step_hostCmd turns idle), run_succ 0 ((step_afterCmd_run s ts legal).trans runs), run_zero]

/-! NOP (R190). -/

/-- After a completion `irq` is CTRL.IE (`60_exceptions.md` R217). -/
@[simp] theorem completed_irq (s : State) (k : ErrKind) (st : Stage) (ev : List PortEvent) :
    (s.completed k st ev).irq = s.ctrl.ie := by
  rw [State.irq, State.completed_status, State.completed_ctrl, Bool.true_and]

/-- NOP completes and does nothing else (R190). -/
theorem exec_nop (s : State) : exec .nop s = .next (s.completed .none .fin []) := by
  rw [exec, execNop, settle_ok]

/-- Settles O30: NOP is the bare completion, and from reset the host's write to CMD brings it about. -/
theorem nopCommand : Obligations.NopCommand := by
  unfold Obligations.NopCommand
  obtain ⟨-, -, legal, -⟩ := Sys2Proof.Laws.EncodeDecode.nop
  refine ⟨commandHeader_of_encode (by decide) Sys2Proof.Laws.EncodeDecode.nop,
    fun s => ⟨exec_nop s, completed_irq s .none .fin []⟩, _, run_hostCmd_run legal rfl rfl (exec_nop _), ?_⟩
  rw [State.completed_status]
  decide

/-! CLEAR (R191). -/

/-- Every data register 0, and nothing else changed (R191). -/
def State.cleared (s : State) : State :=
  { s with
    p := 0, a := 0, r := 0, a3 := 0, rinv := 0, b2val := 0, b1 := 0, b2 := 0, discr := 0, lbits := 0, seedlen := 0,
    seed := List.replicate s.cfg.seedMax 0 }

/-- The write set of CLEAR is all of the data registers. -/
theorem zeroSet_writeSet_clear (s : State) : s.zeroSet (writeSet .clear) = s.cleared := rfl

/-- CLEAR has no failing path: it zeroes the data registers and completes (R191). -/
theorem exec_clear (s : State) : exec .clear s = .next (s.cleared.completed .none .fin []) := by
  rw [exec, execClear, settle_ok, zeroSet_writeSet_clear]

theorem runOne_clear (s : State) : runOne .clear s = .next (s.cleared.ran .clear .none .fin) :=
  exec_clear (s.accept (encode .clear))

/-- No command but CLEAR writes a register outside the write set of GENERATE (`10_state.md` R48). -/
theorem writeSet_subset_generate {i : Instr} (h : i ≠ .clear) : writeSet i ⊆ writeSet (.generate false) := by
  cases i with
  | clear => exact absurd rfl h
  | _ => simp [writeSet]

/-- The registers that only the host and CLEAR write: the modulus, the coefficient and the seed (`10_state.md` R48). -/
theorem not_mem_writeSet_of_input {i : Instr} {x : DataReg} (h : i ≠ .clear)
    (input : x ∈ [DataReg.big .p, .big .a, .seed, .seedlen]) : x ∉ writeSet i := by
  have disjoint : ∀ y ∈ [DataReg.big .p, .big .a, .seed, .seedlen], y ∉ writeSet (.generate false) := by decide
  exact fun written => disjoint x input (writeSet_subset_generate h written)

/-- Settles O31: CLEAR is the completion of the cleared state, its word is the one accepted, and the write set of every
other command lies within that of GENERATE. -/
theorem clearCommand : Obligations.ClearCommand := by
  unfold Obligations.ClearCommand
  have word : encode .clear = 0x0000000A := by decide
  refine ⟨commandHeader_of_encode word Sys2Proof.Laws.EncodeDecode.clear, exec_clear, fun s t runs => ?_,
    fun _ _ => not_mem_writeSet_of_input⟩
  rw [runOne_clear] at runs
  cases runs
  exact ⟨word, rfl, rfl⟩

end Sys2Proof.Machine
end

section
/-! Proofs: errors and completions (`60_exceptions.md` R214, R217, R221). What the stages of every command can end with,
said once; from it the causes of BAD_OPERAND, the write set after an error, and `irq` after a completion. -/

namespace Sys2Proof.Machine

/-! The state after an error (R221). -/

theorem zeroReg_completed {s : State} {x : DataReg} (k : ErrKind) (st : Stage) (ev : List PortEvent)
    (h : ZeroReg s x) : ZeroReg (s.completed k st ev) x := by
  cases x with
  | big x => exact (State.completed_big s k st ev x).trans h
  | _ => exact h

theorem sameReg_completed {s t : State} {x : DataReg} (k : ErrKind) (st : Stage) (ev : List PortEvent)
    (h : SameReg s t x) : SameReg s (t.completed k st ev) x := by
  cases x with
  | big x => exact Eq.trans h (State.completed_big t k st ev x).symm
  | _ => exact h

/-- Settles O33: an error is a completion over the zeroed write set; a success has no error. -/
theorem errorZeroesTheWriteSet : Obligations.ErrorZeroesTheWriteSet := by
  unfold Obligations.ErrorZeroesTheWriteSet
  intro i s t runs failed
  obtain ⟨ev, out, settled⟩ := exec_settle i s
  rw [settled] at runs
  cases runs
  rcases settle_cases s (writeSet i) ev out with ⟨u, -, success⟩ | ⟨e, -, error⟩
  · rw [success] at failed
    exact absurd rfl failed
  · rw [error]
    exact ⟨fun x written => zeroReg_completed _ _ _ (zeroSet_zero _ s written),
      fun x kept => sameReg_completed _ _ _ (zeroSet_frame _ s kept)⟩

/-! What the stages of a command can end with (`43_curve_generator.md` R172, R173). -/

/-- The moduli that stage SQRT refuses (`41_modular_solver.md` R149). -/
def EvenModulus (p : Nat) : Prop := p % 2 = 0 ∧ 2 < p

/-- How the stages after CHECK can end, on a state with the modulus p and the CTRL c. `root` says whether stage SQRT is
among them: then an even P > 2 is not got past. -/
inductive PastCheck (p : Nat) (c : Ctrl) (root : Prop) : Except Raise State → Prop
  | ok {t : State} (sameCtrl : t.ctrl = c) (rooted : root → ¬ EvenModulus p) : PastCheck p c root (.ok t)
  | noInverse : PastCheck p c root (.error ⟨.noInverse, .inv⟩)
  | noRoot (notEven : ¬ EvenModulus p) : PastCheck p c root (.error ⟨.noSquareRoot, .sqrt⟩)
  | evenModulus (even : EvenModulus p) : PastCheck p c root (.error ⟨.badOperand, .sqrt⟩)
  | singular (rooted : root → ¬ EvenModulus p) : PastCheck p c root (.error ⟨.singularCurve, .disc⟩)

/-- How the stages of a command can end: refused at CHECK for the cause `refused`, or past CHECK. -/
def StagesEnd (refused : Prop) (s : State) (root : Prop) (out : Except Raise State) : Prop :=
  (refused ∧ out = .error ⟨.badOperand, .check⟩) ∨ (¬ refused ∧ PastCheck s.p s.ctrl root out)

/-- An operand check refuses for the cause `c`. -/
def Refuses (check : Except Raise Unit) (c : Prop) : Prop :=
  (c ∧ check = .error ⟨.badOperand, .check⟩) ∨ (¬ c ∧ check = .ok ())

/-! The four operand checks (R214). -/

theorem checkModulus_refuses (s : State) : Refuses (checkModulus s) (s.p < 2) := by
  rcases checkModulus_cases s with ⟨le, ok⟩ | refused
  · exact Or.inr ⟨not_lt.mpr le, ok⟩
  · exact Or.inl refused

theorem checkDefaultA_refuses (adef : Bool) (s : State) :
    Refuses (checkDefaultA adef s) (adef = true ∧ s.p < 3) := by
  rcases checkDefaultA_cases adef s with ⟨le, ok⟩ | ⟨isDefault, lt, error⟩
  · exact Or.inr ⟨fun ⟨isDefault, lt⟩ => not_lt.mpr (le isDefault) lt, ok⟩
  · exact Or.inl ⟨⟨isDefault, lt⟩, error⟩

theorem checkSeedLen_refuses (s : State) :
    Refuses (checkSeedLen s) (s.seedlen.toNat < 1 ∨ s.cfg.seedMax < s.seedlen.toNat) := by
  rcases checkSeedLen_cases s with ⟨lo, hi, ok⟩ | refused
  · exact Or.inr ⟨not_or.mpr ⟨not_lt.mpr lo, not_lt.mpr hi⟩, ok⟩
  · exact Or.inl refused

theorem checkLbits_refuses (s : State) :
    Refuses (checkLbits s) (s.lbits.toNat < 1 ∨ s.cfg.width < s.lbits.toNat) := by
  rcases checkLbits_cases s with ⟨lo, hi, ok⟩ | refused
  · exact Or.inr ⟨not_or.mpr ⟨not_lt.mpr lo, not_lt.mpr hi⟩, ok⟩
  · exact Or.inl refused

section
variable {check : Except Raise Unit} {c refused root : Prop} {s : State} {out : Except Raise State}

/-- A command without operand checks. -/
theorem StagesEnd.unchecked (work : PastCheck s.p s.ctrl root out) : StagesEnd False s root out := Or.inr ⟨id, work⟩

/-- The last check of a command, then its work. -/
theorem StagesEnd.lastCheck (h : Refuses check c) (work : ¬ c → PastCheck s.p s.ctrl root out) :
    StagesEnd c s root (do check; out) := by
  rcases h with ⟨cause, error⟩ | ⟨fine, ok⟩
  · exact Or.inl ⟨cause, by rw [error]; rfl⟩
  · rw [ok]
    exact Or.inr ⟨fine, work fine⟩

/-- One check before the others adds its cause. -/
theorem StagesEnd.firstCheck (h : Refuses check c) (rest : ¬ c → StagesEnd refused s root out) :
    StagesEnd (c ∨ refused) s root (do check; out) := by
  rcases h with ⟨cause, error⟩ | ⟨fine, ok⟩
  · exact Or.inl ⟨Or.inl cause, by rw [error]; rfl⟩
  · rw [ok]
    rcases rest fine with ⟨later, error⟩ | ⟨none, past⟩
    · exact Or.inl ⟨Or.inr later, error⟩
    · exact Or.inr ⟨not_or.mpr ⟨fine, none⟩, past⟩

end

/-! Past CHECK: the square-root unit, the stages CUBE to SQRT and the work of GENERATE. -/

/-- The square-root unit answers a root on no even P > 2 (`41_modular_solver.md` R149). -/
theorem not_evenModulus_of_modSqrt_ok {p v x : Nat} (h : 2 ≤ p) (root : modSqrt p v = .ok x) : ¬ EvenModulus p := by
  obtain ⟨-, -, shape⟩ := modSqrt_ok h root
  rintro ⟨even, gt⟩
  omega

/-- What stage SQRT raises is BAD_OPERAND on an even P > 2 and NO_SQUARE_ROOT on every other P
(`41_modular_solver.md` R142, R149). -/
theorem pastCheck_of_modSqrt_error {s : State} {root : Prop} {v : Nat} {k : ErrKind} (h : 2 ≤ s.p)
    (noRoot : modSqrt s.p v = .error k) : PastCheck s.p s.ctrl root (.error ⟨k, .sqrt⟩) := by
  rcases modSqrt_error noRoot with ⟨rfl, even, ne_two⟩ | ⟨rfl, odd⟩
  · exact .evenModulus ⟨even, by omega⟩
  · exact .noRoot fun ⟨even, _⟩ => by omega

/-- SOLVE's stages (`41_modular_solver.md` R150). -/
theorem solveStages_pastCheck (a : Nat) {s : State} {root : Prop} (h : 2 ≤ s.p) :
    PastCheck s.p s.ctrl root (solveStages a s) := by
  rcases invStage_cases s.p s.r h with ⟨-, x, found, -⟩ | ⟨-, noInverse⟩
  · cases answer : modSqrt s.p (a ^ 3 % s.p * x % s.p) with
    | ok b =>
      rw [solveStages_ok found answer]
      exact .ok rfl fun _ => not_evenModulus_of_modSqrt_ok h answer
    | error k =>
      rw [solveStages_sqrt found answer]
      exact pastCheck_of_modSqrt_error h answer
  · rw [solveStages_inv noInverse]
    exact .noInverse

/-- DISC follows only on a root, and adds its register or its raise (`43_curve_generator.md` R176). -/
theorem generateWork_pastCheck (a : Nat) {s : State} {root : Prop} (h : 2 ≤ s.p) :
    PastCheck s.p s.ctrl root (generateWork a s) := by
  have stages : PastCheck s.p s.ctrl root (solveStages a s) := solveStages_pastCheck a h
  rw [generateWork]
  generalize solveStages a s = out at stages ⊢
  cases stages with
  | noInverse => exact .noInverse
  | noRoot notEven => exact .noRoot notEven
  | evenModulus even => exact .evenModulus even
  | singular rooted => exact .singular rooted
  | @ok t sameCtrl rooted =>
    simp only [bind, Except.bind]
    rcases discStage_cases t.p t.a3 t.b2val with ⟨-, disc⟩ | ⟨-, singular⟩
    · rw [disc]
      exact .ok sameCtrl rooted
    · rw [singular]
      exact .singular rooted

/-! The stages of each command, checks first. -/

/-- The causes for which CHECK refuses a command, by its row of the table of R214. -/
def CheckCause (s : State) : Instr → Prop
  | .nop => False
  | .bitlen => False
  | .expand =>
    (s.seedlen.toNat < 1 ∨ s.cfg.seedMax < s.seedlen.toNat) ∨ (s.lbits.toNat < 1 ∨ s.cfg.width < s.lbits.toNat)
  | .cube adef => s.p < 2 ∨ (adef = true ∧ s.p < 3)
  | .modinv => s.p < 2
  | .modmul => s.p < 2
  | .modsqrt => s.p < 2
  | .disc => s.p < 2
  | .solve adef => s.p < 2 ∨ (adef = true ∧ s.p < 3)
  | .generate adef =>
    s.p < 2 ∨ (adef = true ∧ s.p < 3) ∨ (s.seedlen.toNat < 1 ∨ s.cfg.seedMax < s.seedlen.toNat)
  | .clear => False

/-- Stage SQRT is on the command's path (`43_curve_generator.md` R171). -/
def TakesRoot (i : Instr) : Prop := Stage.sqrt ∈ stagePath i

theorem takesRoot_iff (i : Instr) :
    TakesRoot i ↔ i = .modsqrt ∨ ∃ adef, i = .solve adef ∨ i = .generate adef := by
  cases i <;> simp [TakesRoot, stagePath]

/-- How the stages of the command can end. -/
def CommandEnds (i : Instr) (s : State) (out : Except Raise State) : Prop :=
  StagesEnd (CheckCause s i) s (TakesRoot i) out

theorem expandStages_ends (s : State) : CommandEnds .expand s (expandStages s) :=
  .firstCheck (checkSeedLen_refuses s) fun _ => .lastCheck (checkLbits_refuses s) fun _ =>
    .ok rfl (by simp [takesRoot_iff])

theorem cubeStages_ends (adef : Bool) (s : State) : CommandEnds (.cube adef) s (cubeStages adef s) :=
  .firstCheck (checkModulus_refuses s) fun _ => .lastCheck (checkDefaultA_refuses adef s) fun _ =>
    .ok rfl (by simp [takesRoot_iff])

theorem modinvStages_ends (s : State) : CommandEnds .modinv s (modinvStages s) :=
  .lastCheck (checkModulus_refuses s) fun h => by
    rcases invStage_cases s.p s.r (not_lt.mp h) with ⟨-, x, found, -⟩ | ⟨-, noInverse⟩
    · rw [found]
      exact .ok rfl (by simp [takesRoot_iff])
    · rw [noInverse]
      exact .noInverse

theorem modmulStages_ends (s : State) : CommandEnds .modmul s (modmulStages s) :=
  .lastCheck (checkModulus_refuses s) fun _ => .ok rfl (by simp [takesRoot_iff])

theorem modsqrtStages_ends (s : State) : CommandEnds .modsqrt s (modsqrtStages s) :=
  .lastCheck (checkModulus_refuses s) fun h => by
    cases answer : modSqrt s.p s.b2val with
    | ok x =>
      rw [sqrtStage_ok answer]
      exact .ok rfl fun _ => not_evenModulus_of_modSqrt_ok (not_lt.mp h) answer
    | error k =>
      rw [sqrtStage_error answer]
      exact pastCheck_of_modSqrt_error (not_lt.mp h) answer

theorem discStages_ends (s : State) : CommandEnds .disc s (discStages s) :=
  .lastCheck (checkModulus_refuses s) fun _ => by
    rcases discStage_cases s.p s.a3 s.b2val with ⟨-, disc⟩ | ⟨-, singular⟩
    · rw [disc]
      exact .ok rfl (by simp [takesRoot_iff])
    · rw [singular]
      exact .singular (by simp [takesRoot_iff])

theorem solveChecked_ends (adef : Bool) (s : State) : CommandEnds (.solve adef) s (solveChecked adef s) :=
  .firstCheck (checkModulus_refuses s) fun h => .lastCheck (checkDefaultA_refuses adef s) fun _ =>
    solveStages_pastCheck _ (not_lt.mp h)

theorem generateStages_ends (adef : Bool) (s : State) : CommandEnds (.generate adef) s (generateStages adef s) :=
  .firstCheck (checkModulus_refuses s) fun h => .firstCheck (checkDefaultA_refuses adef s) fun _ =>
    .lastCheck (checkSeedLen_refuses s) fun _ =>
      generateWork_pastCheck (s.effectiveA adef) (s := s.expanded) (not_lt.mp h)

/-- The one completion of a command, over what its stages can end with. -/
theorem exec_ends (i : Instr) (s : State) :
    ∃ ev out, exec i s = .next (s.settle (writeSet i) ev out) ∧ CommandEnds i s out := by
  cases i with
  | nop => exact ⟨_, _, rfl, .unchecked (.ok rfl (by simp [takesRoot_iff]))⟩
  | bitlen => exact ⟨_, _, rfl, .unchecked (.ok rfl (by simp [takesRoot_iff]))⟩
  | expand => exact ⟨_, _, rfl, expandStages_ends s⟩
  | cube adef => exact ⟨_, _, rfl, cubeStages_ends adef s⟩
  | modinv => exact ⟨_, _, rfl, modinvStages_ends s⟩
  | modmul => exact ⟨_, _, rfl, modmulStages_ends s⟩
  | modsqrt => exact ⟨_, _, rfl, modsqrtStages_ends s⟩
  | disc => exact ⟨_, _, rfl, discStages_ends s⟩
  | solve adef => exact ⟨_, _, rfl, solveChecked_ends adef s⟩
  | generate adef => exact ⟨_, _, rfl, generateStages_ends adef s⟩
  | clear => exact ⟨_, _, rfl, .unchecked (.ok (State.zeroSet_ctrl s _) (by simp [takesRoot_iff]))⟩

/-! The causes of BAD_OPERAND (R214). -/

/-- The causes at CHECK by cause instead of by command: the rows of the table of R214. -/
theorem checkCause_iff (i : Instr) (s : State) : CheckCause s i ↔
    (s.p < 2 ∧ (i = .modinv ∨ i = .modmul ∨ i = .modsqrt ∨ i = .disc ∨
      ∃ adef, i = .cube adef ∨ i = .solve adef ∨ i = .generate adef)) ∨
    (s.p < 3 ∧ (i = .cube true ∨ i = .solve true ∨ i = .generate true)) ∨
    ((s.seedlen.toNat < 1 ∨ s.cfg.seedMax < s.seedlen.toNat) ∧ (i = .expand ∨ ∃ adef, i = .generate adef)) ∨
    ((s.lbits.toNat < 1 ∨ s.cfg.width < s.lbits.toNat) ∧ i = .expand) := by
  cases i <;> simp [CheckCause, and_comm]

section
variable {refused root : Prop} {s : State} {out : Except Raise State}

/-- BAD_OPERAND at CHECK is the refusal of an operand check. -/
theorem StagesEnd.badOperand_check_iff (ends : StagesEnd refused s root out) (ws : List DataReg)
    (ev : List PortEvent) : (s.settle ws ev out).status.err = .badOperand ∧
      (s.settle ws ev out).status.stage = .check ↔ refused := by
  rcases ends with ⟨cause, rfl⟩ | ⟨fine, past⟩
  · simp [cause]
  · cases past <;> simp [fine]

/-- At SQRT, BAD_OPERAND is the error of an even P > 2 and of no other P. -/
theorem StagesEnd.badOperand_sqrt_iff (ends : StagesEnd refused s root out) (ws : List DataReg)
    (ev : List PortEvent) : (s.settle ws ev out).status.err = .badOperand ∧
      (s.settle ws ev out).status.stage = .sqrt ↔
        (s.settle ws ev out).status.stage = .sqrt ∧ EvenModulus s.p := by
  rcases ends with ⟨-, rfl⟩ | ⟨-, past⟩
  · simp
  · cases past with
    | noRoot notEven => simp [notEven]
    | evenModulus even => simp [even]
    | _ => simp

/-- With an even P > 2 the stages after SQRT are not reached. -/
theorem StagesEnd.not_past_sqrt (ends : StagesEnd refused s root out) (ws : List DataReg)
    (ev : List PortEvent) (taken : root) (even : EvenModulus s.p) :
    (s.settle ws ev out).status.stage ≠ .fin ∧ (s.settle ws ev out).status.stage ≠ .disc := by
  rcases ends with ⟨-, rfl⟩ | ⟨-, past⟩
  · simp
  · cases past with
    | ok _ rooted => exact absurd even (rooted taken)
    | singular rooted => exact absurd even (rooted taken)
    | _ => simp

end

/-- MODSQRT itself ends so on an even P > 2 (`41_modular_solver.md` R149). -/
theorem exec_modsqrt_even {s : State} (even : EvenModulus s.p) :
    exec .modsqrt s = .next (({ s with b1 := 0, b2 := 0 } : State).completed .badOperand .sqrt []) :=
  exec_modsqrt_error even.2.le (modSqrt_even s.b2val even.2.ne' even.1)

/-- Settles O35, each clause from what the stages of a command can end with. -/
theorem badOperandCauses : Obligations.BadOperandCauses := by
  unfold Obligations.BadOperandCauses
  intro i s t runs
  have modsqrt : i = .modsqrt → s.p % 2 = 0 → 2 < s.p → t.status.err = .badOperand ∧ t.status.stage = .sqrt := by
    rintro rfl even gt
    rw [exec_modsqrt_even ⟨even, gt⟩] at runs
    cases runs
    exact ⟨rfl, rfl⟩
  obtain ⟨ev, out, settled, ends⟩ := exec_ends i s
  rw [settled] at runs
  cases runs
  exact ⟨(ends.badOperand_check_iff _ ev).trans (checkCause_iff i s), ends.badOperand_sqrt_iff _ ev,
    fun even gt taken => ends.not_past_sqrt _ ev ((takesRoot_iff i).mpr taken) ⟨even, gt⟩, modsqrt⟩

/-! The interrupt output (R217). -/

theorem target_ctrl (c : Params) : target c 0x008 = .ctrl := rfl

theorem target_status (c : Params) : target c 0x00C = .status := rfl

/-- A write of CTRL stores IE and nothing else, whether or not a command runs (`10_state.md` R37). -/
theorem access_write_ctrl (s : State) (v : Word) :
    s.access (.write 0x008 4 v) = { s with ctrl := Ctrl.ofWrite v, reply := .ack } := by
  rw [access_write s rfl, State.memWrite, target_ctrl]

/-- A write of STATUS clears the bits written as 1 (`10_state.md` R36). -/
theorem access_write_status (s : State) (v : Word) :
    s.access (.write 0x00C 4 v) = { s with status := s.status.writeOneToClear v, reply := .ack } := by
  rw [access_write s rfl, State.memWrite, target_status]

/-- Every completion raises DONE and leaves CTRL as it is. -/
theorem StagesEnd.irq_settle {refused root : Prop} {s : State} {out : Except Raise State}
    (ends : StagesEnd refused s root out) (ws : List DataReg) (ev : List PortEvent) :
    (s.settle ws ev out).irq = s.ctrl.ie := by
  cases out with
  | error e => rw [settle_error, completed_irq, State.zeroSet_ctrl]
  | ok t =>
    obtain ⟨-, impossible⟩ | ⟨-, ⟨sameCtrl, -⟩⟩ := ends
    · cases impossible
    · rw [settle_ok, completed_irq, sameCtrl]

/-- Settles O46: DONE and IE after a write of CTRL or STATUS, after an acceptance, and after a completion. -/
theorem interruptOutput : Obligations.InterruptOutput := by
  unfold Obligations.InterruptOutput
  intro s
  refine ⟨rfl, fun v => ?_, fun v one => ?_, fun w => ?_, fun i t runs => ?_, ?_⟩
  · rw [access_write_ctrl]
    rfl
  · rw [access_write_status]
    simp [State.irq, Status.writeOneToClear, one]
  · rw [State.irq, State.accept_status, Bool.false_and]
  · obtain ⟨ev, out, settled, ends⟩ := exec_ends i s
    rw [settled] at runs
    cases runs
    exact ends.irq_settle _ ev
  · rw [State.illegal_eq_completed, completed_irq]

end Sys2Proof.Machine
end

section
/-! Proofs: decode and encode of command words, and the words that encode no command (`30_encoding.md` sections 1
and 3). -/

namespace Sys2Proof

open Sys2Proof.Machine

/-! The fields of a word as numbers (R91). -/

theorem ofWord_zero_toNat (w : Word) : (CmdFields.ofWord w).zero.toNat = w.toNat / 2 ^ 9 := by
  have := w.isLt
  simp only [CmdFields.ofWord, BitVec.extractLsb'_toNat, Nat.shiftRight_eq_div_pow]
  omega

theorem ofWord_opc_toNat (w : Word) : (CmdFields.ofWord w).opc.toNat = w.toNat % 2 ^ 8 := by
  simp [CmdFields.ofWord, BitVec.extractLsb'_toNat]

theorem ofWord_adef (w : Word) : (CmdFields.ofWord w).adef = decide (w.toNat / 2 ^ 8 % 2 = 1) := by
  rw [CmdFields.ofWord, BitVec.getLsbD, Nat.testBit_eq_decide_div_mod_eq]

theorem toWord_toNat (f : CmdFields) :
    f.toWord.toNat = f.zero.toNat * 2 ^ 9 + f.adef.toNat * 2 ^ 8 + f.opc.toNat := by
  have opc := f.opc.isLt
  have adef : f.adef.toNat < 2 ^ 1 := Bool.toNat_lt f.adef
  simp only [CmdFields.toWord, BitVec.toNat_append, BitVec.toNat_ofBool]
  rw [← Nat.shiftLeft_add_eq_or_of_lt opc, ← Nat.shiftLeft_add_eq_or_of_lt adef]
  simp only [Nat.shiftLeft_eq]
  omega

/-- The three fields are the whole word. -/
theorem toWord_ofWord (w : Word) : (CmdFields.ofWord w).toWord = w := by
  apply BitVec.eq_of_toNat_eq
  rw [toWord_toNat, ofWord_zero_toNat, ofWord_opc_toNat, ofWord_adef]
  by_cases bit : w.toNat / 2 ^ 8 % 2 = 1
  · simp only [bit, decide_true, Bool.toNat_true]
    omega
  · simp only [bit, decide_false, Bool.toNat_false]
    omega

/-! Decode by the three tests of R97. -/

/-- The row of an OPC value up to 0x0A, with ADEF where the row has it (R92). -/
theorem commandOfOpc_fields {opc : Nat} {adef : Bool} (known : opc ≤ 0x0A)
    (allowed : adef = true → opc = 0x03 ∨ opc = 0x08 ∨ opc = 0x09) :
    ∃ i, commandOfOpc opc adef = some i ∧ i.fields = ⟨BitVec.ofNat 8 opc, adef, 0⟩ := by
  cases adef with
  | true => rcases allowed rfl with rfl | rfl | rfl <;> exact ⟨_, rfl, rfl⟩
  | false => interval_cases opc <;> exact ⟨_, rfl, rfl⟩

theorem wellFormed_iff (f : CmdFields) :
    f.wellFormed = true ↔ f.zero = 0 ∧ f.opc.toNat ≤ 0x0A ∧
      (f.adef = true → f.opc.toNat = 0x03 ∨ f.opc.toNat = 0x08 ∨ f.opc.toNat = 0x09) := by
  simp only [CmdFields.wellFormed, CmdFields.zeroOk, CmdFields.opcOk, CmdFields.adefOk, Bool.and_eq_true,
    Bool.or_eq_true, beq_iff_eq, decide_eq_true_eq, Bool.not_eq_true', BitVec.toNat_eq]
  cases f.adef <;> simp [and_assoc, or_assoc]

/-- The third test of the decoder, on numbers. -/
theorem adefTest_iff (opc : BitVec 8) (adef : Bool) :
    (adef && !(opc == 0x03 || opc == 0x08 || opc == 0x09)) = true ↔
      ¬ (adef = true → opc.toNat = 0x03 ∨ opc.toNat = 0x08 ∨ opc.toNat = 0x09) := by
  cases adef <;> simp [BitVec.toNat_eq, and_assoc]

/-- A word decodes exactly where its fields pass the three tests, and then to the command with those fields. -/
theorem decode_cases (w : Word) :
    ((CmdFields.ofWord w).wellFormed = true ∧ ∃ i, decode w = .ok i ∧ i.fields = CmdFields.ofWord w) ∨
    (¬ (CmdFields.ofWord w).wellFormed = true ∧ ∃ e, decode w = .error e) := by
  rw [wellFormed_iff, decode]
  generalize CmdFields.ofWord w = f
  obtain ⟨opc, adef, zero⟩ := f
  dsimp only
  by_cases zeroOk : zero = 0
  · rw [if_neg (not_not.mpr zeroOk)]
    by_cases opcOk : opc.toNat ≤ 0x0A
    · rw [if_neg (not_lt.mpr opcOk)]
      by_cases adefOk : adef = true → opc.toNat = 0x03 ∨ opc.toNat = 0x08 ∨ opc.toNat = 0x09
      · obtain ⟨i, row, fields⟩ := commandOfOpc_fields opcOk adefOk
        rw [if_neg (by rwa [adefTest_iff, not_not]), row]
        exact Or.inl ⟨⟨zeroOk, opcOk, adefOk⟩, i, rfl, by rw [fields, zeroOk, BitVec.ofNat_toNat, BitVec.setWidth_eq]⟩
      · rw [if_pos (by rwa [adefTest_iff])]
        exact Or.inr ⟨fun ⟨_, _, allowed⟩ => adefOk allowed, _, rfl⟩
    · rw [if_pos (not_le.mp opcOk)]
      exact Or.inr ⟨fun ⟨_, known, _⟩ => opcOk known, _, rfl⟩
  · rw [if_pos zeroOk]
    exact Or.inr ⟨fun ⟨isZero, _⟩ => zeroOk isZero, _, rfl⟩

/-- A decoded command has the fields of its word. -/
theorem fields_of_decode {w : Word} {i : Instr} (h : decode w = .ok i) : i.fields = CmdFields.ofWord w := by
  rcases decode_cases w with ⟨-, j, decoded, fields⟩ | ⟨-, e, refused⟩
  · rw [h] at decoded
    cases decoded
    exact fields
  · rw [h] at refused
    cases refused

/-! Both directions (R92). -/

/-- The row of every command. -/
theorem commandRow : ∀ i : Instr, Laws.EncodeDecode.Statement i
  | .nop => Laws.EncodeDecode.nop
  | .bitlen => Laws.EncodeDecode.bitlen
  | .expand => Laws.EncodeDecode.expand
  | .cube adef => Laws.EncodeDecode.cube adef
  | .modinv => Laws.EncodeDecode.modinv
  | .modmul => Laws.EncodeDecode.modmul
  | .modsqrt => Laws.EncodeDecode.modsqrt
  | .disc => Laws.EncodeDecode.disc
  | .solve adef => Laws.EncodeDecode.solve adef
  | .generate adef => Laws.EncodeDecode.generate adef
  | .clear => Laws.EncodeDecode.clear

theorem decode_encode (i : Instr) : decode (encode i) = .ok i := by
  obtain ⟨-, -, decoded, -⟩ := commandRow i
  exact decoded

theorem encode_of_decode {w : Word} {i : Instr} (h : decode w = .ok i) : encode i = w := by
  rw [encode, fields_of_decode h, toWord_ofWord]

/-- Settles O1: a decoded command has the fields of its word, and three fields are the whole word. -/
theorem decodeEncodeAgree : Obligations.DecodeEncodeAgree := by
  unfold Obligations.DecodeEncodeAgree
  exact fun w i => ⟨encode_of_decode, fun word => word ▸ decode_encode i⟩

/-- Settles O3: each word is the encoding of its command. -/
theorem legalWordsDecode : Obligations.LegalWordsDecode := by
  unfold Obligations.LegalWordsDecode
  exact ⟨decode_encode .nop, decode_encode .bitlen, decode_encode .expand, decode_encode (.cube false),
    decode_encode (.cube true), decode_encode .modinv, decode_encode .modmul, decode_encode .modsqrt,
    decode_encode .disc, decode_encode (.solve false), decode_encode (.solve true), decode_encode (.generate false),
    decode_encode (.generate true), decode_encode .clear⟩

/-! Illegal words (R97). -/

/-- The three tests in integer arithmetic. -/
theorem decode_error_iff (w : Word) : (∃ e, decode w = .error e) ↔
    (w.toNat / 2 ^ 9 ≠ 0 ∨ 0x0A < w.toNat % 2 ^ 8 ∨
      (w.toNat / 2 ^ 8 % 2 = 1 ∧ w.toNat % 2 ^ 8 ≠ 0x03 ∧ w.toNat % 2 ^ 8 ≠ 0x08 ∧ w.toNat % 2 ^ 8 ≠ 0x09)) := by
  have refused : (∃ e, decode w = .error e) ↔ ¬ (CmdFields.ofWord w).wellFormed = true := by
    rcases decode_cases w with ⟨legal, i, decoded, -⟩ | ⟨illegal, error⟩
    · simp [legal, decoded]
    · exact iff_of_true error illegal
  have zero : (CmdFields.ofWord w).zero = 0 ↔ w.toNat / 2 ^ 9 = 0 := by
    rw [BitVec.toNat_eq, ofWord_zero_toNat]
    rfl
  rw [refused, wellFormed_iff, zero, ofWord_opc_toNat, ofWord_adef, decide_eq_true_eq]
  omega

/-- Settles O2: the tests on the fields, read as integers; and a running block with such a word raises ILLEGAL_CMD in
its next turn, atomic or stagewise. -/
theorem illegalWords : Obligations.IllegalWords := by
  unfold Obligations.IllegalWords
  refine ⟨decode_error_iff, fun w i decoded => ?_, fun s e ts busy refused turns => ?_⟩
  · rw [fields_of_decode decoded, ofWord_opc_toNat]
  · rcases turns with run | work
    · rw [step_run run]
      exact runCommand_illegal (s := { s with turns := ts }) busy refused
    · rw [step_work work]
      exact workStage_illegal (s := { s with turns := ts }) busy refused

end Sys2Proof
end

section
/-! Proofs: what every command leaves (`60_exceptions.md` sections 1 and 4, `10_state.md` R43, R46, R48). Said once: a
command rewrites registers of its write set, and completes at a stage of its path with an error of that stage or
none. -/

namespace Sys2Proof.Machine

/-! Registers of a write set, rewritten. -/

/-- t is s with registers of ws rewritten: a big-integer register with a value at most P or of W bits
(`41_modular_solver.md` R132), the seed buffer with zeros. -/
inductive Written (ws : List DataReg) (s : State) : State → Prop
  | refl : Written ws s s
  | big {t : State} {x : BigReg} {v : Nat} (before : Written ws s t) (mem : .big x ∈ ws)
      (fits : v ≤ s.p ∨ v < 2 ^ s.cfg.width) : Written ws s (t.setBig v x)
  | lbits {t : State} {v : Word} (before : Written ws s t) (mem : .lbits ∈ ws) : Written ws s { t with lbits := v }
  | seedlen {t : State} {v : Word} (before : Written ws s t) (mem : .seedlen ∈ ws) :
      Written ws s { t with seedlen := v }
  | seed {t : State} (before : Written ws s t) (mem : .seed ∈ ws) :
      Written ws s { t with seed := List.replicate t.cfg.seedMax 0 }

/-- What no command changes: the registers outside ws, the parameters, CTRL, CMD, WRBUSY, and the agents around the
block. -/
structure Frame (ws : List DataReg) (s t : State) : Prop where
  regs : ∀ x, x ∉ ws → SameReg s t x
  cfg : t.cfg = s.cfg
  ctrl : t.ctrl = s.ctrl
  cmd : t.cmd = s.cmd
  wrbusy : t.status.wrbusy = s.status.wrbusy
  turns : t.turns = s.turns
  reply : t.reply = s.reply
  draws : t.draws = s.draws
  hashTable : t.hashTable = s.hashTable

theorem sameReg_refl (s : State) (x : DataReg) : SameReg s s x := by
  cases x <;> rfl

theorem sameReg_trans {s t u : State} {x : DataReg} (h : SameReg s t x) (h' : SameReg t u x) : SameReg s u x := by
  cases x <;> exact Eq.trans h h'

theorem sameReg_setBig (s : State) (v : Nat) {x : BigReg} {y : DataReg} (ne : y ≠ .big x) :
    SameReg s (s.setBig v x) y := by
  cases y with
  | big y => exact (State.setBig_big_of_ne s v fun h => ne (congrArg _ h)).symm
  | lbits => exact (State.setBig_lbits s v x).symm
  | seedlen => exact (State.setBig_seedlen s v x).symm
  | seed => exact (State.setBig_seed s v x).symm

namespace Written

variable {ws : List DataReg} {s t : State}

theorem frame (h : Written ws s t) : Frame ws s t := by
  induction h with
  | refl => exact ⟨fun x _ => sameReg_refl s x, rfl, rfl, rfl, rfl, rfl, rfl, rfl, rfl⟩
  | @big t x v _ mem _ ih =>
    obtain ⟨regs, cfg, ctrl, cmd, wrbusy, turns, reply, draws, hashTable⟩ := ih
    exact ⟨fun y kept => sameReg_trans (regs y kept) (sameReg_setBig t v fun h => kept (h ▸ mem)), by simpa, by simpa,
      by simpa, by simpa, by simpa, by simpa, by simpa, by simpa⟩
  | lbits _ mem ih =>
    refine { ih with regs := fun y kept => ?_ }
    cases y with
    | lbits => exact absurd mem kept
    | _ => exact ih.regs _ kept
  | seedlen _ mem ih =>
    refine { ih with regs := fun y kept => ?_ }
    cases y with
    | seedlen => exact absurd mem kept
    | _ => exact ih.regs _ kept
  | seed _ mem ih =>
    refine { ih with regs := fun y kept => ?_ }
    cases y with
    | seed => exact absurd mem kept
    | _ => exact ih.regs _ kept

/-- Every value written is at most P or has W bits, so the registers keep to W bits (R132). -/
theorem regsFit (h : Written ws s t) (fit : ∀ x : BigReg, s.big x < 2 ^ s.cfg.width) :
    ∀ x : BigReg, t.big x < 2 ^ s.cfg.width := by
  induction h with
  | refl => exact fit
  | @big t x v _ _ fits ih =>
    intro y
    by_cases same : y = x
    · subst same
      rw [State.setBig_big_self]
      exact fits.elim (fun le => le.trans_lt (fit .p)) id
    · rw [State.setBig_big_of_ne t v same]
      exact ih y
  | lbits _ _ ih => exact fun y => (by cases y <;> rfl : _ = State.big _ y).trans_lt (ih y)
  | seedlen _ _ ih => exact fun y => (by cases y <;> rfl : _ = State.big _ y).trans_lt (ih y)
  | seed _ _ ih => exact fun y => (by cases y <;> rfl : _ = State.big _ y).trans_lt (ih y)

/-- The seed buffer keeps SEEDMAX bytes (`10_state.md` R32). -/
theorem seedSize (h : Written ws s t) (size : s.seed.length = s.cfg.seedMax) : t.seed.length = s.cfg.seedMax := by
  induction h with
  | refl => exact size
  | big _ _ _ ih => rwa [State.setBig_seed]
  | lbits _ _ ih => exact ih
  | seedlen _ _ ih => exact ih
  | seed before _ _ => exact before.frame.cfg ▸ List.length_replicate

theorem zeroReg (h : Written ws s t) {d : DataReg} (mem : d ∈ ws) : Written ws s (t.zeroReg d) := by
  cases d with
  | big x => exact h.big mem (Or.inl (Nat.zero_le _))
  | lbits => exact h.lbits mem
  | seedlen => exact h.seedlen mem
  | seed => exact h.seed mem

theorem zeroSet {ds : List DataReg} (h : Written ws s t) (sub : ds ⊆ ws) : Written ws s (t.zeroSet ds) := by
  induction ds generalizing t with
  | nil => exact h
  | cons d ds ih => exact ih (h.zeroReg (sub List.mem_cons_self)) fun _ mem => sub (List.mem_cons_of_mem d mem)

end Written

/-! What the stages of every command answer (`43_curve_generator.md` R172, R173). -/

/-- The errors that a command can end with, each with the stage that raises it (`60_exceptions.md` R210). -/
def raisePairs : List (ErrKind × Stage) :=
  [(.noInverse, .inv), (.noSquareRoot, .sqrt), (.singularCurve, .disc), (.badOperand, .check), (.badOperand, .sqrt)]

/-- The stages of command i answer its write set rewritten, or an error of a stage on its path. -/
inductive Answers (i : Instr) (s : State) : Except Raise State → Prop
  | ok {t : State} (written : Written (writeSet i) s t) : Answers i s (.ok t)
  | error {e : Raise} (pair : (e.kind, e.stage) ∈ raisePairs) (onPath : e.stage ∈ stagePath i) : Answers i s (.error e)

section
variable {i : Instr} {s : State}

/-- An operand check, then the rest. -/
theorem Answers.check {test : Except Raise Unit} {c : Prop} {out : Except Raise State} (h : Refuses test c)
    (onPath : .check ∈ stagePath i) (rest : ¬ c → Answers i s out) : Answers i s (do test; out) := by
  rcases h with ⟨-, error⟩ | ⟨fine, ok⟩
  · rw [error]
    exact .error (by decide) onPath
  · rw [ok]
    exact rest fine

theorem Answers.noInverse (onPath : .inv ∈ stagePath i) : Answers i s (.error ⟨.noInverse, .inv⟩) :=
  .error (by decide) onPath

theorem Answers.singular (onPath : .disc ∈ stagePath i) : Answers i s (.error ⟨.singularCurve, .disc⟩) :=
  .error (by decide) onPath

theorem Answers.noRoot {p v : Nat} {k : ErrKind} (h : modSqrt p v = .error k) (onPath : .sqrt ∈ stagePath i) :
    Answers i s (.error ⟨k, .sqrt⟩) := by
  rcases modSqrt_error_kind h with rfl | rfl <;> exact .error (by decide) onPath

end

/-- The results of the stages CUBE to SQRT are residues modulo P, or P − B1 (`41_modular_solver.md` R132). -/
theorem Written.solved {ws : List DataReg} {s t : State} {a x b : Nat} (h : Written ws s t) (sameP : t.p = s.p)
    (sub : writeSet (.solve false) ⊆ ws) (pos : 2 ≤ s.p) (hx : x < s.p) (hb : b < s.p) :
    Written ws s (t.solved a x b) := by
  have residue (n : Nat) : n % t.p ≤ s.p := sameP ▸ (Nat.mod_lt n (by omega)).le
  have mem {d : DataReg} (h : d ∈ writeSet (.solve false)) : d ∈ ws := sub h
  have cube : Written ws s (t.setBig (a ^ 3 % t.p) .a3) := h.big (mem (by decide)) (Or.inl (residue _))
  have inverse : Written ws s _ := cube.big (x := .rinv) (v := x) (mem (by decide)) (Or.inl hx.le)
  have square : Written ws s _ :=
    inverse.big (x := .b2val) (v := a ^ 3 % t.p * x % t.p) (mem (by decide)) (Or.inl (residue _))
  have root : Written ws s _ := square.big (x := .b1) (v := b) (mem (by decide)) (Or.inl hb.le)
  exact root.big (x := .b2) (v := t.p - b) (mem (by decide)) (Or.inl (by omega))

theorem expandStages_answers (s : State) : Answers .expand s (expandStages s) :=
  .check (checkSeedLen_refuses s) (by decide) fun _ => .check (checkLbits_refuses s) (by decide) fun h => by
    have bound := expand_lt s.hashOf s.seedBytes (l := s.lbits.toNat) (by omega)
    have le : 2 ^ (s.lbits.toNat - 1) ≤ 2 ^ s.cfg.width := Nat.pow_le_pow_right (by decide) (by omega)
    exact .ok (Written.refl.big (x := .r) (by decide) (Or.inr (bound.trans_le le)))

theorem cubeStages_answers (adef : Bool) (s : State) : Answers (.cube adef) s (cubeStages adef s) :=
  .check (checkModulus_refuses s) (by simp [stagePath]) fun h =>
    .check (checkDefaultA_refuses adef s) (by simp [stagePath]) fun _ => by
      have lt : cubeStage s.p (s.effectiveA adef) < s.p := by
        rw [cubeStage_eq]
        exact Nat.mod_lt _ (by omega)
      exact .ok (Written.refl.big (x := .a3) (by simp [writeSet]) (Or.inl lt.le))

theorem modinvStages_answers (s : State) : Answers .modinv s (modinvStages s) :=
  .check (checkModulus_refuses s) (by decide) fun h => by
    rcases invStage_cases s.p s.r (not_lt.mp h) with ⟨-, x, found, lt, -⟩ | ⟨-, noInverse⟩
    · rw [found]
      exact .ok (Written.refl.big (x := .rinv) (by decide) (Or.inl lt.le))
    · rw [noInverse]
      exact .noInverse (by decide)

theorem modmulStages_answers (s : State) : Answers .modmul s (modmulStages s) :=
  .check (checkModulus_refuses s) (by decide) fun h =>
    .ok (Written.refl.big (x := .b2val) (by decide) (Or.inl (Nat.mod_lt _ (by omega)).le))

theorem modsqrtStages_answers (s : State) : Answers .modsqrt s (modsqrtStages s) :=
  .check (checkModulus_refuses s) (by decide) fun h => by
    cases answer : modSqrt s.p s.b2val with
    | ok b =>
      obtain ⟨lt, -⟩ := modSqrt_ok (not_lt.mp h) answer
      rw [sqrtStage_ok answer]
      have root : Written (writeSet .modsqrt) s (s.setBig b .b1) := Written.refl.big (by decide) (Or.inl lt.le)
      exact .ok (root.big (x := .b2) (v := s.p - b) (by decide) (Or.inl (Nat.sub_le _ _)))
    | error k =>
      rw [sqrtStage_error answer]
      exact .noRoot answer (by decide)

theorem discStages_answers (s : State) : Answers .disc s (discStages s) :=
  .check (checkModulus_refuses s) (by decide) fun h => by
    rcases discStage_cases s.p s.a3 s.b2val with ⟨-, disc⟩ | ⟨-, singular⟩
    · rw [disc]
      exact .ok (Written.refl.big (x := .discr) (by decide) (Or.inl (Nat.mod_lt _ (by omega)).le))
    · rw [singular]
      exact .singular (by decide)

/-- What the stages CUBE to SQRT can answer: the results, the error of SQRT, or NO_INVERSE. -/
theorem solveStages_cases (a : Nat) {s : State} (h : 2 ≤ s.p) :
    (∃ x, x < s.p ∧ s.r * x % s.p = 1 ∧
      ((∃ b, modSqrt s.p (a ^ 3 % s.p * x % s.p) = .ok b ∧ solveStages a s = .ok (s.solved a x b)) ∨
        ∃ k, modSqrt s.p (a ^ 3 % s.p * x % s.p) = .error k ∧ solveStages a s = .error ⟨k, .sqrt⟩)) ∨
    (Nat.gcd (s.r % s.p) s.p ≠ 1 ∧ solveStages a s = .error ⟨.noInverse, .inv⟩) := by
  rcases invStage_cases s.p s.r h with ⟨-, x, found, lt, inverse⟩ | ⟨shared, noInverse⟩
  · refine Or.inl ⟨x, lt, inverse, ?_⟩
    cases answer : modSqrt s.p (a ^ 3 % s.p * x % s.p) with
    | ok b => exact Or.inl ⟨b, rfl, solveStages_ok found answer⟩
    | error k => exact Or.inr ⟨k, rfl, solveStages_sqrt found answer⟩
  · exact Or.inr ⟨shared, solveStages_inv noInverse⟩

theorem solveChecked_answers (adef : Bool) (s : State) : Answers (.solve adef) s (solveChecked adef s) :=
  .check (checkModulus_refuses s) (by simp [stagePath]) fun h =>
    .check (checkDefaultA_refuses adef s) (by simp [stagePath]) fun _ => by
      have h2 : 2 ≤ s.p := not_lt.mp h
      rcases solveStages_cases (s.effectiveA adef) h2 with
        ⟨x, lt, -, ⟨b, root, solved⟩ | ⟨k, noRoot, raised⟩⟩ | ⟨-, raised⟩
      · obtain ⟨below, -⟩ := modSqrt_ok h2 root
        rw [solved]
        exact .ok (Written.refl.solved rfl (List.Subset.refl _) h2 lt below)
      · rw [raised]
        exact .noRoot noRoot (by simp [stagePath])
      · rw [raised]
        exact .noInverse (by simp [stagePath])

/-- The stages BITLEN and EXPAND write the bit length and a value below P (`40_seed_expander.md` R120). -/
theorem Written.expanded {s : State} (pos : 1 ≤ s.p) (adef : Bool) :
    Written (writeSet (.generate adef)) s s.expanded := by
  have positive : 1 ≤ bitlen s.p := by rw [bitlen_of_pos pos]; omega
  have bound := (expand_lt s.hashOf s.seedBytes positive).trans_le (two_pow_bitlen_le pos)
  have bits : Written (writeSet (.generate adef)) s { s with lbits := BitVec.ofNat 32 (bitlen s.p) } :=
    Written.refl.lbits (by simp [writeSet])
  exact bits.big (x := .r) (by simp [writeSet]) (Or.inl bound.le)

theorem generateStages_answers (adef : Bool) (s : State) : Answers (.generate adef) s (generateStages adef s) := by
  rcases generateStages_cases adef s with ⟨h2, past⟩ | refused
  · rw [past, generateWork]
    rcases solveStages_cases (s := s.expanded) (s.effectiveA adef) h2 with
      ⟨x, lt, -, ⟨b, root, solved⟩ | ⟨k, noRoot, raised⟩⟩ | ⟨-, raised⟩
    · obtain ⟨below, -⟩ := modSqrt_ok h2 root
      have written : Written (writeSet (.generate adef)) s (s.expanded.solved (s.effectiveA adef) x b) :=
        (Written.expanded (by omega) adef).solved rfl (by simp [writeSet]) h2 lt below
      simp only [solved, bind, Except.bind]
      rcases discStage_cases s.p (s.effectiveA adef ^ 3 % s.p) (s.effectiveA adef ^ 3 % s.p * x % s.p) with
        ⟨-, disc⟩ | ⟨-, singular⟩
      · exact disc ▸ .ok (written.big (x := .discr) (by simp [writeSet]) (Or.inl (Nat.mod_lt _ (by omega)).le))
      · exact singular ▸ .singular (by simp [stagePath])
    · rw [raised]
      exact .noRoot noRoot (by simp [stagePath])
    · rw [raised]
      exact .noInverse (by simp [stagePath])
  · rw [refused]
    exact .error (by decide) (by simp [stagePath])

/-! The one completion of every command (`60_exceptions.md` R220 to R222). -/

/-- The stages of each command, operand checks first. -/
def commandStages : Instr → State → Except Raise State
  | .nop, s => .ok s
  | .bitlen, s => .ok { s with lbits := BitVec.ofNat 32 (bitlen s.p) }
  | .expand, s => expandStages s
  | .cube adef, s => cubeStages adef s
  | .modinv, s => modinvStages s
  | .modmul, s => modmulStages s
  | .modsqrt, s => modsqrtStages s
  | .disc, s => discStages s
  | .solve adef, s => solveChecked adef s
  | .generate adef, s => generateStages adef s
  | .clear, s => .ok (s.zeroSet (writeSet .clear))

/-- Every command settles what its stages answer, with the port's history of its own messages
(`60_exceptions.md` R229). -/
theorem exec_eq (i : Instr) (s : State) :
    exec i s = .next (s.settle (writeSet i) (portHistory s.hashOf (commandMessages i s)) (commandStages i s)) := by
  cases i <;> rfl

theorem commandStages_answers (i : Instr) (s : State) : Answers i s (commandStages i s) := by
  cases i with
  | nop => exact .ok .refl
  | bitlen => exact .ok (Written.refl.lbits (by decide))
  | expand => exact expandStages_answers s
  | cube adef => exact cubeStages_answers adef s
  | modinv => exact modinvStages_answers s
  | modmul => exact modmulStages_answers s
  | modsqrt => exact modsqrtStages_answers s
  | disc => exact discStages_answers s
  | solve adef => exact solveChecked_answers adef s
  | generate adef => exact generateStages_answers adef s
  | clear => exact .ok (Written.refl.zeroSet (List.Subset.refl _))

theorem fin_mem_stagePath (i : Instr) : .fin ∈ stagePath i := by
  cases i <;> simp [stagePath]

/-- The (ERR, STAGE) pairs of a completed command: no error at END, or an error at the stage that raises it. -/
def endPairs : List (ErrKind × Stage) := (.none, .fin) :: raisePairs

/-- Every command completes: its write set rewritten, and one of the pairs at a stage of its path. -/
theorem exec_completed (i : Instr) (s : State) : ∃ t k st ev, exec i s = .next (t.completed k st ev) ∧
    Written (writeSet i) s t ∧ (k, st) ∈ endPairs ∧ st ∈ stagePath i := by
  have answers := commandStages_answers i s
  rw [exec_eq]
  generalize commandStages i s = out at answers ⊢
  cases answers with
  | ok written => exact ⟨_, _, _, _, rfl, written, List.mem_cons_self, fin_mem_stagePath i⟩
  | error pair onPath =>
    rw [settle_error]
    exact ⟨_, _, _, _, rfl, Written.refl.zeroSet (List.Subset.refl _), List.mem_cons_of_mem _ pair, onPath⟩

/-- A completion changes nothing of the frame. -/
theorem Frame.completed {ws : List DataReg} {s t : State} (h : Frame ws s t) (k : ErrKind) (st : Stage)
    (ev : List PortEvent) : Frame ws s (t.completed k st ev) :=
  { regs := fun x kept => sameReg_completed k st ev (h.regs x kept)
    cfg := h.cfg, ctrl := h.ctrl, cmd := h.cmd, wrbusy := h.wrbusy, turns := h.turns, reply := h.reply
    draws := h.draws, hashTable := h.hashTable }

theorem exec_frame {i : Instr} {s t : State} (h : exec i s = .next t) : Frame (writeSet i) s t := by
  obtain ⟨u, k, st, ev, runs, written, -⟩ := exec_completed i s
  rw [runs] at h
  cases h
  exact written.frame.completed k st ev

/-- Settles O32: the frame of the one completion of every command. -/
theorem commandsWriteOnlyTheirWriteSet : Obligations.CommandsWriteOnlyTheirWriteSet := by
  unfold Obligations.CommandsWriteOnlyTheirWriteSet
  intro i s t runs
  obtain ⟨regs, cfg, ctrl, cmd, wrbusy, turns, reply, draws, hashTable⟩ := exec_frame runs
  exact ⟨regs, cfg, ctrl, cmd, wrbusy, turns, reply, draws, hashTable⟩

/-! The rows of the table of R210. -/

theorem inv_mem_stagePath {i : Instr} (h : .inv ∈ stagePath i) :
    i = .modinv ∨ ∃ adef, i = .solve adef ∨ i = .generate adef := by
  cases i <;> simp [stagePath] at h ⊢

theorem disc_mem_stagePath {i : Instr} (h : .disc ∈ stagePath i) : i = .disc ∨ ∃ adef, i = .generate adef := by
  cases i <;> simp [stagePath] at h ⊢

/-- NOP, BITLEN and CLEAR have no stage that raises. -/
theorem not_mem_stagePath_unchecked {i : Instr} {st : Stage} (raises : st = .check ∨ st = .sqrt)
    (h : st ∈ stagePath i) : i ≠ .nop ∧ i ≠ .bitlen ∧ i ≠ .clear := by
  rcases raises with rfl | rfl <;> cases i <;> simp [stagePath] at h ⊢

/-- Each error has its stages, and no error is END. -/
theorem endPairs_spec {k : ErrKind} {st : Stage} (h : (k, st) ∈ endPairs) :
    (k = .none ↔ st = .fin) ∧ (k = .noInverse → st = .inv) ∧ (k = .noSquareRoot → st = .sqrt) ∧
      (k = .singularCurve → st = .disc) ∧ (k = .badOperand → st = .check ∨ st = .sqrt) ∧ k ≠ .illegalCmd := by
  simp only [endPairs, raisePairs, List.mem_cons, Prod.mk.injEq, List.not_mem_nil, or_false] at h
  rcases h with ⟨rfl, rfl⟩ | ⟨rfl, rfl⟩ | ⟨rfl, rfl⟩ | ⟨rfl, rfl⟩ | ⟨rfl, rfl⟩ | ⟨rfl, rfl⟩ <;> decide

/-- Settles O34: the completion of every command, whose stage lies on the command's path. -/
theorem everyCommandCompletes : Obligations.EveryCommandCompletes := by
  unfold Obligations.EveryCommandCompletes
  intro i s
  obtain ⟨t, k, st, ev, runs, written, pair, onPath⟩ := exec_completed i s
  obtain ⟨none, noInverse, noRoot, singular, badOperand, legal⟩ := endPairs_spec pair
  refine ⟨_, runs, rfl, rfl, rfl, rfl, ?_, none, fun err => ⟨noInverse err, ?_⟩, fun err => ⟨noRoot err, ?_⟩,
    fun err => ⟨singular err, ?_⟩, fun err => ⟨badOperand err, ?_⟩, legal⟩
  · rw [completed_irq, written.frame.ctrl]
  · exact inv_mem_stagePath (noInverse err ▸ onPath)
  · exact (takesRoot_iff i).mp (by rwa [noRoot err] at onPath)
  · exact disc_mem_stagePath (singular err ▸ onPath)
  · exact not_mem_stagePath_unchecked (badOperand err) onPath

end Sys2Proof.Machine
end

section
/-! Proofs: the invariant of every state (`10_state.md` sections 2 to 5, `43_curve_generator.md` R171, R173), kept by
every turn of every agent; and the registers while a command runs (`20_memory.md` section 6). -/

namespace Sys2Proof.Machine

/-! Stages of a running command (`43_curve_generator.md` R171). -/

theorem decode_mem_stagePath (i : Instr) : .decode ∈ stagePath i := by
  cases i <;> simp [stagePath]

theorem mem_liveStages {s : State} {i : Instr} (legal : decode s.cmd = .ok i) (st : Stage) :
    st ∈ s.liveStages ↔ st ∈ stagePath i ∧ st ≠ .fin := by
  simp [State.liveStages, legal]

theorem liveStages_congr {s t : State} (h : t.cmd = s.cmd) : t.liveStages = s.liveStages := by
  rw [State.liveStages, State.liveStages, h]

/-- Acceptance enters the path of the word, legal or not. -/
theorem decode_mem_liveStages (s : State) : .decode ∈ s.liveStages := by
  cases word : decode s.cmd with
  | ok i => exact (mem_liveStages word _).mpr ⟨decode_mem_stagePath i, by decide⟩
  | error e => simp [State.liveStages, word]

theorem stageAfter_mem {st next : Stage} : ∀ {path : List Stage}, stageAfter st path = some next → next ∈ path
  | [], h => by cases h
  | x :: xs, h => by
    unfold stageAfter at h
    split at h
    · exact List.mem_cons_of_mem x (List.mem_of_mem_head? h)
    · exact List.mem_cons_of_mem x (stageAfter_mem h)

/-! The invariant after a change of one part of the state. -/

/-- The control part of the state, which the invariant relates: the parameters, STATUS, CMD, the sequencer and the
request in flight. -/
structure SameControl (s t : State) : Prop where
  cfg : t.cfg = s.cfg
  status : t.status = s.status
  cmd : t.cmd = s.cmd
  stage : t.stage = s.stage
  hreq : t.hreq = s.hreq

namespace State.Inv

variable {s t : State}

/-- A change of the data registers. -/
theorem withRegs (inv : s.Inv) (same : SameControl s t) (fit : ∀ x : BigReg, t.big x < 2 ^ s.cfg.width)
    (size : t.seed.length = s.cfg.seedMax) : t.Inv := by
  obtain ⟨cfg, status, cmd, stage, hreq⟩ := same
  exact
    { params := cfg ▸ inv.params
      regsFit := cfg ▸ fit
      seedSize := cfg ▸ size
      busyStatus := status ▸ inv.busyStatus
      busyStage := by rw [status, stage, liveStages_congr cmd]; exact inv.busyStage
      idleStage := by rw [status, stage]; exact inv.idleStage
      idlePair := status ▸ inv.idlePair
      doneCompleted := status ▸ inv.doneCompleted
      requestInExpand := by rw [status, stage, hreq]; exact inv.requestInExpand }

/-- A change of fields that the invariant does not speak of, or of the seed within its size. -/
theorem withOthers (inv : s.Inv) (same : SameControl s t) (bigs : ∀ x : BigReg, t.big x = s.big x)
    (size : t.seed.length = s.seed.length) : t.Inv :=
  inv.withRegs same (fun x => (bigs x).trans_lt (inv.regsFit x)) (size.trans inv.seedSize)

/-- A completion at one of the terminal pairs of R173. -/
theorem completed {k : ErrKind} {st : Stage} (params : t.cfg.wellFormed = true)
    (fit : ∀ x : BigReg, t.big x < 2 ^ t.cfg.width) (size : t.seed.length = t.cfg.seedMax)
    (pair : (k, st) ∈ restingPairs) (ne_none : st ≠ .none) (ev : List PortEvent) : (t.completed k st ev).Inv where
  params := params
  regsFit x := (t.completed_big k st ev x).trans_lt (fit x)
  seedSize := size
  busyStatus := Bool.noConfusion
  busyStage := Bool.noConfusion
  idleStage _ := rfl
  idlePair _ := pair
  doneCompleted _ := ne_none
  requestInExpand := Bool.noConfusion

/-- Acceptance of any word by an idle block (`10_state.md` R38). -/
theorem accept (inv : s.Inv) (idle : s.status.busy = false) (w : Word) : (s.accept w).Inv where
  params := inv.params
  regsFit x := (s.accept_big w x).trans_lt (inv.regsFit x)
  seedSize := inv.seedSize
  busyStatus _ := ⟨rfl, rfl, rfl⟩
  busyStage _ := decode_mem_liveStages _
  idleStage := Bool.noConfusion
  idlePair := Bool.noConfusion
  doneCompleted := Bool.noConfusion
  requestInExpand request := by
    obtain ⟨busy, -⟩ := inv.requestInExpand request
    rw [idle] at busy
    cases busy

/-- A write to STATUS, or a dropped write: DONE is not raised, BUSY, ERR and STAGE stay. -/
theorem withStatus (inv : s.Inv) {done wrbusy : Bool} (cleared : done = true → s.status.done = true) :
    ({ s with status := { s.status with done := done, wrbusy := wrbusy } } : State).Inv where
  params := inv.params
  regsFit x := (by cases x <;> rfl : _ = s.big x).trans_lt (inv.regsFit x)
  seedSize := inv.seedSize
  busyStatus busy := by
    obtain ⟨notDone, rest⟩ := inv.busyStatus busy
    exact ⟨Bool.eq_false_iff.mpr fun h => Bool.eq_false_iff.mp notDone (cleared h), rest⟩
  busyStage := inv.busyStage
  idleStage := inv.idleStage
  idlePair := inv.idlePair
  doneCompleted h := inv.doneCompleted (cleared h)
  requestInExpand := inv.requestInExpand

end State.Inv

/-- The agents' own fields are no part of the invariant. -/
theorem State.Inv.withAgents {s : State} (inv : s.Inv) (c : Ctrl) (ts : List Turn) (r : Reply) (d : Nat) :
    ({ s with ctrl := c, turns := ts, reply := r, draws := d } : State).Inv :=
  inv.withOthers ⟨rfl, rfl, rfl, rfl, rfl⟩ (fun x => by cases x <;> rfl) rfl

/-! Accesses of the host (`20_memory.md` R68 to R72). -/

/-- The address map holds W/32 words of a register and no more (R71). -/
theorem lt_of_target_bigWord {c : Params} {addr j : Nat} {x : BigReg} (h : target c addr = .bigWord x j) :
    j < c.wWords := by
  unfold target at h
  dsimp only at h
  split_ifs at h
  · split at h
    · cases h
      assumption
    · cases h
  · split at h <;> cases h

/-- The registers after a write of one word by the host to an idle block: LBITS, SEEDLEN, a word of a big-integer
register or of the seed buffer (R70). -/
inductive HostWritten (s : State) (v : Word) : State → Prop
  | lbits : HostWritten s v { s with lbits := v }
  | seedlen : HostWritten s v { s with seedlen := v }
  | bigWord {x : BigReg} {j : Nat} (lt : j < s.cfg.wWords) : HostWritten s v (s.setBig (withWord (s.big x) j v) x)
  | seedWord (j : Nat) : HostWritten s v { s with seed := withSeedWord s.seed j v }

/-- Everything a write at a valid offset can do (R70, R72). -/
inductive PortWritten (s : State) (v : Word) : State → Prop
  | status : PortWritten s v { s with status := s.status.writeOneToClear v }
  | ctrl : PortWritten s v { s with ctrl := Ctrl.ofWrite v }
  | ignored : PortWritten s v s
  | dropped (busy : s.status.busy = true) : PortWritten s v s.dropWrite
  | accepted (idle : s.status.busy = false) : PortWritten s v (s.accept v)
  | stored {t : State} (idle : s.status.busy = false) (data : HostWritten s v t) : PortWritten s v t

theorem memWrite_portWritten (s : State) (addr : Nat) (v : Word) : PortWritten s v (s.memWrite addr v) := by
  cases busy : s.status.busy with
  | true =>
    rcases memWrite_busy s addr v busy with h | h | h | h <;> rw [h]
    exacts [.status, .ctrl, .dropped busy, .ignored]
  | false =>
    rw [State.memWrite]
    cases place : target s.cfg addr <;> simp only [whenIdle_idle _ busy]
    case status => exact .status
    case ctrl => exact .ctrl
    case cmd => exact .accepted busy
    case lbits => exact .stored busy .lbits
    case seedlen => exact .stored busy .seedlen
    case seedWord j => exact .stored busy (.seedWord j)
    case bigWord x j =>
      split
      · exact .stored busy (.bigWord (lt_of_target_bigWord place))
      · exact .ignored
    all_goals exact .ignored

/-- The written registers keep to their widths. -/
theorem State.Inv.hostWritten {s t : State} {v : Word} (inv : s.Inv) (h : HostWritten s v t) : t.Inv := by
  cases h with
  | lbits => exact inv.withOthers ⟨rfl, rfl, rfl, rfl, rfl⟩ (fun x => by cases x <;> rfl) rfl
  | seedlen => exact inv.withOthers ⟨rfl, rfl, rfl, rfl, rfl⟩ (fun x => by cases x <;> rfl) rfl
  | seedWord j =>
    exact inv.withOthers ⟨rfl, rfl, rfl, rfl, rfl⟩ (fun x => by cases x <;> rfl) (withSeedWord_length s.seed j v)
  | @bigWord x j lt =>
    refine inv.withRegs ⟨by simp, by simp, by simp, by simp, by simp⟩ (fun y => ?_) (by simpa using inv.seedSize)
    by_cases same : y = x
    · subst same
      rw [State.setBig_big_self]
      exact withWord_lt v (inv.regsFit y) lt
    · rw [State.setBig_big_of_ne s _ same]
      exact inv.regsFit y

theorem State.Inv.memWrite {s : State} (inv : s.Inv) (addr : Nat) (v : Word) : (s.memWrite addr v).Inv := by
  have written := memWrite_portWritten s addr v
  generalize s.memWrite addr v = t at written ⊢
  cases written with
  | status => exact inv.withStatus fun done => (Bool.and_eq_true_iff.mp done).1
  | ctrl => exact inv.withAgents _ s.turns s.reply s.draws
  | ignored => exact inv
  | dropped => exact inv.withStatus id
  | accepted idle => exact inv.accept idle v
  | stored _ data => exact inv.hostWritten data

theorem State.Inv.access {s : State} (inv : s.Inv) (q : Access) : (s.access q).Inv := by
  rcases access_cases s q with ⟨r, d, h⟩ | ⟨addr, v, -, -, h⟩
  · rw [h]
    exact inv.withAgents s.ctrl s.turns r d
  · rw [h]
    have written := inv.memWrite addr v
    exact written.withAgents _ _ .ack _

/-! Turns of the block and of the hash primitive. -/

theorem State.Inv.exec {s t : State} {i : Instr} (inv : s.Inv) (runs : exec i s = .next t) : t.Inv := by
  obtain ⟨u, k, st, ev, completes, written, pair, -⟩ := exec_completed i s
  rw [completes] at runs
  cases runs
  have cfg : u.cfg = s.cfg := written.frame.cfg
  have resting : ∀ q ∈ endPairs, q ∈ restingPairs ∧ q.2 ≠ .none := by decide
  obtain ⟨rests, ne_none⟩ := resting _ pair
  exact .completed (cfg ▸ inv.params) (cfg ▸ written.regsFit inv.regsFit) (cfg ▸ written.seedSize inv.seedSize) rests
    ne_none ev

theorem State.Inv.illegal {s : State} (inv : s.Inv) : (s.completed .illegalCmd .decode []).Inv :=
  .completed inv.params inv.regsFit inv.seedSize (by decide) (by decide) []

theorem exec_next (i : Instr) (s : State) : ∃ t, exec i s = .next t := by
  obtain ⟨t, k, st, ev, completes, -⟩ := exec_completed i s
  exact ⟨_, completes⟩

theorem State.Inv.runCommand {s : State} (inv : s.Inv) : ∃ t, s.runCommand = .next t ∧ t.Inv := by
  cases busy : s.status.busy with
  | false => exact ⟨s, runCommand_idle busy, inv⟩
  | true =>
    cases word : decode s.cmd with
    | error e => exact ⟨_, runCommand_illegal busy word, inv.illegal⟩
    | ok i =>
      obtain ⟨t, runs⟩ := exec_next i s
      exact ⟨t, (runCommand_legal busy word).trans runs, inv.exec runs⟩

/-- A new request, or none, in flight of a running command. -/
theorem State.Inv.withRequest {s : State} (inv : s.Inv) (r : Option Bytes) (h : List PortEvent)
    (inExpand : r.isSome = true → s.status.busy = true ∧ s.stage = .expand) :
    ({ s with hreq := r, hist := h } : State).Inv :=
  { inv with
    regsFit := fun x => (by cases x <;> rfl : _ = s.big x).trans_lt (inv.regsFit x)
    requestInExpand := inExpand }

/-- A step along the path of a running command with no request in flight. -/
theorem State.Inv.withStage {s : State} (inv : s.Inv) (busy : s.status.busy = true) (quiet : s.hreq = none)
    {st : Stage} (live : st ∈ s.liveStages) : ({ s with stage := st } : State).Inv :=
  { inv with
    regsFit := fun x => (by cases x <;> rfl : _ = s.big x).trans_lt (inv.regsFit x)
    busyStage := fun _ => live
    idleStage := fun idle => by rw [busy] at idle; cases idle
    requestInExpand := fun request => by rw [quiet] at request; cases request }

/-- Outside stage EXPAND of a running command no request is in flight (`10_state.md` R44). -/
theorem State.Inv.quiet {s : State} (inv : s.Inv)
    (h : s.status.busy = true → s.stage = .expand → s.hreq = none) : s.hreq = none := by
  cases request : s.hreq with
  | none => rfl
  | some m =>
    obtain ⟨busy, stage⟩ := inv.requestInExpand (by rw [request]; rfl)
    exact request ▸ h busy stage

theorem State.Inv.workStage {s : State} (inv : s.Inv) : ∃ t, s.workStage = .next t ∧ t.Inv := by
  cases busy : s.status.busy with
  | false => exact ⟨s, workStage_idle busy, inv⟩
  | true =>
    cases word : decode s.cmd with
    | error e => exact ⟨_, workStage_illegal busy word, inv.illegal⟩
    | ok i =>
      rcases workStage_cases busy word with
        ⟨-, -, waits⟩ | ⟨m, stage, -, -, sends⟩ | ⟨-, completes⟩ | ⟨st, idlePort, -, after, ne_fin, moves⟩
      · exact ⟨s, waits, inv⟩
      · exact ⟨_, sends, inv.withRequest _ _ fun _ => ⟨busy, stage⟩⟩
      · obtain ⟨t, runs⟩ := exec_next i s
        exact ⟨t, completes.trans runs, inv.exec runs⟩
      · have quiet : s.hreq = none := inv.quiet fun _ h => (idlePort h).1
        exact ⟨_, moves, inv.withStage busy quiet ((mem_liveStages word st).mpr ⟨stageAfter_mem after, ne_fin⟩)⟩

theorem State.Inv.takeAnswer {s : State} (inv : s.Inv) : s.takeAnswer.Inv := by
  cases request : s.hreq with
  | none => rwa [takeAnswer_none request]
  | some m =>
    rw [takeAnswer_some request]
    exact inv.withRequest _ _ Bool.noConfusion

/-! Reset (`10_state.md` R47). -/

theorem resetOf_inv {c : Params} (h : c.wellFormed = true) : (State.resetOf c).Inv where
  params := h
  regsFit x := (resetOf_big c x).trans_lt (Nat.two_pow_pos _)
  seedSize := List.length_replicate
  busyStatus := Bool.noConfusion
  busyStage := Bool.noConfusion
  idleStage _ := rfl
  idlePair _ := List.mem_cons_self
  doneCompleted := Bool.noConfusion
  requestInExpand := Bool.noConfusion

/-- Settles O53, field by field; on an idle block there is no protocol to keep. -/
theorem resetSatisfiesInvariants : Obligations.ResetSatisfiesInvariants := by
  unfold Obligations.ResetSatisfiesInvariants
  exact ⟨resetOf_inv (by decide), portInv_idle rfl, fun _ => resetOf_inv⟩

/-! Every step. -/

theorem State.Inv.applyReset {s : State} (inv : s.Inv) : s.applyReset.Inv :=
  (resetOf_inv inv.params).withOthers ⟨rfl, rfl, rfl, rfl, rfl⟩ (fun x => by cases x <;> rfl) rfl

theorem State.Inv.takeTurn {s : State} (inv : s.Inv) (t : Turn) : ∃ u, s.takeTurn t = .next u ∧ u.Inv := by
  cases t with
  | access q => exact ⟨_, rfl, inv.access q⟩
  | rst => exact ⟨_, rfl, inv.applyReset⟩
  | work => exact inv.workStage
  | answer => exact ⟨_, rfl, inv.takeAnswer⟩
  | run => exact inv.runCommand

/-- A step from a state of the invariant gives a next state of the invariant, whoever moves. -/
theorem State.Inv.step {s : State} (inv : s.Inv) : ∃ t, step s = .next t ∧ t.Inv := by
  rw [Sys2Proof.Machine.step]
  cases s.turns with
  | nil => exact inv.runCommand
  | cons t ts => exact (inv.withAgents s.ctrl ts s.reply s.draws).takeTurn t

/-- Settles O54: no step has another outcome than the one that keeps the invariant. -/
theorem stepKeepsInvariant : Obligations.StepKeepsInvariant := by
  unfold Obligations.StepKeepsInvariant
  intro s t inv steps
  obtain ⟨u, next, kept⟩ := inv.step
  rw [steps] at next
  cases next
  exact kept

/-- Settles O56, by induction on the number of steps. -/
theorem runsAreSafe : Obligations.RunsAreSafe := by
  unfold Obligations.RunsAreSafe
  intro n
  induction n with
  | zero => exact fun s inv => ⟨s, run_zero s, inv⟩
  | succ n ih =>
    intro s inv
    obtain ⟨t, next, kept⟩ := inv.step
    obtain ⟨u, runs, safe⟩ := ih t kept
    exact ⟨u, (run_succ n next).trans runs, safe⟩

/-! The registers while a command runs (`20_memory.md` R72, R75). -/

/-- The data registers, CMD, the parameters and the hash primitive of s, in the rest of the state of v. -/
def State.around (s v : State) : State :=
  { v with
    cfg := s.cfg, p := s.p, a := s.a, r := s.r, a3 := s.a3, rinv := s.rinv, b2val := s.b2val, b1 := s.b1, b2 := s.b2
    discr := s.discr, lbits := s.lbits, seedlen := s.seedlen, seed := s.seed, cmd := s.cmd, hashTable := s.hashTable }

/-- v still holds what s held in the data registers, CMD, the parameters and the hash primitive. -/
def Frozen (s v : State) : Prop := s.around v = v

namespace Frozen

variable {s t u : State}

theorem refl (s : State) : Frozen s s := rfl

theorem trans (h : Frozen s t) (h' : Frozen t u) : Frozen s u :=
  calc s.around u = (s.around t).around u := rfl
    _ = t.around u := by rw [h]
    _ = u := h'

theorem sameReg (h : Frozen s t) (x : DataReg) : SameReg s t x := by
  rw [← h]
  cases x with
  | big x => cases x <;> rfl
  | _ => rfl

theorem cmd (h : Frozen s t) : t.cmd = s.cmd := by rw [← h]; rfl

theorem cfg (h : Frozen s t) : t.cfg = s.cfg := by rw [← h]; rfl

theorem hashTable (h : Frozen s t) : t.hashTable = s.hashTable := by rw [← h]; rfl

end Frozen

/-- What an access of the host to a busy block can reach: CTRL, the flags of STATUS and the port's own fields. -/
theorem access_busy (s : State) (q : Access) (busy : s.status.busy = true) :
    Frozen s (s.access q) ∧ (s.access q).status.busy = true ∧ (s.access q).stage = s.stage ∧
      (s.access q).hreq = s.hreq ∧ (s.access q).hist = s.hist ∧ (s.access q).turns = s.turns ∧
      (s.access q).status.err = s.status.err := by
  rcases access_cases s q with ⟨r, d, h⟩ | ⟨addr, v, -, -, h⟩
  · rw [h]
    exact ⟨rfl, busy, rfl, rfl, rfl, rfl, rfl⟩
  · rw [h]
    rcases memWrite_busy s addr v busy with w | w | w | w <;> rw [w] <;> exact ⟨rfl, busy, rfl, rfl, rfl, rfl, rfl⟩

theorem takeAnswer_frozen (s : State) : Frozen s s.takeAnswer := by
  rw [State.takeAnswer]
  split <;> rfl

/-- A completed command has left the block idle, with DONE and no request in flight. -/
theorem exec_rests {i : Instr} {s t : State} (runs : exec i s = .next t) :
    t.status.busy = false ∧ t.status.done = true ∧ t.hreq = none := by
  obtain ⟨u, k, st, ev, completes, -⟩ := exec_completed i s
  rw [completes] at runs
  cases runs
  exact ⟨rfl, rfl, rfl⟩

theorem exec_idle {i : Instr} {s t : State} (runs : exec i s = .next t) : t.status.busy = false := (exec_rests runs).1

theorem runCommand_idle_after {s t : State} (busy : s.status.busy = true) (runs : s.runCommand = .next t) :
    t.status.busy = false := by
  cases word : decode s.cmd with
  | ok i => exact exec_idle ((runCommand_legal busy word).symm.trans runs)
  | error e =>
    rw [runCommand_illegal busy word] at runs
    cases runs
    rfl

theorem workStage_frozen {s t : State} (busy : s.status.busy = true) (works : s.workStage = .next t)
    (still : t.status.busy = true) : Frozen s t := by
  cases word : decode s.cmd with
  | error e =>
    rw [workStage_illegal busy word] at works
    cases works
    cases still
  | ok i =>
    rcases workStage_cases busy word with ⟨-, -, h⟩ | ⟨m, -, -, -, h⟩ | ⟨-, h⟩ | ⟨st, -, -, -, -, h⟩ <;> rw [h] at works
    · cases works
      rfl
    · cases works
      rfl
    · rw [exec_idle works] at still
      cases still
    · cases works
      rfl

/-- A turn that leaves a busy block busy. -/
theorem takeTurn_frozen {s t : State} {turn : Turn} (busy : s.status.busy = true) (moves : s.takeTurn turn = .next t)
    (still : t.status.busy = true) : Frozen s t := by
  cases turn with
  | access q =>
    cases moves
    exact (access_busy s q busy).1
  | rst =>
    cases moves
    cases still
  | work => exact workStage_frozen busy moves still
  | answer =>
    cases moves
    exact takeAnswer_frozen s
  | run =>
    rw [runCommand_idle_after busy moves] at still
    cases still

/-- Settles O57, for every turn and for the atomic run that an empty schedule stands for. -/
theorem busyFreezesRegisters : Obligations.BusyFreezesRegisters := by
  unfold Obligations.BusyFreezesRegisters
  intro s t busy steps still
  have frozen : Frozen s t := by
    cases schedule : s.turns with
    | nil =>
      rw [step_nil schedule] at steps
      rw [runCommand_idle_after busy steps] at still
      cases still
    | cons turn ts =>
      have popped : Frozen s { s with turns := ts } := rfl
      rw [step, schedule] at steps
      exact popped.trans (takeTurn_frozen busy steps still)
  exact ⟨frozen.sameReg, frozen.cmd, frozen.cfg, frozen.hashTable⟩

end Sys2Proof.Machine
end

section
/-! Proofs: the hash port (`60_exceptions.md` R229, R230, `20_memory.md` R79): its protocol, kept by every turn, and a
request that is never answered. -/

namespace Sys2Proof.Machine

/-! The history of a command's requests. -/

/-- How many responses a history holds. -/
def answered (h : List PortEvent) : Nat := h.countP fun e => match e with
  | .req _ => false
  | .resp _ => true

theorem digestsTaken_eq (s : State) : s.digestsTaken = answered s.hist := rfl

@[simp] theorem answered_nil : answered [] = 0 := rfl

@[simp] theorem answered_req (m : Bytes) (h : List PortEvent) : answered (.req m :: h) = answered h :=
  List.countP_cons_of_neg (by simp)

@[simp] theorem answered_resp (d : Digest) (h : List PortEvent) : answered (.resp d :: h) = answered h + 1 :=
  List.countP_cons_of_pos rfl

theorem answered_append (h h' : List PortEvent) : answered (h ++ h') = answered h + answered h' :=
  List.countP_append

@[simp] theorem answered_portHistory (hash : Bytes → Digest) (ms : List Bytes) :
    answered (portHistory hash ms) = ms.length := by
  induction ms with
  | nil => rfl
  | cons m ms ih => rw [portHistory_cons, answered_req, answered_resp, ih, List.length_cons]

theorem openRequest_portHistory (hash : Bytes → Digest) (ms : List Bytes) :
    openRequest (portHistory hash ms) = none := by
  rcases List.eq_nil_or_concat ms with rfl | ⟨xs, m, rfl⟩
  · rfl
  · simp [openRequest, portHistory_append]

theorem openRequest_append_req (h : List PortEvent) (m : Bytes) : openRequest (h ++ [.req m]) = some m := by
  simp [openRequest]

/-! The port within a command. -/

/-- The port of a command with the messages ms: its history, the request in flight, and the count k of messages that are
answered. Either all requests so far are answered, or message k is in flight. -/
inductive PortState (hash : Bytes → Digest) (ms : List Bytes) : List PortEvent → Option Bytes → Nat → Prop
  | ready {k : Nat} (le : k ≤ ms.length) : PortState hash ms (portHistory hash (ms.take k)) none k
  | waiting {k : Nat} {m : Bytes} (message : ms[k]? = some m) :
      PortState hash ms (portHistory hash (ms.take k) ++ [.req m]) (some m) k

section
variable {hash : Bytes → Digest} {ms : List Bytes} {h : List PortEvent} {r : Option Bytes} {k : Nat} {m : Bytes}

theorem portHistory_take_succ (hash : Bytes → Digest) (message : ms[k]? = some m) :
    portHistory hash (ms.take (k + 1)) = portHistory hash (ms.take k) ++ [.req m, .resp (hash m)] := by
  rw [List.take_add_one, message, portHistory_append]
  rfl

theorem PortState.send (state : PortState hash ms h none k) (message : ms[k]? = some m) :
    PortState hash ms (h ++ [.req m]) (some m) k := by
  cases state
  exact .waiting message

theorem PortState.answer (state : PortState hash ms h (some m) k) :
    PortState hash ms (h ++ [.resp (hash m)]) none (k + 1) := by
  cases state with
  | waiting message =>
    have history := portHistory_take_succ hash message
    rw [List.append_assoc]
    exact history ▸ .ready (List.getElem?_eq_some_iff.mp message).1

/-- A request in flight is one of the command's messages. -/
theorem PortState.lt_length (state : PortState hash ms h (some m) k) : k < ms.length := by
  cases state with
  | waiting message => exact (List.getElem?_eq_some_iff.mp message).1

/-- A beginning of the alternating sequence ends after a response or after a request. -/
theorem portState_of_prefix : ∀ {ms : List Bytes} {h : List PortEvent}, h <+: portHistory hash ms →
    ∃ r k, PortState hash ms h r k
  | [], h, begins => by
    cases List.prefix_nil.mp begins
    exact ⟨_, _, .ready le_rfl⟩
  | m :: ms, [], _ => ⟨_, _, .ready (Nat.zero_le _)⟩
  | m :: ms, [e], begins => by
    obtain ⟨rfl, -⟩ := List.cons_prefix_cons.mp begins
    exact ⟨_, _, .waiting (k := 0) rfl⟩
  | m :: ms, e :: e' :: h, begins => by
    rw [portHistory_cons, List.cons_prefix_cons, List.cons_prefix_cons] at begins
    obtain ⟨rfl, rfl, rest⟩ := begins
    obtain ⟨r, k, state⟩ := portState_of_prefix rest
    cases state with
    | ready le => exact ⟨_, _, .ready (k := k + 1) (Nat.succ_le_succ le)⟩
    | waiting message => exact ⟨_, _, .waiting (k := k + 1) message⟩

theorem PortState.spec (state : PortState hash ms h r k) :
    h <+: portHistory hash ms ∧ r = openRequest h ∧ k = answered h := by
  have split (k : Nat) : portHistory hash ms = portHistory hash (ms.take k) ++ portHistory hash (ms.drop k) := by
    rw [← portHistory_append, List.take_append_drop]
  cases state with
  | ready le =>
    exact ⟨⟨_, (split k).symm⟩, (openRequest_portHistory _ _).symm, by simp [le]⟩
  | @waiting k m message =>
    obtain ⟨lt, -⟩ := List.getElem?_eq_some_iff.mp message
    refine ⟨⟨.resp (hash m) :: portHistory hash (ms.drop (k + 1)), ?_⟩, (openRequest_append_req _ _).symm, ?_⟩
    · rw [split (k + 1), portHistory_take_succ hash message, List.append_assoc, List.append_assoc]
      rfl
    · simp [answered_append, lt.le]

theorem portState_iff :
    PortState hash ms h r (answered h) ↔ h <+: portHistory hash ms ∧ r = openRequest h := by
  refine ⟨fun state => ⟨state.spec.1, state.spec.2.1⟩, fun ⟨begins, request⟩ => ?_⟩
  obtain ⟨r', k, state⟩ := portState_of_prefix begins
  obtain ⟨-, rfl, rfl⟩ := state.spec
  rwa [request]

end

/-! The protocol, kept by every turn. -/

/-- The protocol in terms of the port's state. -/
theorem portInv_iff (s : State) : s.PortInv ↔ (s.status.busy = true → ∀ i, decode s.cmd = .ok i →
    PortState s.hashOf (commandMessages i s) s.hist s.hreq s.digestsTaken) := by
  simp only [digestsTaken_eq, portState_iff]
  rfl

namespace Frozen

variable {s t : State}

theorem hashOf (h : Frozen s t) : t.hashOf = s.hashOf := hashOf_congr h.hashTable

theorem commandMessages (h : Frozen s t) (i : Instr) : commandMessages i t = commandMessages i s := by
  rw [← h]
  cases i <;> rfl

end Frozen

/-- A turn that changes neither the history nor the request in flight, nor the registers. -/
theorem portInv_frozen {s t : State} (inv : s.PortInv) (frozen : Frozen s t) (busy : s.status.busy = true)
    (hist : t.hist = s.hist) (hreq : t.hreq = s.hreq) : t.PortInv := by
  rw [portInv_iff] at inv ⊢
  intro _ i word
  rw [digestsTaken_eq, frozen.hashOf, frozen.commandMessages, hist, hreq]
  exact inv busy i (frozen.cmd ▸ word)

/-- Acceptance starts with an empty history. -/
theorem portInv_accepted {s : State} (hist : s.hist = []) (quiet : s.hreq = none) : s.PortInv := by
  intro _ i _
  rw [hist, quiet]
  exact ⟨List.nil_prefix, rfl⟩

theorem memWrite_portInv {s : State} (inv : s.Inv) (idle : s.status.busy = false) (addr : Nat) (v : Word) :
    (s.memWrite addr v).PortInv := by
  have written := memWrite_portWritten s addr v
  generalize s.memWrite addr v = t at written ⊢
  cases written with
  | accepted idle =>
    exact portInv_accepted rfl (inv.quiet fun busy => by rw [idle] at busy; cases busy)
  | stored idle data => cases data <;> exact portInv_idle (by simpa using idle)
  | _ => exact portInv_idle idle

theorem access_portInv {s : State} (inv : s.Inv) (port : s.PortInv) (q : Access) : (s.access q).PortInv := by
  cases busy : s.status.busy with
  | true =>
    obtain ⟨frozen, -, -, hreq, hist, -⟩ := access_busy s q busy
    exact portInv_frozen port frozen busy hist hreq
  | false =>
    rcases access_cases s q with ⟨r, d, h⟩ | ⟨addr, v, -, -, h⟩ <;> rw [h]
    · exact portInv_idle busy
    · exact memWrite_portInv inv busy addr v

/-- The block sends the next message only when every request so far is answered (R229). -/
theorem send_portInv {s : State} {i : Instr} {m : Bytes} (port : s.PortInv) (busy : s.status.busy = true)
    (word : decode s.cmd = .ok i) (quiet : s.hreq = none) (message : s.nextMessage i = some m) :
    ({ s with hreq := some m, hist := s.hist ++ [.req m] } : State).PortInv := by
  have state := (portInv_iff s).mp port busy i word
  rw [quiet] at state
  obtain ⟨begins, request, -⟩ := (state.send message).spec
  refine fun _ j word' => ?_
  cases word.symm.trans word'
  have frozen : Frozen s { s with hreq := some m, hist := s.hist ++ [.req m] } := rfl
  exact ⟨by rw [frozen.hashOf, frozen.commandMessages]; exact begins, request⟩

theorem takeAnswer_portInv {s : State} (port : s.PortInv) : s.takeAnswer.PortInv := by
  cases request : s.hreq with
  | none => rwa [takeAnswer_none request]
  | some m =>
    rw [takeAnswer_some request]
    intro busy i word
    have state := (portInv_iff s).mp port busy i word
    rw [request] at state
    obtain ⟨begins, closed, -⟩ := state.answer.spec
    have frozen : Frozen s { s with hreq := none, hist := s.hist ++ [.resp (s.hashOf m)] } := rfl
    exact ⟨by rw [frozen.hashOf, frozen.commandMessages]; exact begins, closed⟩

theorem workStage_portInv {s t : State} (port : s.PortInv) (works : s.workStage = .next t) : t.PortInv := by
  cases busy : s.status.busy with
  | false =>
    rw [workStage_idle busy] at works
    cases works
    exact port
  | true =>
    cases word : decode s.cmd with
    | error e =>
      rw [workStage_illegal busy word] at works
      cases works
      exact portInv_idle rfl
    | ok i =>
      rcases workStage_cases busy word with
        ⟨-, -, h⟩ | ⟨m, -, quiet, message, h⟩ | ⟨-, h⟩ | ⟨st, -, -, -, -, h⟩ <;> rw [h] at works
      · cases works
        exact port
      · cases works
        exact send_portInv port busy word quiet message
      · exact portInv_idle (exec_idle works)
      · cases works
        exact portInv_frozen port rfl busy rfl rfl

theorem runCommand_portInv {s t : State} (port : s.PortInv) (runs : s.runCommand = .next t) : t.PortInv := by
  cases busy : s.status.busy with
  | false =>
    rw [runCommand_idle busy] at runs
    cases runs
    exact port
  | true => exact portInv_idle (runCommand_idle_after busy runs)

theorem takeTurn_portInv {s t : State} {turn : Turn} (inv : s.Inv) (port : s.PortInv)
    (moves : s.takeTurn turn = .next t) : t.PortInv := by
  cases turn with
  | access q =>
    cases moves
    exact access_portInv inv port q
  | rst =>
    cases moves
    exact portInv_idle rfl
  | work => exact workStage_portInv port moves
  | answer =>
    cases moves
    exact takeAnswer_portInv port
  | run => exact runCommand_portInv port moves

/-- Settles O55, turn by turn: a request is sent only when none is in flight, and an answer is that of the request in
flight. -/
theorem stepKeepsPortProtocol : Obligations.StepKeepsPortProtocol := by
  unfold Obligations.StepKeepsPortProtocol
  intro s t inv port steps
  cases schedule : s.turns with
  | nil =>
    rw [step_nil schedule] at steps
    exact runCommand_portInv port steps
  | cons turn ts =>
    have popped : ({ s with turns := ts } : State).PortInv := fun busy => port busy
    rw [step, schedule] at steps
    exact takeTurn_portInv (inv.withAgents s.ctrl ts s.reply s.draws) popped steps

/-! A request that is never answered (R230). -/

/-- What a waiting block keeps while nothing answers it. -/
structure Waiting (s : State) (m : Bytes) (t : State) : Prop where
  frozen : Frozen s t
  busy : t.status.busy = true
  stage : t.stage = .expand
  hreq : t.hreq = some m
  err : t.status.err = s.status.err

/-- A turn of the block, or an access of the host, changes none of it. -/
theorem Waiting.step {s t : State} {i : Instr} {m : Bytes} {turn : Turn} {ts : List Turn} (h : Waiting s m t)
    (word : decode s.cmd = .ok i) (schedule : t.turns = turn :: ts) (kind : turn = .work ∨ ∃ q, turn = .access q) :
    ∃ u, step t = .next u ∧ Waiting s m u ∧ u.turns = ts := by
  obtain ⟨frozen, busy, stage, hreq, err⟩ := h
  have popped : Frozen t { t with turns := ts } := rfl
  rcases kind with rfl | ⟨q, rfl⟩
  · rw [step_work schedule]
    have word' : decode ({ t with turns := ts } : State).cmd = .ok i := frozen.cmd.symm ▸ word
    exact ⟨_, workStage_waits (s := { t with turns := ts }) busy word' stage (by simp [hreq]),
      ⟨frozen.trans popped, busy, stage, hreq, err⟩, rfl⟩
  · rw [step_access schedule]
    obtain ⟨kept, busy', stage', hreq', -, turns', err'⟩ := access_busy { t with turns := ts } q busy
    exact ⟨_, rfl,
      ⟨(frozen.trans popped).trans kept, busy', stage'.trans stage, hreq'.trans hreq, err'.trans err⟩, turns'⟩

theorem Waiting.run {s : State} {i : Instr} {m : Bytes} (word : decode s.cmd = .ok i) : ∀ {ts : List Turn} {t : State},
    Waiting s m t → t.turns = ts → (∀ turn ∈ ts, turn = .work ∨ ∃ q, turn = .access q) →
    ∃ u, Host.Core.run Sys2Proof.core ts.length t = .next u ∧ Waiting s m u
  | [], t, h, _, _ => ⟨t, run_zero t, h⟩
  | turn :: ts, t, h, schedule, kinds => by
    obtain ⟨u, next, waits, turns⟩ := h.step word schedule (kinds turn List.mem_cons_self)
    obtain ⟨v, runs, still⟩ := Waiting.run word waits turns fun t mem => kinds t (List.mem_cons_of_mem turn mem)
    exact ⟨v, (run_succ ts.length next).trans runs, still⟩

/-- Settles O60, by induction on the schedule. -/
theorem unansweredRequestHangs : Obligations.UnansweredRequestHangs := by
  unfold Obligations.UnansweredRequestHangs
  intro s i m ts busy word stage hreq schedule kinds
  obtain ⟨u, runs, waits⟩ := Waiting.run word ⟨Frozen.refl s, busy, stage, hreq, rfl⟩ schedule kinds
  exact ⟨u, runs, waits.busy, waits.hreq, waits.stage, waits.err, waits.frozen.sameReg⟩

end Sys2Proof.Machine
end

section
/-! Proofs: runs of the machine (`43_curve_generator.md` section 1, `60_exceptions.md` section 4,
`70_reset_and_hazards.md`). Steps by the head of the schedule, reset, idle blocks, and a command taken stage by stage,
which ends as its atomic run. -/

namespace Sys2Proof.Machine

/-! Single steps and idle blocks (`70_reset_and_hazards.md` R240, R241). -/

/-- Settles O50: the turn gives the reset state of the same parameters. -/
theorem resetStopsACommand : Obligations.ResetStopsACommand := by
  unfold Obligations.ResetStopsACommand
  intro s ts schedule
  have bigs (x : BigReg) : ({ s with turns := ts } : State).applyReset.big x = 0 := by cases x <;> rfl
  exact ⟨_, step_rst schedule, rfl, bigs, rfl, rfl, rfl, rfl, rfl⟩

/-- A turn that an idle block ignores: its own, or an answer where nothing was asked. -/
def IgnoredWhenIdle (s : State) (t : Turn) : Prop := t = .run ∨ t = .work ∨ (t = .answer ∧ s.hreq = none)

theorem step_ignored {s : State} {t : Turn} {ts : List Turn} (idle : s.status.busy = false)
    (schedule : s.turns = t :: ts) (ignored : IgnoredWhenIdle s t) : step s = .next { s with turns := ts } := by
  have idle' : ({ s with turns := ts } : State).status.busy = false := idle
  rcases ignored with rfl | rfl | ⟨rfl, quiet⟩
  · exact (step_run schedule).trans (runCommand_idle idle')
  · exact (step_work schedule).trans (workStage_idle idle')
  · rw [step_answer schedule, takeAnswer_none (s := { s with turns := ts }) quiet]

theorem run_ignored : ∀ {ts : List Turn} {s : State}, s.status.busy = false → s.turns = ts →
    (∀ t ∈ ts, IgnoredWhenIdle s t) → Host.Core.run Sys2Proof.core ts.length s = .next { s with turns := [] }
  | [], s, _, schedule, _ => by
    rw [List.length_nil, run_zero, ← schedule]
  | t :: ts, s, idle, schedule, ignored => by
    rw [List.length_cons, run_succ ts.length (step_ignored idle schedule (ignored t List.mem_cons_self))]
    exact run_ignored (s := { s with turns := ts }) idle rfl fun t mem => ignored t (List.mem_cons_of_mem _ mem)

theorem run_reset (n : Nat) : Host.Core.run Sys2Proof.core n State.reset = .next State.reset := by
  induction n with
  | zero => exact run_zero _
  | succ n ih => rwa [run_succ n ((step_nil rfl).trans (runCommand_idle rfl))]

/-- Settles O51: an idle block ignores its own turns. -/
theorem idleBlockStaysIdle : Obligations.IdleBlockStaysIdle := by
  unfold Obligations.IdleBlockStaysIdle
  exact ⟨⟨rfl, rfl, rfl, rfl⟩, run_reset, fun s ts idle schedule own =>
    run_ignored idle schedule fun t mem => (own t mem).imp_right Or.inl⟩

/-- The word that the decode table reads is the 32-bit word of its command. -/
theorem word_of_decodeTableWord {nbits w : Nat} {i : Instr} (h : decodeTableWord nbits w = some i) :
    BitVec.ofNat 32 (w % 2 ^ nbits) = encode i := by
  simp only [decodeTableWord] at h
  split at h
  · cases word : decode (BitVec.ofNat 32 (w % 2 ^ nbits)) with
    | ok j =>
      rw [word] at h
      cases h
      exact (encode_of_decode word).symm
    | error e =>
      rw [word] at h
      cases h
  · cases h

/-- Settles O52: the block's turn is the decoded command, and the table's word is that command's encoding. -/
theorem stepRunsDecodedCommand : Obligations.StepRunsDecodedCommand := by
  unfold Obligations.StepRunsDecodedCommand
  refine ⟨fun s i busy word => ⟨fun schedule => ?_, fun ts schedule => ?_⟩, fun s nbits w i table => ?_⟩
  · exact (step_nil schedule).trans (runCommand_legal busy word)
  · exact (step_run schedule).trans (runCommand_legal (s := { s with turns := ts }) busy word)
  · rw [State.withFetchWord, word_of_decodeTableWord table]
    exact (step_run rfl).trans (runCommand_legal (s := s.accept (encode i)) rfl (decode_encode i))

/-! A command looks at the registers alone (`10_state.md` R41, `20_memory.md` R75). -/

theorem zeroReg_around (s v : State) (d : DataReg) : (s.around v).zeroReg d = (s.zeroReg d).around v := by
  cases d with
  | big x => cases x <;> rfl
  | _ => rfl

theorem zeroSet_around (v : State) (ws : List DataReg) (s : State) :
    (s.around v).zeroSet ws = (s.zeroSet ws).around v := by
  induction ws generalizing s with
  | nil => rfl
  | cons d ws ih => exact (congrArg (State.zeroSet · ws) (zeroReg_around s v d)).trans (ih (s.zeroReg d))

/-- The stages read and write registers, and carry the rest of the state along. -/
theorem commandStages_around (i : Instr) (s v : State) :
    commandStages i (s.around v) = (State.around · v) <$> commandStages i s := by
  cases i with
  | clear => exact congrArg Except.ok (zeroSet_around v _ s)
  | nop => rfl
  | bitlen => rfl
  | expand => simp only [commandStages, expandStages, map_bind, map_pure]; rfl
  | cube adef => simp only [commandStages, cubeStages, map_bind, map_pure]; rfl
  | modinv => simp only [commandStages, modinvStages, map_bind, map_pure]; rfl
  | modmul => simp only [commandStages, modmulStages, map_bind, map_pure]; rfl
  | modsqrt => simp only [commandStages, modsqrtStages, map_bind, map_pure]; rfl
  | disc => simp only [commandStages, discStages, map_bind, map_pure]; rfl
  | solve adef => simp only [commandStages, solveChecked, solveStages, map_bind, map_pure]; rfl
  | generate adef =>
    simp only [commandStages, generateStages, solveStages, bind_assoc, pure_bind, map_bind, map_pure]
    rfl

/-- A completed command e, with what the agents and the host's control writes left in v. -/
def State.among (e v : State) : State :=
  { e with
    ctrl := v.ctrl, status := { e.status with wrbusy := v.status.wrbusy }, turns := v.turns, reply := v.reply
    draws := v.draws }

theorem settle_around (s v : State) (ws : List DataReg) (ev : List PortEvent) (out : Except Raise State) :
    (s.around v).settle ws ev ((State.around · v) <$> out) = (s.settle ws ev out).among v := by
  cases out with
  | ok t => rfl
  | error e =>
    change (s.around v).settle ws ev (.error e) = _
    rw [settle_error, settle_error, zeroSet_around]
    rfl

theorem exec_frozen {s v e : State} {i : Instr} (frozen : Frozen s v) (runs : exec i s = .next e) :
    exec i v = .next (e.among v) := by
  rw [exec_eq] at runs ⊢
  cases runs
  rw [frozen.hashOf, frozen.commandMessages, ← settle_around, ← commandStages_around, frozen]

/-! A command taken stage by stage (`43_curve_generator.md` R172, `60_exceptions.md` section 4). -/

/-- s with the sequencer and the hash port elsewhere, and the schedule ts to go. -/
def State.standing (s : State) (st : Stage) (r : Option Bytes) (h : List PortEvent) (ts : List Turn) : State :=
  { s with stage := st, hreq := r, hist := h, turns := ts }

/-- Wherever the sequencer and the port stand, the command completes as it does from s. -/
theorem exec_standing {s e : State} {i : Instr} (runs : exec i s = .next e) (st : Stage) (r : Option Bytes)
    (h : List PortEvent) (ts : List Turn) : exec i (s.standing st r h ts) = .next { e with turns := ts } := by
  obtain ⟨-, -, ctrl, -, wrbusy, -, reply, draws, -⟩ := exec_frame runs
  have frozen : Frozen s (s.standing st r h ts) := rfl
  have same : e.among (s.standing st r h ts) = { e with turns := ts } := by
    simp only [State.among, State.standing, ← ctrl, ← wrbusy, ← reply, ← draws]
  rw [exec_frozen frozen runs, same]

/-- A turn of the block completes the command, or leaves it at a stage of its path before END. -/
theorem workStage_standing {s e : State} {i : Instr} (busy : s.status.busy = true) (word : decode s.cmd = .ok i)
    (runs : exec i s = .next e) {st : Stage} (live : st ∈ stagePath i ∧ st ≠ .fin) (r : Option Bytes)
    (h : List PortEvent) (ts : List Turn) :
    (s.standing st r h ts).workStage = .next { e with turns := ts } ∨
    ∃ st' r' h', (st' ∈ stagePath i ∧ st' ≠ .fin) ∧
      (s.standing st r h ts).workStage = .next (s.standing st' r' h' ts) := by
  rcases workStage_cases (s := s.standing st r h ts) busy word with
    ⟨-, -, waits⟩ | ⟨m, -, -, -, sends⟩ | ⟨-, completes⟩ | ⟨st', -, -, after, ne_fin, moves⟩
  · exact Or.inr ⟨st, r, h, live, waits⟩
  · exact Or.inr ⟨st, some m, _, live, sends⟩
  · exact Or.inl (completes.trans (exec_standing runs st r h ts))
  · exact Or.inr ⟨st', r, h, ⟨stageAfter_mem after, ne_fin⟩, moves⟩

theorem takeAnswer_standing (s : State) (st : Stage) (r : Option Bytes) (h : List PortEvent) (ts : List Turn) :
    ∃ r' h', (s.standing st r h ts).takeAnswer = s.standing st r' h' ts := by
  cases r with
  | none => exact ⟨_, _, rfl⟩
  | some m => exact ⟨_, _, rfl⟩

/-- After the completion the rest of the schedule is ignored. -/
theorem run_completed {s e : State} {i : Instr} (runs : exec i s = .next e) {ts : List Turn}
    (kinds : ∀ t ∈ ts, t = .work ∨ t = .answer) :
    Host.Core.run Sys2Proof.core ts.length { e with turns := ts } = .next { e with turns := [] } := by
  obtain ⟨idle, -, quiet⟩ := exec_rests runs
  exact run_ignored (s := { e with turns := ts }) idle rfl fun t mem =>
    Or.inr ((kinds t mem).imp_right fun answer => ⟨answer, quiet⟩)

theorem run_standing {s e : State} {i : Instr} (busy : s.status.busy = true) (word : decode s.cmd = .ok i)
    (runs : exec i s = .next e) : ∀ {ts : List Turn}, (∀ t ∈ ts, t = .work ∨ t = .answer) →
    ∀ {st : Stage} (r : Option Bytes) (h : List PortEvent), st ∈ stagePath i ∧ st ≠ .fin →
    Host.Core.run Sys2Proof.core ts.length (s.standing st r h ts) = .next { e with turns := [] } ∨
    ∃ st' r' h', (st' ∈ stagePath i ∧ st' ≠ .fin) ∧
      Host.Core.run Sys2Proof.core ts.length (s.standing st r h ts) = .next (s.standing st' r' h' [])
  | [], _, st, r, h, live => Or.inr ⟨st, r, h, live, run_zero _⟩
  | t :: ts, kinds, st, r, h, live => by
    have later : ∀ t ∈ ts, t = .work ∨ t = .answer := fun t mem => kinds t (List.mem_cons_of_mem _ mem)
    rcases kinds t List.mem_cons_self with rfl | rfl
    · have next : step (s.standing st r h (.work :: ts)) = (s.standing st r h ts).workStage := step_work rfl
      rcases workStage_standing busy word runs live r h ts with done | ⟨st', r', h', live', moves⟩
      · exact Or.inl ((run_succ ts.length (next.trans done)).trans (run_completed runs later))
      · rw [List.length_cons, run_succ ts.length (next.trans moves)]
        exact run_standing busy word runs later r' h' live'
    · have next : step (s.standing st r h (.answer :: ts)) = .next (s.standing st r h ts).takeAnswer :=
        step_answer rfl
      obtain ⟨r', h', answers⟩ := takeAnswer_standing s st r h ts
      rw [List.length_cons, run_succ ts.length (next.trans (congrArg _ answers))]
      exact run_standing busy word runs later r' h' live

/-- Settles O58, by induction on the schedule: until it completes, a command has moved the sequencer and the port
alone. -/
theorem stagewiseRunEqualsAtomicRun : Obligations.StagewiseRunEqualsAtomicRun := by
  unfold Obligations.StagewiseRunEqualsAtomicRun
  rintro s e i ts ⟨busy, stage, -, -⟩ word runs kinds
  have live : s.stage ∈ stagePath i ∧ s.stage ≠ .fin := by
    rw [stage]
    exact ⟨decode_mem_stagePath i, by decide⟩
  rcases run_standing busy word runs kinds s.hreq s.hist live with done | ⟨st, r, h, ⟨onPath, ne_fin⟩, still⟩
  · exact ⟨_, done, Or.inl rfl⟩
  · have frozen : Frozen s (s.standing st r h []) := rfl
    exact ⟨_, still, Or.inr ⟨busy, onPath, ne_fin, frozen.sameReg⟩⟩

end Sys2Proof.Machine
end

section
/-! Proofs: bounded liveness (`70_reset_and_hazards.md` section 4). A count of the stages to go and the requests to be
answered falls in every fair round, whatever the other agents do. -/

namespace Sys2Proof.Machine

/-! The way a command still has to go. -/

/-- The stage after one that stands once on the path. -/
theorem stageAfter_append {st : Stage} {pre post : List Stage} (h : st ∉ pre) :
    stageAfter st (pre ++ st :: post) = post.head? := by
  induction pre with
  | nil => simp [stageAfter]
  | cons x pre ih =>
    obtain ⟨ne, rest⟩ := not_or.mp (List.mem_cons.not.mp h)
    rw [List.cons_append, stageAfter, if_neg (Ne.symm ne), ih rest]

theorem stagePath_nodup (i : Instr) : (stagePath i).Nodup := by
  obtain ⟨-, -, -, -, -, nodup⟩ := commandRow i
  exact nodup

theorem stagePath_getLast (i : Instr) : (stagePath i).getLast? = some .fin := by
  obtain ⟨-, -, -, -, last, -⟩ := commandRow i
  exact last

/-- Stage CHECK lies before stage EXPAND on every path that has EXPAND. -/
theorem check_mem_before_expand {i : Instr} {pre post : List Stage} (h : stagePath i = pre ++ .expand :: post) :
    .check ∈ pre := by
  have onPath : .expand ∈ stagePath i := by simp [h]
  have notIn : .expand ∉ pre := by
    have nodup := h ▸ stagePath_nodup i
    exact fun mem => (List.nodup_append.mp nodup).2.2 _ mem _ List.mem_cons_self rfl
  have upTo : pre = (stagePath i).takeWhile (· ≠ .expand) := by
    rw [h, List.takeWhile_append_of_pos]
    · simp
    · intro st mem
      simpa using ne_of_mem_of_not_mem mem notIn
  rw [upTo]
  cases i <;> simp [stagePath] at onPath ⊢

/-- How many messages of command i are to be answered in v; none where CHECK refuses the command. -/
def unanswered (i : Instr) (s v : State) : Nat :=
  if endStage i s = .check then 0 else (commandMessages i s).length - v.digestsTaken

/-- v stands on the path of command i of s, short of the stage at which it ends, with at most k stages and answers to
go. -/
def OnRoute (s : State) (i : Instr) (v : State) (k : Nat) : Prop :=
  ∃ pre post, stagePath i = pre ++ v.stage :: post ∧ post ≠ [] ∧ endStage i s ∉ pre ∧
    post.length + unanswered i s v ≤ k

/-- A command accepted in s runs in v, at most k stages and answers from its end. -/
structure Running (s : State) (k : Nat) (v : State) : Prop where
  frozen : Frozen s v
  busy : v.status.busy = true
  inv : v.Inv
  port : v.PortInv
  pos : 1 ≤ k
  route : ∀ i, decode s.cmd = .ok i → OnRoute s i v k

/-- u is idle after the completion of the word accepted in s. -/
def Completed (s u : State) : Prop :=
  u.status.busy = false ∧ u.status.done = true ∧ ∀ i e, decode s.cmd = .ok i → exec i s = .next e →
    u.status.err = e.status.err ∧ u.status.stage = e.status.stage ∧ ∀ x : DataReg, SameReg e u x

section
variable {s v u : State} {k : Nat} {i : Instr}

theorem Running.mono (h : Running s k v) {l : Nat} (le : k ≤ l) : Running s l v :=
  { h with
    pos := h.pos.trans le
    route := fun i word => by
      obtain ⟨pre, post, path, ne, ahead, count⟩ := h.route i word
      exact ⟨pre, post, path, ne, ahead, count.trans le⟩ }

/-- A turn that keeps stage and history. -/
theorem OnRoute.congr (h : OnRoute s i v k) (stage : u.stage = v.stage)
    (taken : u.digestsTaken = v.digestsTaken) : OnRoute s i u k := by
  unfold OnRoute unanswered at h ⊢
  rwa [stage, taken]

theorem completed_of_exec (frozen : Frozen s v) (word : decode s.cmd = .ok i) (runs : exec i v = .next u) :
    Completed s u := by
  obtain ⟨idle, done, -⟩ := exec_rests runs
  refine ⟨idle, done, fun j e word' atomic => ?_⟩
  cases word.symm.trans word'
  cases runs.symm.trans (exec_frozen frozen atomic)
  refine ⟨rfl, rfl, fun x => ?_⟩
  cases x with
  | big x => cases x <;> rfl
  | _ => rfl

theorem completed_of_illegal {e : DecodeError} (word : decode s.cmd = .error e) :
    Completed s (v.completed .illegalCmd .decode []) := by
  refine ⟨rfl, rfl, fun i _ word' => ?_⟩
  rw [word] at word'
  cases word'

/-! One turn. -/

/-- A running block with a turn less in its schedule. -/
theorem Running.popped (h : Running s k v) (ts : List Turn) : Running s k { v with turns := ts } where
  frozen := h.frozen.trans rfl
  busy := h.busy
  inv := h.inv.withAgents v.ctrl ts v.reply v.draws
  port := portInv_frozen h.port rfl h.busy rfl rfl
  pos := h.pos
  route i word := (h.route i word).congr rfl rfl

/-- A command that reaches EXPAND is past CHECK, so its messages count. -/
theorem unanswered_eq {pre post : List Stage} (path : stagePath i = pre ++ .expand :: post)
    (ahead : endStage i s ∉ pre) (w : State) :
    unanswered i s w = (commandMessages i s).length - w.digestsTaken :=
  if_neg fun refused => ahead (by rw [refused]; exact check_mem_before_expand path)

/-- An access of the host reaches neither the sequencer nor the hash port. -/
theorem Running.access (h : Running s k v) (q : Access) :
    Running s k (v.access q) ∧ (v.access q).hreq = v.hreq ∧ (v.access q).turns = v.turns := by
  obtain ⟨frozen, busy, stage, hreq, hist, turns, -⟩ := access_busy v q h.busy
  have taken : (v.access q).digestsTaken = v.digestsTaken := congrArg answered hist
  exact ⟨{ frozen := h.frozen.trans frozen, busy := busy, inv := h.inv.access q,
           port := access_portInv h.inv h.port q, pos := h.pos,
           route := fun i word => (h.route i word).congr stage taken }, hreq, turns⟩

/-- A request is in flight only for a command that has messages, in stage EXPAND. -/
theorem legal_of_request (inv : v.Inv) {m : Bytes} (request : v.hreq = some m) :
    v.stage = .expand ∧ ∃ i, decode v.cmd = .ok i := by
  obtain ⟨busy, stage⟩ := inv.requestInExpand (by rw [request]; rfl)
  have live := inv.busyStage busy
  rw [stage, State.liveStages] at live
  cases word : decode v.cmd with
  | ok i => exact ⟨stage, i, rfl⟩
  | error e => simp [word] at live

/-- The primitive's answer to a request leaves one answer less to go. -/
theorem OnRoute.answer (h : OnRoute s i v (k + 1)) (stage : v.stage = .expand) {hash : Bytes → Digest} {m : Bytes}
    (state : PortState hash (commandMessages i s) v.hist (some m) v.digestsTaken)
    (after : u.stage = v.stage) (taken : u.digestsTaken = v.digestsTaken + 1) : 1 ≤ k ∧ OnRoute s i u k := by
  obtain ⟨pre, post, path, ne, ahead, count⟩ := h
  have counts := unanswered_eq (stage ▸ path) ahead
  have inFlight := state.lt_length
  have toGo : 1 ≤ post.length := List.length_pos_of_ne_nil ne
  rw [counts v] at count
  refine ⟨by omega, pre, post, after ▸ path, ne, ahead, ?_⟩
  rw [counts u, taken]
  omega

theorem Running.answer (h : Running s (k + 1) v) {m : Bytes} (request : v.hreq = some m) :
    Running s k v.takeAnswer := by
  obtain ⟨stage, i, word⟩ := legal_of_request h.inv request
  rw [h.frozen.cmd] at word
  have state := (portInv_iff v).mp h.port h.busy i (h.frozen.cmd ▸ word)
  rw [request, h.frozen.commandMessages] at state
  have inv := h.inv.takeAnswer
  have port := takeAnswer_portInv h.port
  have frozen := h.frozen.trans (takeAnswer_frozen v)
  rw [takeAnswer_some request] at inv port frozen ⊢
  obtain ⟨pos, route⟩ := (h.route i word).answer (u := { v with hreq := none, hist := v.hist ++ [.resp (v.hashOf m)] })
    stage state rfl (answered_append _ _)
  exact ⟨frozen, h.busy, inv, port, pos, fun j word' => by cases word.symm.trans word'; exact route⟩

theorem takeAnswer_turns (s : State) : s.takeAnswer.turns = s.turns := by
  rw [State.takeAnswer]
  split <;> rfl

theorem Running.takeAnswer (h : Running s (k + 1) v) : Running s (k + 1) v.takeAnswer := by
  cases request : v.hreq with
  | none => rwa [takeAnswer_none request]
  | some m => exact (h.answer request).mono (Nat.le_succ k)

theorem endStage_frozen (frozen : Frozen s v) (i : Instr) : endStage i v = endStage i s := by
  obtain ⟨e, runs⟩ := exec_next i s
  simp only [endStage, runs, exec_frozen frozen runs]
  rfl

/-- The next stage of the path is one stage nearer, and not the last: the last is END. -/
theorem OnRoute.move (h : OnRoute s i v (k + 1)) (notEnd : endStage i s ≠ v.stage) {st : Stage}
    (after : stageAfter v.stage (stagePath i) = some st) (ne_fin : st ≠ .fin) (stage : u.stage = st)
    (taken : u.digestsTaken = v.digestsTaken) : 1 ≤ k ∧ OnRoute s i u k := by
  obtain ⟨pre, post, path, -, ahead, count⟩ := h
  have once : v.stage ∉ pre := by
    have nodup := path ▸ stagePath_nodup i
    exact fun mem => (List.nodup_append.mp nodup).2.2 _ mem _ List.mem_cons_self rfl
  rw [path, stageAfter_append once] at after
  obtain ⟨rest, rfl⟩ : ∃ rest, post = st :: rest := List.head?_eq_some_iff.mp after
  have last := stagePath_getLast i
  have ne : rest ≠ [] := by
    rintro rfl
    rw [path] at last
    simp at last
    exact ne_fin last
  have toGo : 1 ≤ rest.length := List.length_pos_of_ne_nil ne
  rw [List.length_cons] at count
  refine ⟨by omega, pre ++ [v.stage], rest, by rw [path, stage, List.append_assoc]; rfl, ne, ?_, ?_⟩
  · simp [ahead, notEnd]
  · rw [unanswered, taken, ← unanswered]
    omega

/-- What a turn of the block does to a running command: it completes, comes nearer, or waits for an answer. -/
theorem Running.work (h : Running s (k + 1) v) : ∃ u, v.workStage = .next u ∧
    (Completed s u ∨ (u.turns = v.turns ∧ (Running s k u ∨ (Running s (k + 1) u ∧ u.hreq.isSome = true)))) := by
  cases word : decode s.cmd with
  | error e => exact ⟨_, workStage_illegal h.busy (h.frozen.cmd ▸ word), Or.inl (completed_of_illegal word)⟩
  | ok i =>
    have word' : decode v.cmd = .ok i := h.frozen.cmd ▸ word
    obtain ⟨u, works, inv⟩ := h.inv.workStage
    have port := workStage_portInv h.port works
    refine ⟨u, works, ?_⟩
    rcases workStage_cases h.busy word' with
      ⟨-, request, waits⟩ | ⟨m, stage, quiet, message, sends⟩ | ⟨-, completes⟩ | ⟨st, -, notEnd, after, ne_fin, moves⟩
    · cases works.symm.trans waits
      exact Or.inr ⟨rfl, Or.inr ⟨h, request⟩⟩
    · cases works.symm.trans sends
      have route : OnRoute s i _ (k + 1) :=
        (h.route i word).congr (u := { v with hreq := some m, hist := v.hist ++ [.req m] }) rfl (answered_append _ _)
      exact Or.inr ⟨rfl, Or.inr ⟨⟨h.frozen.trans rfl, h.busy, inv, port, h.pos,
        fun j word'' => by cases word.symm.trans word''; exact route⟩, rfl⟩⟩
    · exact Or.inl (completed_of_exec h.frozen word (completes.symm.trans works))
    · cases works.symm.trans moves
      rw [endStage_frozen h.frozen] at notEnd
      obtain ⟨pos, route⟩ := (h.route i word).move (u := { v with stage := st }) notEnd after ne_fin rfl rfl
      exact Or.inr ⟨rfl, Or.inl ⟨h.frozen.trans rfl, h.busy, inv, port, pos,
        fun j word'' => by cases word.symm.trans word''; exact route⟩⟩

theorem Running.runCommand (h : Running s k v) : ∃ u, v.runCommand = .next u ∧ Completed s u := by
  cases word : decode s.cmd with
  | error e => exact ⟨_, runCommand_illegal h.busy (h.frozen.cmd ▸ word), completed_of_illegal word⟩
  | ok i =>
    obtain ⟨u, runs⟩ := exec_next i v
    exact ⟨u, (runCommand_legal h.busy (h.frozen.cmd ▸ word)).trans runs, completed_of_exec h.frozen word runs⟩

/-! Lists of turns. -/

/-- From v, within N steps the word accepted in s completes; or after N steps the schedule is `rest` and P holds. -/
def Reaches (s v : State) (N : Nat) (rest : List Turn) (P : State → Prop) : Prop :=
  (∃ n u, n ≤ N ∧ Host.Core.run Sys2Proof.core n v = .next u ∧ Completed s u) ∨
  (∃ u, Host.Core.run Sys2Proof.core N v = .next u ∧ u.turns = rest ∧ P u)

theorem run_add {m : Nat} : ∀ {n : Nat} {v u : State}, Host.Core.run Sys2Proof.core n v = .next u →
    Host.Core.run Sys2Proof.core (n + m) v = Host.Core.run Sys2Proof.core m u
  | 0, v, u, h => by
    cases h
    rw [Nat.zero_add]
  | n + 1, v, u, h => by
    rw [Nat.succ_add]
    simp only [Host.Core.run] at h ⊢
    cases next : Sys2Proof.core.step v with
    | next w =>
      rw [next] at h
      exact run_add h
    | fault r => rw [next] at h; cases h
    | refused r => rw [next] at h; cases h

namespace Reaches

variable {N M : Nat} {rest rest' : List Turn} {P Q : State → Prop}

theorem here (turns : v.turns = rest) (h : P v) : Reaches s v 0 rest P := Or.inr ⟨v, run_zero v, turns, h⟩

theorem trans (h : Reaches s v N rest P) (next : ∀ u, u.turns = rest → P u → Reaches s u M rest' Q) :
    Reaches s v (N + M) rest' Q := by
  rcases h with ⟨n, u, le, runs, completed⟩ | ⟨u, runs, turns, hu⟩
  · exact Or.inl ⟨n, u, le.trans (Nat.le_add_right N M), runs, completed⟩
  · rcases next u turns hu with ⟨n, w, le, runs', completed⟩ | ⟨w, runs', turns', hw⟩
    · exact Or.inl ⟨N + n, w, Nat.add_le_add_left le N, (run_add runs).trans runs', completed⟩
    · exact Or.inr ⟨w, (run_add runs).trans runs', turns', hw⟩

theorem imp (h : Reaches s v N rest P) (weaken : ∀ u, P u → Q u) : Reaches s v N rest Q :=
  h.imp_right fun ⟨u, runs, turns, hu⟩ => ⟨u, runs, turns, weaken u hu⟩

/-- One step that completes, or keeps the rest of the schedule and P. -/
theorem ofStep (next : step v = .next u) (h : Completed s u ∨ (u.turns = rest ∧ P u)) : Reaches s v 1 rest P := by
  have runs : Host.Core.run Sys2Proof.core 1 v = .next u := (run_succ 0 next).trans (run_zero u)
  rcases h with completed | ⟨turns, hu⟩
  · exact Or.inl ⟨1, u, le_rfl, runs, completed⟩
  · exact Or.inr ⟨u, runs, turns, hu⟩

/-- What every turn but a reset keeps, a list of them keeps. -/
theorem list (keeps : ∀ v t ts, P v → v.turns = t :: ts → t ≠ .rst → Reaches s v 1 ts P) :
    ∀ {g : List Turn} {v : State}, P v → v.turns = g ++ rest → .rst ∉ g → Reaches s v g.length rest P
  | [], _, h, turns, _ => here turns h
  | t :: g, v, h, turns, noReset => by
    obtain ⟨ne, later⟩ := not_or.mp (List.mem_cons.not.mp noReset)
    rw [List.length_cons, Nat.add_comm]
    exact (keeps v t _ h turns (Ne.symm ne)).trans fun u turns' hu => list keeps hu turns' later

end Reaches

/-- After a turn of the block in a state k + 1 from the end: nearer, or the primitive is asked. -/
def Asked (s : State) (k : Nat) (v : State) : Prop :=
  Running s k v ∨ (Running s (k + 1) v ∧ v.hreq.isSome = true)

theorem Asked.running (h : Asked s k v) : Running s (k + 1) v :=
  h.elim (fun nearer => nearer.mono (Nat.le_succ k)) And.left

theorem Running.reaches_work {ts : List Turn} (h : Running s (k + 1) v) (turns : v.turns = .work :: ts) :
    Reaches s v 1 ts (Asked s k) := by
  obtain ⟨u, works, outcome⟩ := (h.popped ts).work
  exact .ofStep ((step_work turns).trans works) outcome

/-- The atomic run completes the command. -/
theorem Running.reaches_run {ts : List Turn} (h : Running s k v) (turns : v.turns = .run :: ts) (P : State → Prop) :
    Reaches s v 1 ts P := by
  obtain ⟨u, runs, completed⟩ := (h.popped ts).runCommand
  exact .ofStep ((step_run turns).trans runs) (Or.inl completed)

/-- Every turn but a reset keeps a running command at its distance, or completes it. -/
theorem Running.reaches_turn {t : Turn} {ts : List Turn} (h : Running s k v) (turns : v.turns = t :: ts)
    (ne : t ≠ .rst) : Reaches s v 1 ts (Running s k) := by
  obtain ⟨l, rfl⟩ : ∃ l, k = l + 1 := ⟨k - 1, by have := h.pos; omega⟩
  cases t with
  | rst => exact absurd rfl ne
  | access q =>
    obtain ⟨kept, -, turns'⟩ := (h.popped ts).access q
    exact .ofStep (step_access turns) (Or.inr ⟨turns', kept⟩)
  | work => exact (h.reaches_work turns).imp fun u asked => asked.running
  | run => exact h.reaches_run turns _
  | answer => exact .ofStep (step_answer turns) (Or.inr ⟨takeAnswer_turns _, (h.popped ts).takeAnswer⟩)

/-- The primitive's turn after the block has asked. -/
theorem Asked.reaches_answer {ts : List Turn} (h : Asked s k v) (turns : v.turns = .answer :: ts) :
    Reaches s v 1 ts (Running s k) := by
  rcases h with nearer | ⟨running, asked⟩
  · exact nearer.reaches_turn turns Turn.noConfusion
  · obtain ⟨m, request⟩ := Option.isSome_iff_exists.mp asked
    exact .ofStep (step_answer turns) (Or.inr ⟨takeAnswer_turns _, (running.popped ts).answer request⟩)

/-- Any turn but a reset after the block has asked. -/
theorem Asked.reaches_turn {t : Turn} {ts : List Turn} (h : Asked s k v) (turns : v.turns = t :: ts)
    (ne : t ≠ .rst) : Reaches s v 1 ts (Asked s k) := by
  rcases h with nearer | ⟨running, asked⟩
  · exact (nearer.reaches_turn turns ne).imp fun u => Or.inl
  · cases t with
    | rst => exact absurd rfl ne
    | access q =>
      obtain ⟨kept, hreq, turns'⟩ := (running.popped ts).access q
      exact .ofStep (step_access turns) (Or.inr ⟨turns', Or.inr ⟨kept, by rw [hreq]; exact asked⟩⟩)
    | work => exact running.reaches_work turns
    | run => exact running.reaches_run turns _
    | answer => exact (Asked.reaches_answer (Or.inr ⟨running, asked⟩) turns).imp fun u => Or.inl

/-! Fair rounds. -/

/-- A fair round completes the command or brings it nearer to its end. -/
theorem Running.reaches_round {g rest : List Turn} (h : Running s (k + 1) v) (fair : FairRound g)
    (turns : v.turns = g ++ rest) : Reaches s v g.length rest (Running s k) := by
  obtain ⟨noReset, before, between, after, rfl⟩ := fair
  have noReset₁ : .rst ∉ before := fun mem => noReset (by simp [mem])
  have noReset₂ : .rst ∉ between := fun mem => noReset (by simp [mem])
  have noReset₃ : .rst ∉ after := fun mem => noReset (by simp [mem])
  have start : Reaches s v before.length (.work :: between ++ (.answer :: after ++ rest)) (Running s (k + 1)) :=
    .list (fun v t ts h => h.reaches_turn) h (by simp [turns]) noReset₁
  have asked : Reaches s v (before.length + 1) (between ++ (.answer :: after ++ rest)) (Asked s k) :=
    start.trans fun u turns' running => running.reaches_work turns'
  have stillAsked := asked.trans fun u turns' h =>
    Reaches.list (rest := .answer :: after ++ rest) (fun v t ts h => h.reaches_turn) h turns' noReset₂
  have answered := stillAsked.trans fun u turns' h => h.reaches_answer turns'
  have round := answered.trans fun u turns' h =>
    Reaches.list (rest := rest) (fun v t ts h => h.reaches_turn) h turns' noReset₃
  have length : (before ++ .work :: between ++ .answer :: after).length =
      before.length + 1 + between.length + 1 + after.length := by
    simp only [List.length_append, List.length_cons]
    omega
  exact length ▸ round

/-- As many fair rounds as there are stages and answers to go complete the command. -/
theorem Running.completes : ∀ {rounds : List (List Turn)} {v : State}, Running s rounds.length v →
    (∀ g ∈ rounds, FairRound g) → v.turns = rounds.flatten → Reaches s v rounds.flatten.length [] fun _ => False
  | [], v, h, _, _ => absurd h.pos (by simp)
  | g :: rounds, v, h, fair, turns => by
    have first : Reaches s v g.length rounds.flatten (Running s rounds.length) :=
      h.reaches_round (fair g List.mem_cons_self) turns
    rw [List.flatten_cons, List.length_append]
    exact first.trans fun u turns' running =>
      running.completes (fun g mem => fair g (List.mem_cons_of_mem _ mem)) turns'

end

/-! The bound (log entry 19). -/

theorem expandMessages_length (seed : Bytes) (l : Nat) : (expandMessages seed l).length = sCount l + 1 := by
  simp [expandMessages, chainMessages]

theorem sCount_le {l : Nat} (h : l ≤ 1024) : sCount l ≤ 6 := by
  rw [sCount]
  omega

/-- Where an operand check refuses, the command ends at CHECK (`60_exceptions.md` R214). -/
theorem endStage_of_checkCause {i : Instr} {s : State} (cause : CheckCause s i) : endStage i s = .check := by
  obtain ⟨ev, out, runs, ends⟩ := exec_ends i s
  rw [endStage, runs]
  exact ((ends.badOperand_check_iff (writeSet i) ev).mpr cause).2

theorem unanswered_le (i : Instr) (s v : State) : unanswered i s v ≤ (commandMessages i s).length := by
  rw [unanswered]
  split <;> omega

/-- EXPAND past CHECK makes at most 7 requests (`40_seed_expander.md` R112). -/
theorem unanswered_expand_le {s : State} (inv : s.Inv) (v : State) : unanswered .expand s v ≤ 7 := by
  by_cases wide : s.cfg.width < s.lbits.toNat
  · rw [unanswered, if_pos (endStage_of_checkCause (i := .expand) (Or.inr (Or.inr wide)))]
    exact Nat.zero_le 7
  · have requests := sCount_le ((not_lt.mp wide).trans (width_le_of_wellFormed inv.params))
    have le := unanswered_le .expand s v
    rw [commandMessages, expandMessages_length] at le
    omega

theorem unanswered_generate_le {s : State} (inv : s.Inv) (adef : Bool) (v : State) :
    unanswered (.generate adef) s v ≤ 7 := by
  have width : bitlen s.p ≤ s.cfg.width := bitlen_le_iff.mpr (inv.regsFit .p)
  have requests := sCount_le (width.trans (width_le_of_wellFormed inv.params))
  have le := unanswered_le (.generate adef) s v
  rw [commandMessages, expandMessages_length] at le
  omega

/-- From acceptance no command has more than 16 stages and answers to go: 9 and 7 for GENERATE. -/
theorem onRoute_accepted {s v : State} (inv : s.Inv) (stage : v.stage = .decode) (i : Instr) : OnRoute s i v 16 := by
  have le := unanswered_le i s v
  have count : (stagePath i).tail.length + unanswered i s v ≤ 16 := by
    cases i with
    | expand => exact Nat.add_le_add (show 3 ≤ 9 by decide) (unanswered_expand_le inv v)
    | generate adef => exact Nat.add_le_add (show 9 ≤ 9 by decide) (unanswered_generate_le inv adef v)
    | _ => exact Nat.add_le_add (show _ ≤ 16 by simp [stagePath]) le
  refine ⟨[], (stagePath i).tail, ?_, ?_, List.not_mem_nil, count⟩
  · rw [stage]
    cases i <;> rfl
  · cases i <;> exact List.cons_ne_nil _ _

/-- Settles O59: every fair round brings the command nearer to its end, which is at most 16 away. -/
theorem fairRunsComplete : Obligations.FairRunsComplete := by
  unfold Obligations.FairRunsComplete
  rintro s rounds inv ⟨busy, stage, quiet, hist⟩ sixteen fair
  have running : Running s rounds.length { s with turns := rounds.flatten } :=
    { frozen := rfl
      busy := busy
      inv := inv.withAgents s.ctrl rounds.flatten s.reply s.draws
      port := portInv_accepted hist quiet
      pos := by omega
      route := fun i _ => sixteen ▸ onRoute_accepted inv stage i }
  rcases running.completes fair rfl with ⟨n, u, le, runs, idle, done, outcome⟩ | ⟨_, -, -, impossible⟩
  · exact ⟨n, u, le, runs, idle, done, outcome⟩
  · exact impossible.elim

end Sys2Proof.Machine
end

section
/-! Proofs: the register port (`20_memory.md` sections 2 to 5, `44_system_commands.md` section 2): what a read answers,
what a write stores, and the loads of the host. -/

namespace Sys2Proof.Machine

/-! Valid offsets and their registers (R66, R67, R71). -/

theorem validAccess_big (x : BigReg) {j : Nat} (hj : j < 32) : validAccess (x.base + 4 * j) 4 = true := by
  obtain ⟨_, _, _⟩ := base_bounds x
  exact (validAccess_iff _ 4).mpr ⟨rfl, by omega, by omega⟩

theorem validAccess_seed {j : Nat} (hj : j < 64) : validAccess (0x500 + 4 * j) 4 = true :=
  (validAccess_iff _ 4).mpr ⟨rfl, by omega, by omega⟩

theorem target_bigWord {c : Params} (h : c.wellFormed = true) (x : BigReg) {j : Nat} (hj : j < c.wWords) :
    j < 32 ∧ target c (x.base + 4 * j) = .bigWord x j := by
  obtain ⟨⟨-, le⟩, -⟩ := (params_wellFormed_iff c).mp h
  exact ⟨by omega, by rw [target_big c x (by omega), if_pos hj]⟩

theorem target_seedWord {c : Params} (h : c.wellFormed = true) {j : Nat} (hj : j < c.seedWords) :
    j < 64 ∧ target c (0x500 + 4 * j) = .seedWord j := by
  obtain ⟨-, -, le⟩ := (params_wellFormed_iff c).mp h
  exact ⟨by omega, by rw [target_seed c (by omega), if_pos hj]⟩

/-! Reads (R69, R73). -/

/-- Outside the data regions, and anywhere on an idle block, a valid read answers the register word. -/
theorem access_read_word {s : State} {addr : Nat} (valid : validAccess addr 4 = true)
    (fixed : s.status.busy = false ∨ inDataRegion addr = false) :
    s.access (.read addr 4) = { s with reply := .data (s.wordAt addr) } := by
  rw [access_read s valid, Bool.and_eq_false_iff.mpr fixed]
  rfl

/-- A read changes the port's answer and the count of free values alone. -/
theorem access_read_frame (s : State) (addr width : Nat) :
    ∃ r d, s.access (.read addr width) = { s with reply := r, draws := d } := by
  rcases access_cases s (.read addr width) with h | ⟨_, _, write, -⟩
  · exact h
  · cases write

/-- The answer of an idle block depends on the registers, not on the answer before. -/
theorem access_read_idle {s : State} (idle : s.status.busy = false) (addr width : Nat) :
    s.access (.read addr width) =
      { s with reply := if validAccess addr width = true then .data (s.wordAt addr) else .busError } := by
  by_cases valid : validAccess addr width = true
  · obtain rfl := ((validAccess_iff addr width).mp valid).1
    rw [access_read_word valid (Or.inl idle), if_pos valid]
  · rw [(access_refused s (Bool.not_eq_true _ ▸ valid) 0).1, if_neg valid]

theorem wordAt_reply (s : State) (r : Reply) (addr : Nat) :
    ({ s with reply := r } : State).wordAt addr = s.wordAt addr := by
  simp only [State.wordAt]
  split <;> rfl

/-- Settles O37: the frame of a read, and the answer of an idle block. -/
theorem readsHaveNoSideEffect : Obligations.ReadsHaveNoSideEffect := by
  unfold Obligations.ReadsHaveNoSideEffect
  intro s addr width ts schedule
  refine ⟨_, step_access schedule, ?_, fun idle => ?_⟩
  · obtain ⟨r, d, h⟩ := access_read_frame { s with turns := ts } addr width
    rw [h]
  · have idle' : ({ s with turns := ts } : State).status.busy = false := idle
    rw [access_read_idle idle']
    refine ⟨rfl, ?_⟩
    rw [access_read_idle (by exact idle), wordAt_reply]

/-- Settles O38: the address map gives the word, and the word its value. -/
theorem idleReadsOfData : Obligations.IdleReadsOfData := by
  unfold Obligations.IdleReadsOfData
  intro s inv idle
  refine ⟨fun x j hj => ?_, fun j hj => ?_, access_read_word rfl (Or.inl idle), access_read_word rfl (Or.inl idle)⟩
  · obtain ⟨lt, place⟩ := target_bigWord inv.params x hj
    have word : s.wordAt (x.base + 4 * j) = wordOf (s.big x) j := by rw [State.wordAt, place]
    exact ⟨_, access_read_word (validAccess_big x lt) (Or.inl idle), by rw [word, wordOf_toNat]⟩
  · obtain ⟨lt, place⟩ := target_seedWord inv.params hj
    have word : s.wordAt (0x500 + 4 * j) = seedWord s.seed j := by rw [State.wordAt, place]
    exact ⟨_, access_read_word (validAccess_seed lt) (Or.inl idle), by rw [word, seedWord_toNat]⟩

/-- The fields of STATUS as numbers (`10_state.md` R36). -/
theorem statusWord_toNat (t : Status) : t.word.toNat =
    t.busy.toNat + 2 * t.done.toNat + 4 * t.wrbusy.toNat + 16 * t.err.code.toNat + 256 * t.stage.code.toNat := by
  have err := t.err.code.isLt
  have bit (b : Bool) : b.toNat < 2 ^ 1 := Bool.toNat_lt b
  simp only [Status.word, BitVec.toNat_append, BitVec.toNat_ofBool]
  rw [← Nat.shiftLeft_add_eq_or_of_lt (bit t.busy), ← Nat.shiftLeft_add_eq_or_of_lt (bit t.done),
    ← Nat.shiftLeft_add_eq_or_of_lt (bit t.wrbusy), ← Nat.shiftLeft_add_eq_or_of_lt err]
  simp [Nat.shiftLeft_eq]
  omega

theorem ctrlWord_toNat (c : Ctrl) : c.word.toNat = c.ie.toNat := by
  rw [Ctrl.word, BitVec.toNat_append, BitVec.toNat_ofBool]
  simp

/-- Settles O39: none of the five lies in a data region, and their words have the layouts and codes of the tables. -/
theorem controlReadsAreDefined : Obligations.ControlReadsAreDefined := by
  unfold Obligations.ControlReadsAreDefined
  intro s inv
  have control {addr : Nat} (valid : validAccess addr 4 = true) (h : inDataRegion addr = false) :
      s.access (.read addr 4) = { s with reply := .data (s.wordAt addr) } := access_read_word valid (Or.inr h)
  refine ⟨_, _, _, s.status.err.code.toNat, s.status.stage.code.toNat, control rfl rfl, control rfl rfl, ?_,
    control rfl rfl, ?_, control rfl rfl, ?_, ?_, ?_, control rfl rfl⟩
  · exact cfgWord_toNat inv.params
  · exact ctrlWord_toNat s.ctrl
  · exact statusWord_toNat s.status
  · cases s.status.err <;> decide
  · cases s.status.stage <;> decide

/-! Writes (R70, R72). -/

theorem memWrite_bigWord {s : State} (h : s.cfg.wellFormed = true) {x : BigReg} (writable : x.hostWritable = true)
    {j : Nat} (hj : j < s.cfg.wWords) (v : Word) :
    s.memWrite (x.base + 4 * j) v = s.whenIdle (s.setBig (withWord (s.big x) j v) x) := by
  obtain ⟨-, place⟩ := target_bigWord h x hj
  simp only [State.memWrite, place, writable, if_true]

theorem memWrite_seedWord {s : State} (h : s.cfg.wellFormed = true) {j : Nat} (hj : j < s.cfg.seedWords) (v : Word) :
    s.memWrite (0x500 + 4 * j) v = s.whenIdle { s with seed := withSeedWord s.seed j v } := by
  obtain ⟨-, place⟩ := target_seedWord h hj
  simp only [State.memWrite, place]

theorem memWrite_lbits (s : State) (v : Word) : s.memWrite 0x014 v = s.whenIdle { s with lbits := v } := rfl

theorem memWrite_seedlen (s : State) (v : Word) : s.memWrite 0x018 v = s.whenIdle { s with seedlen := v } := rfl

theorem memWrite_cmd (s : State) (v : Word) : s.memWrite 0x010 v = s.whenIdle (s.accept v) := rfl

/-- A write that only an idle block takes. -/
theorem access_write_idle {s t : State} {addr : Nat} {v : Word} (idle : s.status.busy = false)
    (valid : validAccess addr 4 = true) (taken : s.memWrite addr v = s.whenIdle t) :
    s.access (.write addr 4 v) = { t with reply := .ack } := by
  rw [access_write s valid, taken, whenIdle_idle t idle]

/-- The same write to a busy block is dropped. -/
theorem access_write_dropped {s t : State} {addr : Nat} {v : Word} (busy : s.status.busy = true)
    (valid : validAccess addr 4 = true) (taken : s.memWrite addr v = s.whenIdle t) :
    s.access (.write addr 4 v) = { s with status := { s.status with wrbusy := true }, reply := .ack } := by
  rw [access_write s valid, taken, whenIdle_busy t busy]
  rfl

/-- A write to one word of a writable register of an idle block. -/
theorem access_write_big {s : State} (h : s.cfg.wellFormed = true) (idle : s.status.busy = false) {x : BigReg}
    (writable : x.hostWritable = true) {j : Nat} (hj : j < s.cfg.wWords) (v : Word) :
    s.access (.write (x.base + 4 * j) 4 v) = { s.setBig (withWord (s.big x) j v) x with reply := .ack } :=
  access_write_idle idle (validAccess_big x (target_bigWord h x hj).1) (memWrite_bigWord h writable hj v)

/-- A write to one word of the seed buffer of an idle block. -/
theorem access_write_seed {s : State} (h : s.cfg.wellFormed = true) (idle : s.status.busy = false) {j : Nat}
    (hj : j < s.cfg.seedWords) (v : Word) :
    s.access (.write (0x500 + 4 * j) 4 v) = { s with seed := withSeedWord s.seed j v, reply := .ack } :=
  access_write_idle idle (validAccess_seed (target_seedWord h hj).1) (memWrite_seedWord h hj v)

theorem access_write_seedlen {s : State} (idle : s.status.busy = false) (v : Word) :
    s.access (.write 0x018 4 v) = { s with seedlen := v, reply := .ack } :=
  access_write_idle idle rfl (memWrite_seedlen s v)

theorem access_write_lbits {s : State} (idle : s.status.busy = false) (v : Word) :
    s.access (.write 0x014 4 v) = { s with lbits := v, reply := .ack } :=
  access_write_idle idle rfl (memWrite_lbits s v)

/-- Acceptance by a write to CMD of an idle block (`10_state.md` R38). -/
theorem access_write_cmd {s : State} (idle : s.status.busy = false) (v : Word) :
    s.access (.write 0x010 4 v) = { s.accept v with reply := .ack } :=
  access_write_idle idle rfl (memWrite_cmd s v)

theorem hostWritable_of_not_mem {x : BigReg} (h : x ∉ [BigReg.b1, BigReg.b2, BigReg.discr]) :
    x.hostWritable = true := by
  cases x <;> simp [BigReg.hostWritable] at h ⊢

/-- Settles O40: the replaced word, which stays within W bits. -/
theorem writeOfOneWord : Obligations.WriteOfOneWord := by
  unfold Obligations.WriteOfOneWord
  intro s v inv idle
  refine ⟨fun x j writable hj => ?_, access_write_lbits idle v, access_write_seedlen idle v, access_write_ctrl s v⟩
  exact ⟨withWord (s.big x) j v, withWord_lt v (inv.regsFit x) hj,
    access_write_big inv.params idle (hostWritable_of_not_mem writable) hj v, State.setBig_big_self s _ x,
    fun y ne => State.setBig_big_of_ne s _ ne, withWord_word (s.big x) j v⟩

/-- Settles O41: the four lanes of the replaced word. -/
theorem writeOfSeedWord : Obligations.WriteOfSeedWord := by
  unfold Obligations.WriteOfSeedWord
  intro s j v inv idle hj
  have inside : 4 * j + 3 < s.seed.length := by
    rw [inv.seedSize, Params.seedMax]
    omega
  refine ⟨_, access_write_seed inv.params idle hj v, withSeedWord_length s.seed j v, fun n hn => ?_,
    fun k outside => withSeedWord_frame s.seed j v outside⟩
  rw [withSeedWord_byte s.seed j v inside hn, BitVec.extractLsb'_toNat, Nat.shiftRight_eq_div_pow]

/-- Settles O42: CMD and the data words are taken by an idle block alone, CTRL and STATUS always, and the read-only
offsets never. -/
theorem writesWhileBusy : Obligations.WritesWhileBusy := by
  unfold Obligations.WritesWhileBusy
  intro s v inv busy
  obtain ⟨-, control, slots⟩ := holesReadZeroIgnoreWrites s v inv
  refine ⟨fun addr range => ?_, access_write_ctrl s v, ?_, slots, control⟩
  · rcases range with rfl | rfl | rfl | ⟨j, hj, rfl⟩ | ⟨x, mem, j, hj, rfl⟩
    · exact access_write_dropped busy rfl (memWrite_cmd s v)
    · exact access_write_dropped busy rfl (memWrite_lbits s v)
    · exact access_write_dropped busy rfl (memWrite_seedlen s v)
    · exact access_write_dropped busy (validAccess_seed (target_seedWord inv.params hj).1)
        (memWrite_seedWord inv.params hj v)
    · have all : ∀ y ∈ [BigReg.p, .a, .r, .a3, .rinv, .b2val], y.hostWritable = true := by decide
      exact access_write_dropped busy (validAccess_big x (target_bigWord inv.params x hj).1)
        (memWrite_bigWord inv.params (all x mem) hj v)
  · obtain ⟨notDone, -⟩ := inv.busyStatus busy
    simp only [access_write_status, Status.writeOneToClear, notDone, Bool.false_and]

/-- Settles O44: CMD is taken by an idle block alone, and lies in no data region. -/
theorem commandAcceptance : Obligations.CommandAcceptance := by
  unfold Obligations.CommandAcceptance
  exact fun s v => ⟨fun idle => access_write_cmd idle v, fun busy => access_write_dropped busy rfl (memWrite_cmd s v),
    access_read_word rfl (Or.inr rfl), rfl⟩

/-- Settles O45: the bits written as 1 clear their flag. -/
theorem statusWriteOneToClear : Obligations.StatusWriteOneToClear := by
  unfold Obligations.StatusWriteOneToClear
  refine ⟨access_write_status, fun s => ?_, fun s v idle => ?_⟩
  · rw [access_write_status]
    simp [State.irq, Status.writeOneToClear]
  · rw [access_write_cmd idle]
    rfl

end Sys2Proof.Machine
end

section
/-! Proofs: the loads of the host (`44_system_commands.md` R197, R198): LDBIG and LDSEED as the word writes they are. -/

namespace Sys2Proof.Machine

/-- The host's writes of the words k to k + m of a value to consecutive offsets. -/
def wordWrites (off : Nat) (word : Nat → Word) (k m : Nat) : List Turn :=
  (List.range' k m).map fun j => hostWr (off + 4 * j) (word j)

theorem wordWrites_zero (off : Nat) (word : Nat → Word) (k : Nat) : wordWrites off word k 0 = [] := rfl

theorem wordWrites_succ (off : Nat) (word : Nat → Word) (k m : Nat) :
    wordWrites off word k (m + 1) = hostWr (off + 4 * k) (word k) :: wordWrites off word (k + 1) m := rfl

theorem wordWrites_eq (off : Nat) (word : Nat → Word) (m : Nat) :
    (List.range m).map (fun j => hostWr (off + 4 * j) (word j)) = wordWrites off word 0 m := by
  rw [wordWrites, List.range_eq_range']

/-! LDBIG (R197). -/

/-- The value of a register that held x after the low k words of n are written. -/
def lowWords (x n k : Nat) : Nat := x / 2 ^ (32 * k) * 2 ^ (32 * k) + n % 2 ^ (32 * k)

theorem lowWords_zero (x n : Nat) : lowWords x n 0 = x := by
  simp [lowWords, Nat.mod_one]

theorem lowWords_all {x n k : Nat} (hx : x < 2 ^ (32 * k)) (hn : n < 2 ^ (32 * k)) : lowWords x n k = n := by
  rw [lowWords, Nat.div_eq_of_lt hx, Nat.mod_eq_of_lt hn, Nat.zero_mul, Nat.zero_add]

/-- Word k of n on top of the low k words. -/
theorem withWord_lowWords (x n k : Nat) : withWord (lowWords x n k) k (wordOf n k) = lowWords x n (k + 1) := by
  have low : n % 2 ^ (32 * k) < 2 ^ (32 * k) := Nat.mod_lt _ (Nat.two_pow_pos _)
  have rest : lowWords x n k % 2 ^ (32 * k) = n % 2 ^ (32 * k) := Nat.mul_add_mod_of_lt low
  have high : lowWords x n k / 2 ^ (32 * k + 32) = x / 2 ^ (32 * k + 32) := by
    rw [pow_add, ← Nat.div_div_eq_div_mul, ← Nat.div_div_eq_div_mul, lowWords, Nat.mul_comm,
      Nat.mul_add_div (Nat.two_pow_pos _), Nat.div_eq_of_lt low, Nat.add_zero]
  have word : n % 2 ^ (32 * k + 32) = n % 2 ^ (32 * k) + 2 ^ (32 * k) * (n / 2 ^ (32 * k) % 2 ^ 32) := by
    rw [pow_add, Nat.mod_mul]
  rw [withWord, rest, high, wordOf_toNat, lowWords, Nat.mul_succ, word]
  ring

/-- v after writes of the host to register x, which leave the value n in it and the schedule ts to go. -/
def State.loaded (v : State) (ts : List Turn) (x : BigReg) (n : Nat) : State :=
  ({ v with turns := ts, reply := .ack } : State).setBig n x

theorem loaded_cfg (v : State) (ts : List Turn) (x : BigReg) (n : Nat) : (v.loaded ts x n).cfg = v.cfg :=
  State.setBig_cfg _ n x

theorem loaded_status (v : State) (ts : List Turn) (x : BigReg) (n : Nat) : (v.loaded ts x n).status = v.status :=
  State.setBig_status _ n x

theorem loaded_turns (v : State) (ts : List Turn) (x : BigReg) (n : Nat) : (v.loaded ts x n).turns = ts :=
  State.setBig_turns _ n x

theorem loaded_big (v : State) (ts : List Turn) (x : BigReg) (n : Nat) : (v.loaded ts x n).big x = n :=
  State.setBig_big_self _ n x

theorem loaded_loaded (v : State) (ts ts' : List Turn) (x : BigReg) (m n : Nat) :
    (v.loaded ts x m).loaded ts' x n = v.loaded ts' x n := by
  cases x <;> rfl

/-- One word write of LDBIG. -/
theorem step_hostWr_big {v : State} {x : BigReg} {j : Nat} {w : Word} {ts : List Turn}
    (h : v.cfg.wellFormed = true) (idle : v.status.busy = false) (writable : x.hostWritable = true)
    (hj : j < v.cfg.wWords) (turns : v.turns = hostWr (x.base + 4 * j) w :: ts) :
    step v = .next (v.loaded ts x (withWord (v.big x) j w)) := by
  rw [step_access turns, access_write_big (s := { v with turns := ts }) h idle writable hj]
  cases x <;> rfl

/-- The words k to k + m of n, written in this order over the low k words. -/
theorem run_hostWr_big {x : BigReg} {n old : Nat} {rest : List Turn} (writable : x.hostWritable = true) :
    ∀ {m k : Nat} {v : State}, v.cfg.wellFormed = true → v.status.busy = false → k + m < v.cfg.wWords →
    v.big x = lowWords old n k → v.turns = wordWrites x.base (wordOf n) k (m + 1) ++ rest →
    Host.Core.run Sys2Proof.core (m + 1) v = .next (v.loaded rest x (lowWords old n (k + m + 1)))
  | 0, k, v, h, idle, hk, held, turns => by
    rw [wordWrites_succ, wordWrites_zero, List.singleton_append] at turns
    have next := step_hostWr_big h idle writable (show k < _ from hk) turns
    rw [held, withWord_lowWords] at next
    exact (run_succ 0 next).trans (run_zero _)
  | m + 1, k, v, h, idle, hk, held, turns => by
    rw [wordWrites_succ, List.cons_append] at turns
    have next := step_hostWr_big h idle writable (by omega) turns
    rw [held, withWord_lowWords] at next
    have later := run_hostWr_big (m := m) (k := k + 1) (n := n) (old := old) (rest := rest)
      (v := v.loaded _ x (lowWords old n (k + 1))) writable ((loaded_cfg ..).symm ▸ h)
      ((loaded_status ..).symm ▸ idle) (by rw [loaded_cfg]; omega) (loaded_big ..) (loaded_turns ..)
    rw [loaded_loaded, show k + 1 + m + 1 = k + (m + 1) + 1 by omega] at later
    exact (run_succ (m + 1) next).trans later

/-- Settles O47: all W/32 words are written, so nothing of the old value is left. -/
theorem loadBigInteger : Obligations.LoadBigInteger := by
  unfold Obligations.LoadBigInteger
  intro s x n rest inv idle mem hn
  obtain ⟨⟨pos, -⟩, -⟩ := (params_wellFormed_iff s.cfg).mp inv.params
  obtain ⟨m, words⟩ : ∃ m, s.cfg.wWords = m + 1 := ⟨s.cfg.wWords - 1, by omega⟩
  have held : ({ s with turns := hostLdBig s.cfg x n ++ rest } : State).big x = lowWords (s.big x) n 0 := by
    rw [lowWords_zero]
    cases x <;> rfl
  have turns : hostLdBig s.cfg x n ++ rest = wordWrites x.base (wordOf n) 0 (m + 1) ++ rest := by
    rw [hostLdBig, words, wordWrites_eq]
  have all : lowWords (s.big x) n (0 + m + 1) = n := by
    rw [Nat.zero_add, ← words]
    exact lowWords_all (inv.regsFit x) hn
  have run := run_hostWr_big (v := { s with turns := hostLdBig s.cfg x n ++ rest }) (hostWritable_of_not_mem mem)
    inv.params idle (show 0 + m < s.cfg.wWords by omega) held turns
  rw [words]
  exact run.trans (by rw [all]; rfl)

/-! LDSEED (R198). -/

/-- Lane n of word j of a seed is its byte 4j + n. -/
theorem seedWord_lane (bs : Bytes) (j : Nat) {n : Nat} (hn : n < 4) :
    (seedWord bs j).extractLsb' (8 * n) 8 = bs.getD (4 * j + n) 0 := by
  have lt (k : Nat) : (bs.getD k 0).toNat < 2 ^ 8 := (bs.getD k 0).isLt
  have lt0 := lt (4 * j)
  have lt1 := lt (4 * j + 1)
  have lt2 := lt (4 * j + 2)
  have lt3 := lt (4 * j + 3)
  apply BitVec.eq_of_toNat_eq
  rw [BitVec.extractLsb'_toNat, seedWord_toNat, Nat.shiftRight_eq_div_pow]
  have lanes : n = 0 ∨ n = 1 ∨ n = 2 ∨ n = 3 := by omega
  rcases lanes with rfl | rfl | rfl | rfl
  · simp only [Nat.mul_zero, pow_zero, Nat.div_one, Nat.add_zero]
    omega
  all_goals omega

/-- The seed buffer `new` is `old` with the bytes of bs from 4k to 4l. -/
structure SeedCopied (bs old new : Bytes) (k l : Nat) : Prop where
  length : new.length = old.length
  copied : ∀ i, 4 * k ≤ i → i < 4 * l → new.getD i 0 = bs.getD i 0
  kept : ∀ i, i < 4 * k ∨ 4 * l ≤ i → new.getD i 0 = old.getD i 0

/-- One word of the seed more. -/
theorem SeedCopied.cons {bs old new : Bytes} {k l : Nat} (inside : 4 * k + 3 < old.length) (lt : k < l)
    (h : SeedCopied bs (withSeedWord old k (seedWord bs k)) new (k + 1) l) : SeedCopied bs old new k l where
  length := h.length.trans (withSeedWord_length old k _)
  copied i lo hi := by
    by_cases later : 4 * (k + 1) ≤ i
    · exact h.copied i later hi
    · obtain ⟨n, rfl⟩ : ∃ n, i = 4 * k + n := ⟨i - 4 * k, by omega⟩
      rw [h.kept _ (Or.inl (by omega)), withSeedWord_byte old k _ inside (by omega), seedWord_lane bs k (by omega)]
  kept i outside := by
    rw [h.kept i (by omega), withSeedWord_frame old k _ (by omega)]

theorem SeedCopied.refl (bs old : Bytes) (k : Nat) : SeedCopied bs old old k k :=
  ⟨rfl, fun i lo hi => by omega, fun _ _ => rfl⟩

/-- The words k to l of the seed, written in this order. -/
theorem run_hostWr_seed {bs : Bytes} {rest : List Turn} : ∀ {m k : Nat} {v : State}, v.cfg.wellFormed = true →
    v.status.busy = false → v.seed.length = v.cfg.seedMax → k + m ≤ v.cfg.seedWords →
    v.turns = wordWrites 0x500 (seedWord bs) k m ++ rest →
    ∃ r new, Host.Core.run Sys2Proof.core m v = .next { v with turns := rest, reply := r, seed := new } ∧
      SeedCopied bs v.seed new k (k + m)
  | 0, k, v, _, _, _, _, turns => by
    refine ⟨v.reply, v.seed, ?_, .refl bs v.seed k⟩
    rw [wordWrites_zero, List.nil_append] at turns
    rw [run_zero, ← turns]
  | m + 1, k, v, h, idle, size, hk, turns => by
    have inside : 4 * k + 3 < v.seed.length := by
      rw [size, Params.seedMax]
      omega
    rw [wordWrites_succ, List.cons_append] at turns
    have next := step_access turns
    rw [access_write_seed (s := { v with turns := wordWrites 0x500 (seedWord bs) (k + 1) m ++ rest }) h idle
      (show k < v.cfg.seedWords by omega)] at next
    obtain ⟨r, new, runs, copied⟩ := run_hostWr_seed (m := m) (k := k + 1) (v := { v with
      turns := wordWrites 0x500 (seedWord bs) (k + 1) m ++ rest
      reply := .ack, seed := withSeedWord v.seed k (seedWord bs k) }) h idle ((withSeedWord_length _ _ _).trans size)
      (show k + 1 + m ≤ v.cfg.seedWords by omega) rfl
    refine ⟨r, new, (run_succ m next).trans runs, ?_⟩
    rw [show k + (m + 1) = k + 1 + m by omega]
    exact .cons inside (by omega) copied

/-- A buffer that begins with the bytes bs. -/
theorem take_eq_of_getD {bs new : Bytes} (le : bs.length ≤ new.length)
    (same : ∀ i, i < bs.length → new.getD i 0 = bs.getD i 0) : new.take bs.length = bs := by
  apply List.ext_getElem (by simp [le])
  intro i _ hi
  have := same i hi
  rw [List.getD_eq_getElem _ _ (by omega), List.getD_eq_getElem _ _ hi] at this
  rw [List.getElem_take, this]

/-- Settles O48: the words of the seed, then its length. -/
theorem loadSeed : Obligations.LoadSeed := by
  unfold Obligations.LoadSeed
  intro s bs rest inv idle _ fits
  obtain ⟨-, -, seedWords⟩ := (params_wellFormed_iff s.cfg).mp inv.params
  have max : s.cfg.seedMax = 4 * s.cfg.seedWords := rfl
  have turns : hostLdSeed bs ++ rest =
      wordWrites 0x500 (seedWord bs) 0 ((bs.length + 3) / 4) ++ hostWr 0x018 (BitVec.ofNat 32 bs.length) :: rest := by
    rw [hostLdSeed, wordWrites_eq, List.append_assoc]
    rfl
  obtain ⟨r, new, runs, copied⟩ := run_hostWr_seed (k := 0) (v := { s with turns := hostLdSeed bs ++ rest })
    inv.params idle inv.seedSize (show 0 + (bs.length + 3) / 4 ≤ s.cfg.seedWords by omega) turns
  have last := step_access (s := { s with
    turns := hostWr 0x018 (BitVec.ofNat 32 bs.length) :: rest, reply := r, seed := new }) rfl
  rw [access_write_seedlen (by exact idle)] at last
  have size : bs.length ≤ new.length := by
    rw [copied.length]
    exact fits.trans_eq inv.seedSize.symm
  have count : (BitVec.ofNat 32 bs.length).toNat = bs.length := by
    rw [BitVec.toNat_ofNat, Nat.mod_eq_of_lt (by omega)]
  refine ⟨_, (run_add runs).trans ((run_succ 0 last).trans (run_zero _)), ?_, count,
    fun k hk => copied.kept k (Or.inr (by omega)), rfl⟩
  rw [State.seedBytes, count]
  exact take_eq_of_getD size fun i hi => copied.copied i (by omega) (by omega)

end Sys2Proof.Machine
end

section
/-! Proofs: byte strings, the transfers of the hash port and the first block of the expansion (`00_scope.md` section 4,
`60_exceptions.md` R227, R228, `40_seed_expander.md` R113 to R115). -/

namespace Sys2Proof.Machine

/-! The shortest byte string of a value (R12). -/

/-- A value fits n bytes exactly when its shortest byte string has at most n. -/
theorem ceilDiv_bitlen_le_iff {v n : Nat} : ceilDiv (bitlen v) 8 ≤ n ↔ v < 256 ^ n := by
  rw [show 256 = 2 ^ 8 from rfl, ← pow_mul, ← bitlen_le_iff, ceilDiv]
  omega

theorem be2int_int2beMin (n : Nat) : be2int (int2beMin n) = n := by
  rw [int2beMin, be2int_int2be, Nat.mod_eq_of_lt (ceilDiv_bitlen_le_iff.mp le_rfl)]

/-- Any byte string of value n is at least as long as the shortest one. -/
theorem int2beMin_length_le {bs : Bytes} {n : Nat} (h : be2int bs = n) : (int2beMin n).length ≤ bs.length := by
  rw [int2beMin_length, ceilDiv_bitlen_le_iff, ← h]
  exact be2int_lt bs

/-- Settles O4: without a leading zero byte it would have the value of its tail, which is shorter. -/
theorem minimalBigEndianEncoding : Obligations.MinimalBigEndianEncoding := by
  unfold Obligations.MinimalBigEndianEncoding
  intro n pos
  refine ⟨be2int_int2beMin n, ?_, int2beMin_length n, fun bs => int2beMin_length_le⟩
  have value := be2int_int2beMin n
  match bytes : int2beMin n with
  | [] =>
    rw [bytes, be2int_nil] at value
    omega
  | b :: bs =>
    refine ⟨b, bs, rfl, fun zero => ?_⟩
    have tail : be2int bs = n := by
      rw [bytes, be2int_cons, zero] at value
      simpa using value
    have shorter := int2beMin_length_le tail
    rw [bytes, List.length_cons] at shorter
    omega

/-! The transfers of a request and the digest on the port (R65, R228). -/

/-- Transfer k of a message: its byte k, and the marks of the first and of the last. -/
theorem beatsFrom_getElem? (first : Bool) (m : Bytes) (k : Nat) :
    (beatsFrom first m)[k]? = m[k]?.map fun b => ⟨b, first && k == 0, k + 1 == m.length⟩ := by
  induction first, m using beatsFrom.induct generalizing k with
  | case1 first => rfl
  | case2 first b => cases k <;> simp [beatsFrom]
  | case3 first b bs more ih =>
    have pos : 0 < bs.length := List.length_pos_iff.mpr more
    cases k with
    | zero =>
      simp [beatsFrom]
      omega
    | succ k => simp [beatsFrom, ih]

theorem beatsFrom_byte (first : Bool) (m : Bytes) : (beatsFrom first m).map HqBeat.byte = m := by
  apply List.ext_getElem?
  intro k
  rw [List.getElem?_map, beatsFrom_getElem?]
  cases m[k]? <;> rfl

/-- One byte more on a 160-bit value that has room for it. -/
theorem shiftByte_toNat {acc : BitVec 160} (b : Byte) (room : acc.toNat * 256 < 2 ^ 160) :
    (acc <<< 8 ||| b.setWidth 160).toNat = acc.toNat * 256 + b.toNat := by
  have byte : b.toNat < 2 ^ 8 := b.isLt
  rw [BitVec.toNat_or, BitVec.toNat_shiftLeft, BitVec.toNat_setWidth, Nat.mod_eq_of_lt (a := b.toNat) (by omega),
    Nat.mod_eq_of_lt (by rw [Nat.shiftLeft_eq]; exact room), ← Nat.shiftLeft_add_eq_or_of_lt byte, Nat.shiftLeft_eq]

/-- Shifting bytes into a 160-bit value with room for them all gives their big-endian value. -/
theorem shiftBytes_toNat : ∀ (bs : Bytes) {acc : BitVec 160}, (acc.toNat + 1) * 256 ^ bs.length ≤ 2 ^ 160 →
    (bs.foldl (fun (acc : BitVec 160) (b : Byte) => acc <<< 8 ||| b.setWidth 160) acc).toNat =
      acc.toNat * 256 ^ bs.length + be2int bs
  | [], acc, _ => by simp
  | b :: bs, acc, room => by
    have pos : 1 ≤ 256 ^ bs.length := Nat.one_le_pow _ _ (by decide)
    have byte : b.toNat < 2 ^ 8 := b.isLt
    rw [List.length_cons, pow_succ'] at room
    have next := shiftByte_toNat b (acc := acc) (by nlinarith)
    rw [List.foldl_cons, shiftBytes_toNat bs (by rw [next]; nlinarith), next, be2int_cons, List.length_cons, pow_succ']
    ring

theorem digestWord_toNat (d : Digest) : (digestWord d).toNat = be2int d.toList := by
  have room : ((0 : BitVec 160).toNat + 1) * 256 ^ d.toList.length ≤ 2 ^ 160 := by
    rw [Vector.length_toList]
    decide
  exact (shiftBytes_toNat d.toList room).trans (by simp)

/-- Byte k of a big-endian value. -/
theorem be2int_byte (bs : Bytes) {k : Nat} (h : k < bs.length) :
    be2int bs / 256 ^ (bs.length - 1 - k) % 256 = bs[k].toNat := by
  have length : bs.length - 1 - k = (bs.drop (k + 1)).length := by
    rw [List.length_drop]
    omega
  have split : be2int bs = (be2int (bs.take k) * 256 + bs[k].toNat) * 256 ^ (bs.drop (k + 1)).length
      + be2int (bs.drop (k + 1)) := by
    conv_lhs => rw [← List.take_append_drop k bs, List.drop_eq_getElem_cons h]
    rw [be2int_append, be2int_cons, List.length_cons, pow_succ']
    ring
  have byte : bs[k].toNat < 256 := bs[k].isLt
  rw [length, split, Nat.mul_comm _ (256 ^ _), Nat.mul_add_div (by positivity), Nat.div_eq_of_lt (be2int_lt _)]
  omega

/-- Settles O5, by the place of each byte in the request and of each in the digest. -/
theorem hashPortValues : Obligations.HashPortValues := by
  unfold Obligations.HashPortValues
  refine ⟨fun m => ⟨beatsFrom_byte true m, fun k b beat => ?_⟩, fun d => ⟨digestWord_toNat d, fun k hk => ?_⟩⟩
  · rw [requestBeats, beatsFrom_getElem?, Option.map_eq_some_iff] at beat
    obtain ⟨byte, -, rfl⟩ := beat
    simp
  · apply BitVec.eq_of_toNat_eq
    have byte := be2int_byte d.toList (k := k) (by simpa using hk)
    simp only [Vector.length_toList, Vector.getElem_toList] at byte
    rw [show 256 = 2 ^ 8 from rfl, ← pow_mul] at byte
    rw [BitVec.extractLsb'_toNat, Nat.shiftRight_eq_div_pow, digestWord_toNat, ← byte]

/-! The first block (R113 to R115). -/

/-- The last k bytes carry the value modulo 256^k. -/
theorem be2int_lastBytes {k : Nat} {bs : Bytes} (h : k ≤ bs.length) :
    be2int (lastBytes k bs) = be2int bs % 256 ^ k := by
  have split := be2int_append (bs.take (bs.length - k)) (lastBytes k bs)
  have low := be2int_lt (lastBytes k bs)
  rw [lastBytes_length k bs h] at split low
  rw [show bs.take (bs.length - k) ++ lastBytes k bs = bs from List.take_append_drop ..] at split
  rw [split]
  exact (Nat.mul_add_mod_of_lt low).symm

theorem maskFirst_length (cnt : Nat) (bs : Bytes) : (maskFirst cnt bs).length = bs.length := by
  cases bs <;> rfl

theorem hBytes_le {l : Nat} (h : 1 ≤ l) : hBytes l ≤ 20 := by
  obtain ⟨-, hi, -⟩ := hBits_spec h
  rw [hBytes, ceilDiv]
  omega

/-- Settles O7: the last hBytes bytes are the digest modulo 256^hBytes, and the mask cuts them to hBits − 1 bits. -/
theorem firstBlockIsDigestModulo : Obligations.FirstBlockIsDigestModulo := by
  unfold Obligations.FirstBlockIsDigestModulo
  intro l d h
  obtain ⟨lo, hi, total⟩ := hBits_spec h
  have inside : hBytes l ≤ d.toList.length := by
    rw [Vector.length_toList]
    exact hBytes_le h
  have divides : 2 ^ (hBits l - 1) ∣ 256 ^ hBytes l := by
    rw [show 256 = 2 ^ 8 from rfl, ← pow_mul, ← hBytes_sub_maskCount h]
    exact pow_dvd_pow 2 (Nat.sub_le _ _)
  refine ⟨lo, hi, total, ?_, ?_⟩
  · rw [firstBlock, maskFirst_length, lastBytes_length _ _ inside]
    rfl
  · rw [firstBlock, be2int_maskFirst _ (maskCount_le l), lastBytes_length _ _ inside, hBytes_sub_maskCount h,
      be2int_lastBytes inside, Nat.mod_mod_of_dvd _ divides]

end Sys2Proof.Machine
end

section
/-! Proofs: the command EXPAND and the hash requests of EXPAND and GENERATE (`40_seed_expander.md` R116, R118,
`60_exceptions.md` R229, `70_reset_and_hazards.md` R254). -/

namespace Sys2Proof.Machine

/-! EXPAND (R118). -/

/-- EXPAND refuses its operands at CHECK. -/
theorem exec_expand_check {s : State} (h : CheckCause s .expand) :
    exec .expand s = .next (({ s with r := 0 } : State).completed .badOperand .check []) := by
  rcases expandStages_ends s with ⟨-, refused⟩ | ⟨fine, -⟩
  · rw [exec, execExpand, refused]
    rfl
  · exact absurd h fine

/-- Past CHECK, EXPAND writes the expansion. -/
theorem exec_expand_ok {s : State} (h : ¬ CheckCause s .expand) :
    exec .expand s = .next (({ s with r := expand s.hashOf s.seedBytes s.lbits.toNat } : State).completed .none .fin
      (portHistory s.hashOf (expandMessages s.seedBytes s.lbits.toNat))) := by
  obtain ⟨seedlen, lbits⟩ := not_or.mp h
  rcases checkSeedLen_cases s with ⟨-, -, okSeed⟩ | ⟨bad, -⟩
  · rcases checkLbits_cases s with ⟨-, -, okBits⟩ | ⟨bad, -⟩
    · rw [exec, execExpand, expandStages, okSeed, okBits]
      rfl
    · exact absurd bad lbits
  · exact absurd bad seedlen

/-- Settles O10: the two operand checks, then the expansion, which fits W bits by its bound. -/
theorem expandCommand : Obligations.ExpandCommand := by
  unfold Obligations.ExpandCommand
  refine ⟨commandHeader_of_encode (by decide) Sys2Proof.Laws.EncodeDecode.expand, fun s => ⟨fun bad => ?_,
    fun seedPos seedFits bitsPos bitsFit => ⟨exec_expand_ok ?_, ?_⟩⟩⟩
  · exact exec_expand_check (or_assoc.mpr bad)
  · simp only [CheckCause, not_or, not_lt]
    exact ⟨⟨seedPos, seedFits⟩, bitsPos, bitsFit⟩
  · exact (expand_lt _ _ bitsPos).trans_le (Nat.pow_le_pow_right (by decide) (by omega))

/-! The requests of an expansion (R116). -/

/-- The message m_k of an expansion, m_0 the seed (R114, R116). -/
def requestMessage (seed : Bytes) (k : Nat) : Bytes := if k = 0 then seed else int2beMin (be2int seed + k)

theorem expandMessages_getElem? {seed : Bytes} {l k : Nat} (h : k ≤ sCount l) :
    (expandMessages seed l)[k]? = some (requestMessage seed k) := by
  cases k with
  | zero => rfl
  | succ k => simp [expandMessages, chainMessages, requestMessage, chainMessage, h]

/-- Every message of an expansion of at most 1024 bits is one to |seed| + 1 bytes long, since z + 6 carries into at most
one byte more. -/
theorem requestMessage_length {seed : Bytes} {k : Nat} (pos : 1 ≤ seed.length) (few : k ≤ 6) :
    1 ≤ (requestMessage seed k).length ∧ (requestMessage seed k).length ≤ seed.length + 1 := by
  cases k with
  | zero => exact ⟨pos, Nat.le_succ _⟩
  | succ k =>
    have power : 256 ≤ 256 ^ seed.length := Nat.le_self_pow (by omega) 256
    have value := be2int_lt seed
    have notZero : ¬ ceilDiv (bitlen (be2int seed + (k + 1))) 8 ≤ 0 := by
      rw [ceilDiv_bitlen_le_iff]
      omega
    rw [requestMessage, if_neg (Nat.succ_ne_zero k), int2beMin_length, ceilDiv_bitlen_le_iff, pow_succ]
    omega

/-- An expansion of L bits makes ceil(L/160) requests. -/
theorem sCount_succ {l : Nat} (h : 1 ≤ l) : sCount l + 1 = (l + 159) / 160 := by
  rw [sCount]
  omega

/-- The history h of the port is n requests m_k for the seed, each answered. -/
def MadeRequests (hash : Bytes → Digest) (seed : Bytes) (h : List PortEvent) (n : Nat) : Prop :=
  h.length = 2 * n ∧ ∀ k, k < n →
    h[2 * k]? = some (.req (requestMessage seed k)) ∧
    h[2 * k + 1]? = some (.resp (hash (requestMessage seed k))) ∧
    1 ≤ (requestMessage seed k).length ∧ (requestMessage seed k).length ≤ seed.length + 1 ∧
    (k = 0 → (requestMessage seed k).length = seed.length)

theorem portHistory_madeRequests (hash : Bytes → Digest) {seed : Bytes} {l : Nat} (pos : 1 ≤ seed.length) (hl : 1 ≤ l)
    (le : l ≤ 1024) : MadeRequests hash seed (portHistory hash (expandMessages seed l)) ((l + 159) / 160) := by
  rw [← sCount_succ hl]
  refine ⟨by rw [portHistory_length, expandMessages_length], fun k hk => ?_⟩
  have few := sCount_le le
  obtain ⟨request, answer⟩ := portHistory_get hash (expandMessages seed l) k
  rw [expandMessages_getElem? (Nat.le_of_lt_succ hk)] at request answer
  obtain ⟨lo, hi⟩ := requestMessage_length pos (k := k) (by omega)
  exact ⟨request, answer, lo, hi, fun zero => by rw [zero]; rfl⟩

/-! The history that a command leaves (R229). -/

/-- A command that CHECK refuses leaves no history, and every other one that of its messages. -/
theorem exec_hist {i : Instr} {s t : State} (h : exec i s = .next t) :
    t.hist = if t.status.stage = .check then [] else portHistory s.hashOf (commandMessages i s) := by
  rw [exec_eq] at h
  cases h
  rcases settle_cases s (writeSet i) (portHistory s.hashOf (commandMessages i s)) (commandStages i s) with
    ⟨u, -, success⟩ | ⟨e, -, error⟩
  · rw [success]
    rfl
  · rw [error]
    rfl

/-- A command that gets past CHECK had no cause to be refused there. -/
theorem not_checkCause_of_stage {i : Instr} {s t : State} (h : exec i s = .next t) (past : t.status.stage ≠ .check) :
    ¬ CheckCause s i := by
  intro cause
  have stage := endStage_of_checkCause cause
  rw [endStage, h] at stage
  exact past stage

/-- Past CHECK the seed is SEEDLEN bytes. -/
theorem seedBytes_length {s : State} (inv : s.Inv) (le : s.seedlen.toNat ≤ s.cfg.seedMax) :
    s.seedBytes.length = s.seedlen.toNat := by
  rw [State.seedBytes, List.length_take, inv.seedSize, Nat.min_eq_left le]

theorem bitlen_eq_of_bounds {p l : Nat} (lo : 2 ^ (l - 1) ≤ p) (hi : p < 2 ^ l) : l = bitlen p := by
  have le : bitlen p ≤ l := bitlen_le_iff.mpr hi
  have notLess : ¬ bitlen p ≤ l - 1 := by
    rw [bitlen_le_iff]
    omega
  omega

/-- P of a block of the invariant has at most 1024 bits. -/
theorem bitlen_p_le {s : State} (inv : s.Inv) : bitlen s.p ≤ s.cfg.width :=
  bitlen_le_iff.mpr (inv.regsFit .p)

/-- Past CHECK, a command whose messages are those of an expansion of the seed to l bits has made them all. -/
theorem exec_madeRequests {i : Instr} {s t : State} {l : Nat} (inv : s.Inv) (h : exec i s = .next t)
    (past : t.status.stage ≠ .check) (messages : commandMessages i s = expandMessages s.seedBytes l)
    (seedlen : ¬ (s.seedlen.toNat < 1 ∨ s.cfg.seedMax < s.seedlen.toNat)) (pos : 1 ≤ l) (le : l ≤ s.cfg.width) :
    MadeRequests s.hashOf s.seedBytes t.hist ((l + 159) / 160) ∧ s.seedBytes.length = s.seedlen.toNat := by
  have length := seedBytes_length inv (not_lt.mp (not_or.mp seedlen).2)
  have hist := exec_hist h
  rw [if_neg past, messages] at hist
  rw [hist]
  exact ⟨portHistory_madeRequests s.hashOf (by omega) pos (le.trans (width_le_of_wellFormed inv.params)), length⟩

/-- Settles O11: past CHECK the history is that of the messages of the expansion, to LBITS or to bitlen(P) bits. -/
theorem hashRequestCount : Obligations.HashRequestCount := by
  unfold Obligations.HashRequestCount
  refine fun s t inv => ⟨fun runs past => ?_, fun adef l runs past lo hi => ?_, fun i runs none => ?_⟩
  · obtain ⟨seedlen, lbits⟩ := not_or.mp (not_checkCause_of_stage runs past)
    obtain ⟨made, length⟩ := exec_madeRequests inv runs past rfl seedlen (by omega) (by omega)
    rw [← length]
    exact made
  · obtain ⟨modulus, rest⟩ := not_or.mp (not_checkCause_of_stage runs past)
    obtain ⟨-, seedlen⟩ := not_or.mp rest
    obtain rfl := bitlen_eq_of_bounds lo hi
    obtain ⟨made, length⟩ := exec_madeRequests inv runs past rfl seedlen (by rw [bitlen_of_pos (by omega)]; omega)
      (bitlen_p_le inv)
    rw [← length]
    exact made
  · rw [exec_hist runs]
    rcases none with check | ⟨notExpand, notGenerate⟩
    · exact if_pos check
    · cases i with
      | expand => exact absurd rfl notExpand
      | generate adef => exact absurd rfl (notGenerate adef)
      | _ => exact ite_self _

end Sys2Proof.Machine
end

section
/-! Proofs: what MODSQRT and SOLVE answer (`41_modular_solver.md` sections 5 and 6): which root, on which moduli, and
that the roots exist on a prime modulus. -/

namespace Sys2Proof.Machine

/-! MODSQRT (R144). -/

/-- Modulo P ≡ 3 (mod 4) the root of a non-zero value is the closed form. -/
theorem modSqrt_ok_closedForm {p v x : Nat} (h3 : p % 4 = 3) (ne_zero : v % p ≠ 0) (root : modSqrt p v = .ok x) :
    x = (v % p) ^ ((p + 1) / 4) % p := by
  have ne_two : p ≠ 2 := by omega
  have odd : p % 2 = 1 := by omega
  by_cases euler : modExp (v % p) ((p - 1) / 2) p = 1
  · simp only [modSqrt, rootCandidate, ne_two, odd, ne_zero, euler, h3, if_true, if_false, ne_eq, not_true,
      one_ne_zero] at root
    split at root
    · rw [← modExp_eq]
      exact (Except.ok.inj root).symm
    · cases root
  · simp [modSqrt, ne_two, odd, ne_zero, euler] at root

/-- A power of a square is the square of the power. -/
theorem isSquare_pow_mod {p v y : Nat} (e : Nat) (square : y * y % p = v % p) :
    y ^ e * y ^ e % p = (v % p) ^ e % p := by
  rw [← mul_pow, Nat.pow_mod, square]

/-- Settles O16: on a residue the unit answers, and its answer is the closed form. -/
theorem modsqrtClosedForm : Obligations.ModsqrtClosedForm := by
  unfold Obligations.ModsqrtClosedForm
  intro s prime h3 ne_zero square
  obtain ⟨x, answer⟩ := modSqrt_of_square prime square
  obtain ⟨y, hy⟩ := square
  have closed := modSqrt_ok_closedForm h3 ne_zero answer
  exact ⟨⟨_, isSquare_pow_mod _ hy⟩, closed ▸ exec_modsqrt_ok prime.two_le answer⟩

/-- Settles O17: what the unit answers is a checked root, and all that it raises on an odd P is NO_SQUARE_ROOT. -/
theorem modsqrtOddModulus : Obligations.ModsqrtOddModulus := by
  unfold Obligations.ModsqrtOddModulus
  intro s h2 odd
  cases answer : modSqrt s.p s.b2val with
  | ok x =>
    obtain ⟨lt, root, -⟩ := modSqrt_ok h2 answer
    exact Or.inl ⟨x, lt, root, exec_modsqrt_ok h2 answer⟩
  | error k =>
    rcases modSqrt_error answer with ⟨-, even, -⟩ | ⟨rfl, -⟩
    · omega
    · exact Or.inr (exec_modsqrt_error h2 answer)

/-! SOLVE on a prime modulus (R150). -/

/-- Modulo a prime every value but 0 has an inverse. -/
theorem gcd_mod_of_prime {p r : Nat} (prime : p.Prime) (ne_zero : r % p ≠ 0) : Nat.gcd (r % p) p = 1 :=
  (Nat.coprime_of_lt_prime ne_zero (Nat.mod_lt r prime.pos) prime).symm

/-- With x the inverse of r, r · y² ≡ c says that y is a root of c · x. -/
theorem root_of_mul_root {p r x y c : Nat} (inverse : r * x % p = 1) (root : r * (y * y) % p = c % p) :
    y * y % p = c * x % p := by
  have ne_one : p ≠ 1 := by rintro rfl; omega
  have one : r * x ≡ 1 [MOD p] := inverse.trans (Nat.one_mod_eq_one.mpr ne_one).symm
  calc y * y = 1 * (y * y) := (one_mul _).symm
    _ ≡ r * x * (y * y) [MOD p] := Nat.ModEq.mul_right _ one.symm
    _ = r * (y * y) * x := by ring
    _ ≡ c * x [MOD p] := Nat.ModEq.mul_right x root

/-- Where c · r⁻¹ is a residue of the prime P, the square-root unit answers. -/
theorem modSqrt_of_mul_root {p r x c : Nat} (prime : p.Prime) (inverse : r * x % p = 1)
    (residue : ∃ y, r * (y * y) % p = c % p) : ∃ b, modSqrt p (c % p * x % p) = .ok b := by
  obtain ⟨y, root⟩ := residue
  refine modSqrt_of_square prime ⟨y, ?_⟩
  rw [Nat.mod_mod, Nat.mod_mul_mod]
  exact root_of_mul_root inverse root

/-- Settles O20: on a prime the inverse and the root both exist. -/
theorem solveSucceedsOnPrimes : Obligations.SolveSucceedsOnPrimes := by
  unfold Obligations.SolveSucceedsOnPrimes
  intro adef s prime h3 ne_zero residue
  have h2 := prime.two_le
  obtain ⟨x, found, lt, inverse⟩ := invStage_ok h2 (gcd_mod_of_prime prime ne_zero)
  have residueA : ∃ y, s.r * (y * y) % s.p = s.effectiveA adef ^ 3 % s.p := residue
  obtain ⟨b, root⟩ := modSqrt_of_mul_root prime inverse residueA
  obtain ⟨below, square, -⟩ := modSqrt_ok h2 root
  exact ⟨x, b, lt, below, inverse, square.trans (Nat.mod_mod _ _), exec_solve_ok h2 h3 (solveStages_ok found root)⟩

end Sys2Proof.Machine
end

section
/-! Proofs: GENERATE (`43_curve_generator.md` R176), every outcome of it, on which primes it succeeds, and when its curve
is singular (`42_discriminant_checker.md`). -/

namespace Sys2Proof.Machine

/-! The stages CUBE to DISC, by the first that raises (R176). -/

section
variable {a x b : Nat} {k : ErrKind} {s : State}

theorem generateWork_inv {e : Raise} (noInverse : invStage s.p s.r = .error e) : generateWork a s = .error e := by
  rw [generateWork, solveStages_inv noInverse]
  rfl

theorem generateWork_sqrt (inverse : invStage s.p s.r = .ok x)
    (noRoot : modSqrt s.p (a ^ 3 % s.p * x % s.p) = .error k) : generateWork a s = .error ⟨k, .sqrt⟩ := by
  rw [generateWork, solveStages_sqrt inverse noRoot]
  rfl

/-- Past SQRT the stage DISC decides. -/
theorem generateWork_root (inverse : invStage s.p s.r = .ok x)
    (root : modSqrt s.p (a ^ 3 % s.p * x % s.p) = .ok b) :
    generateWork a s = (do
      let d ← discStage s.p (a ^ 3 % s.p) (a ^ 3 % s.p * x % s.p)
      return { s.solved a x b with discr := d }) := by
  rw [generateWork, solveStages_ok inverse root]
  rfl

theorem generateWork_disc (inverse : invStage s.p s.r = .ok x)
    (root : modSqrt s.p (a ^ 3 % s.p * x % s.p) = .ok b)
    (singular : (4 * (a ^ 3 % s.p) + 27 * (a ^ 3 % s.p * x % s.p)) % s.p = 0) :
    generateWork a s = .error ⟨.singularCurve, .disc⟩ := by
  rw [generateWork_root inverse root, discStage_error singular]
  rfl

theorem generateWork_generated (inverse : invStage s.p s.r = .ok x)
    (root : modSqrt s.p (a ^ 3 % s.p * x % s.p) = .ok b)
    (nonsingular : (4 * (a ^ 3 % s.p) + 27 * (a ^ 3 % s.p * x % s.p)) % s.p ≠ 0) :
    generateWork a s = .ok (s.generated a x b) := by
  rw [generateWork_root inverse root, discStage_ok nonsingular]
  rfl

end

/-! The outcomes of GENERATE (R176). -/

/-- The write set of GENERATE, zeroed. -/
def State.ungenerated (s : State) : State :=
  { s with lbits := 0, r := 0, a3 := 0, rinv := 0, b2val := 0, b1 := 0, b2 := 0, discr := 0 }

theorem zeroSet_writeSet_generate (adef : Bool) (s : State) :
    s.zeroSet (writeSet (.generate adef)) = s.ungenerated := by
  simp only [writeSet, State.zeroSet, List.foldl, State.zeroReg, State.setBig, State.ungenerated]

/-- The history of the port after the stage EXPAND of GENERATE. -/
def State.curveHistory (s : State) : List PortEvent :=
  portHistory s.hashOf (expandMessages s.seedBytes (bitlen s.p))

section
variable {adef : Bool} {s : State}

/-- Past CHECK, GENERATE is its work. -/
theorem generateStages_past (fine : ¬ CheckCause s (.generate adef)) :
    generateStages adef s = generateWork (s.effectiveA adef) s.expanded := by
  rcases generateStages_cases adef s with ⟨-, past⟩ | refused
  · exact past
  · rcases generateStages_ends adef s with ⟨cause, -⟩ | ⟨-, past⟩
    · exact absurd cause fine
    · rw [refused] at past
      cases past

theorem exec_generate_check (cause : CheckCause s (.generate adef)) :
    exec (.generate adef) s = .next (s.ungenerated.completed .badOperand .check []) := by
  rcases generateStages_ends adef s with ⟨-, refused⟩ | ⟨fine, -⟩
  · rw [exec, execGenerate, refused, settle_error, if_pos rfl, zeroSet_writeSet_generate]
  · exact absurd cause fine

theorem exec_generate_error {e : Raise} (fine : ¬ CheckCause s (.generate adef))
    (raised : generateWork (s.effectiveA adef) s.expanded = .error e) (later : e.stage ≠ .check) :
    exec (.generate adef) s = .next (s.ungenerated.completed e.kind e.stage s.curveHistory) := by
  rw [exec, execGenerate, generateStages_past fine, raised, settle_error, if_neg later,
    zeroSet_writeSet_generate]
  rfl

theorem exec_generate_ok {t : State} (fine : ¬ CheckCause s (.generate adef))
    (work : generateWork (s.effectiveA adef) s.expanded = .ok t) :
    exec (.generate adef) s = .next (t.completed .none .fin s.curveHistory) := by
  rw [exec, execGenerate, generateStages_past fine, work]
  rfl

end

/-- The stage EXPAND of GENERATE gives a residue (`40_seed_expander.md` R120). -/
theorem expanded_r_lt {s : State} (pos : 1 ≤ s.p) : s.expanded.r < s.p :=
  (expand_lt _ _ (by rw [bitlen_of_pos pos]; omega)).trans_le (two_pow_bitlen_le pos)

theorem two_le_bitlen {p : Nat} (h : 2 ≤ p) : 2 ≤ bitlen p := by
  by_contra less
  have := bitlen_le_iff.mp (show bitlen p ≤ 1 by omega)
  omega

/-- Settles O25: CHECK, then the first of the stages INV, SQRT and DISC that raises, or none. -/
theorem generateCommand : Obligations.GenerateCommand := by
  unfold Obligations.GenerateCommand
  refine ⟨commandHeader_of_encode (by decide) (Sys2Proof.Laws.EncodeDecode.generate false),
    commandHeader_of_encode (by decide) (Sys2Proof.Laws.EncodeDecode.generate true), fun adef s inv =>
    ⟨exec_generate_check, fun h2 h3 seedPos seedFits => ?_⟩⟩
  have fine : ¬ CheckCause s (.generate adef) := by
    simp only [CheckCause, not_or, not_and, not_lt]
    exact ⟨h2, h3, seedPos, seedFits⟩
  have residue : s.expanded.r < s.p := expanded_r_lt (by omega)
  have two := two_le_bitlen h2
  have requests : s.curveHistory.length = 2 * ((bitlen s.p + 159) / 160) := by
    rw [State.curveHistory, portHistory_length, expandMessages_length, sCount_succ (by omega)]
  have reduced : s.expanded.r % s.expanded.p = s.expanded.r := Nat.mod_eq_of_lt residue
  refine ⟨two, bitlen_p_le inv, residue, requests, fun shared => ?_, fun coprime => ?_⟩
  · exact exec_generate_error fine (generateWork_inv (invStage_error h2 (by rw [reduced]; exact shared))) (by decide)
  · obtain ⟨x, found, lt, inverse⟩ := invStage_ok (r := s.expanded.r) (p := s.expanded.p) h2
      (by rw [reduced]; exact coprime)
    exact ⟨x, pos_of_mul_mod_eq_one inverse, Nat.le_sub_one_of_lt lt, inverse,
      fun k noRoot => exec_generate_error fine (generateWork_sqrt found noRoot) Stage.noConfusion,
      fun b root => ⟨fun singular => exec_generate_error fine (generateWork_disc found root singular) (by decide),
        fun nonsingular => exec_generate_ok fine (generateWork_generated found root nonsingular)⟩⟩

/-! GENERATE on a prime modulus. -/

/-- With x the inverse of r, the discriminant is that of a³ · (4r + 27) up to the factor r. -/
theorem singular_iff_of_prime {p a r x : Nat} (prime : p.Prime) (inverse : r * x % p = 1) :
    (4 * (a ^ 3 % p) + 27 * (a ^ 3 % p * x % p)) % p = 0 ↔ p ∣ a ∨ p ∣ 4 * r + 27 := by
  have := Fact.mk prime
  have one : (r : ZMod p) * x = 1 := by
    rw [← Nat.cast_mul, ← Nat.cast_one, ZMod.natCast_eq_natCast_iff', inverse, Nat.mod_eq_of_lt prime.one_lt]
  have r_ne_zero : (r : ZMod p) ≠ 0 := left_ne_zero_of_mul_eq_one one
  have scaled : (r : ZMod p) * (4 * a ^ 3 + 27 * (a ^ 3 * x)) = a ^ 3 * (4 * r + 27) := by
    linear_combination 27 * (a : ZMod p) ^ 3 * one
  rw [← Nat.dvd_iff_mod_eq_zero, ← ZMod.natCast_eq_zero_iff, ← ZMod.natCast_eq_zero_iff, ← ZMod.natCast_eq_zero_iff]
  push_cast
  rw [ZMod.natCast_mod, ZMod.natCast_mod, Nat.cast_mul, ZMod.natCast_mod, Nat.cast_pow,
    ← mul_eq_zero_iff_left r_ne_zero, scaled, mul_eq_zero, pow_eq_zero_iff (by decide)]

/-- Modulo a prime the expansion has an inverse unless it is 0. -/
theorem invStage_expanded {s : State} (prime : s.p.Prime) (ne_zero : s.expanded.r ≠ 0) :
    ∃ x, invStage s.p s.expanded.r = .ok x ∧ x < s.p ∧ s.expanded.r * x % s.p = 1 :=
  invStage_ok prime.two_le (gcd_mod_of_prime prime (by rwa [Nat.mod_eq_of_lt (expanded_r_lt prime.pos)]))

/-- Settles O26: the inverse and the root exist and the curve is not singular. -/
theorem generateSucceedsOnPrimes : Obligations.GenerateSucceedsOnPrimes := by
  unfold Obligations.GenerateSucceedsOnPrimes
  intro adef s inv prime h3 seedPos seedFits a r ne_zero residue notA notR
  have h2 := prime.two_le
  have fine : ¬ CheckCause s (.generate adef) := by
    simp only [CheckCause, not_or, not_and, not_lt]
    exact ⟨h2, h3, seedPos, seedFits⟩
  obtain ⟨x, found, lt, inverse⟩ := invStage_expanded prime ne_zero
  obtain ⟨b, root⟩ := modSqrt_of_mul_root prime inverse residue
  have nonsingular : (4 * (a ^ 3 % s.p) + 27 * (a ^ 3 % s.p * x % s.p)) % s.p ≠ 0 := by
    rw [Ne, singular_iff_of_prime prime inverse, not_or]
    exact ⟨notA, notR⟩
  obtain ⟨relation, -, -, sum⟩ := solved_curveRelation (s := s.expanded) h2 inverse root
  exact ⟨_, exec_generate_ok fine (generateWork_generated found root nonsingular), rfl, rfl, rfl, relation,
    (Nat.add_comm _ _).trans sum⟩

/-- Settles O24: the outcomes of DISC are those of the discriminant, and P ∣ a makes B2VAL 0, which has a root. -/
theorem singularCurveExactlyWhen : Obligations.SingularCurveExactlyWhen := by
  unfold Obligations.SingularCurveExactlyWhen
  intro adef s t inv prime runs a r past ne_zero
  have fine := not_checkCause_of_stage runs past
  obtain ⟨x, found, lt, inverse⟩ := invStage_expanded prime ne_zero
  have singular := singular_iff_of_prime (a := a) prime inverse
  cases answer : modSqrt s.p (a ^ 3 % s.p * x % s.p) with
  | ok b =>
    by_cases zero : (4 * (a ^ 3 % s.p) + 27 * (a ^ 3 % s.p * x % s.p)) % s.p = 0
    · rw [exec_generate_error fine (generateWork_disc found answer zero) (by decide)] at runs
      cases runs
      exact ⟨fun _ => ⟨fun _ => singular.mp zero, fun _ => rfl⟩, fun _ => rfl⟩
    · rw [exec_generate_ok fine (generateWork_generated found answer zero)] at runs
      cases runs
      exact ⟨fun _ => ⟨ErrKind.noConfusion, fun divides => absurd (singular.mpr divides) zero⟩,
        fun divides => absurd (singular.mpr (Or.inl divides)) zero⟩
  | error k =>
    rw [exec_generate_error fine (generateWork_sqrt found answer) Stage.noConfusion] at runs
    cases runs
    refine ⟨fun notNoRoot => ?_, fun divides => ?_⟩
    · rcases modSqrt_error answer with ⟨-, even, ne_two⟩ | ⟨isNoRoot, -⟩
      · have := prime.eq_two_or_odd
        omega
      · exact absurd isNoRoot notNoRoot
    · have cube : a ^ 3 % s.p = 0 := Nat.mod_eq_zero_of_dvd (dvd_pow divides (by decide))
      obtain ⟨b, root⟩ := modSqrt_of_mul_root (c := a ^ 3) prime inverse ⟨0, by simp [cube]⟩
      rw [answer] at root
      cases root

end Sys2Proof.Machine
end

section
/-! Proofs: GENERATE and the chain BITLEN, EXPAND, SOLVE, DISC (`43_curve_generator.md` R177). -/

namespace Sys2Proof.Machine

/-! The chain past BITLEN and EXPAND. -/

/-- The chain past BITLEN, at EXPAND. -/
def State.measured (s : State) : State :=
  ({ s with lbits := BitVec.ofNat 32 (bitlen s.p) } : State).ran .bitlen .none .fin

/-- The chain past EXPAND, at SOLVE. -/
def State.chainExpanded (s : State) : State :=
  ({ s.expanded with cmd := encode .expand } : State).completed .none .fin s.curveHistory

theorem runChain_measured (is : List Instr) (s : State) : runChain (.bitlen :: is) s = runChain is s.measured :=
  runChain_cons_ok (exec_bitlen (s.accept (encode .bitlen))) rfl

section
variable {s : State}

/-- The causes for which EXPAND is refused in the chain: LBITS is at most W there. -/
theorem checkCause_expand_measured (inv : s.Inv) :
    CheckCause s.measured .expand ↔ (s.seedlen.toNat < 1 ∨ s.cfg.seedMax < s.seedlen.toNat) ∨ s.p = 0 := by
  have width := bitlen_p_le inv
  have zero : bitlen s.p < 1 ↔ s.p = 0 := by
    rw [Nat.lt_one_iff, ← Nat.le_zero, bitlen_le_iff, pow_zero, Nat.lt_one_iff]
  have lbits : s.measured.lbits.toNat = bitlen s.p := bitlen_word_toNat inv
  have cause : CheckCause s.measured .expand ↔ (s.seedlen.toNat < 1 ∨ s.cfg.seedMax < s.seedlen.toNat) ∨
      (s.measured.lbits.toNat < 1 ∨ s.cfg.width < s.measured.lbits.toNat) := Iff.rfl
  rw [cause, lbits, zero, or_iff_left (not_lt.mpr width)]

theorem runOne_expand_measured (inv : s.Inv) (fine : ¬ CheckCause s.measured .expand) :
    runOne .expand s.measured = .next s.chainExpanded := by
  have ran := exec_expand_ok (s := s.measured.accept (encode .expand)) fine
  have lbits : (s.measured.accept (encode .expand)).lbits.toNat = bitlen s.p := bitlen_word_toNat inv
  rw [lbits] at ran
  exact ran

/-- Where EXPAND is not refused the chain goes on at SOLVE. -/
theorem runChain_expanded (inv : s.Inv) (fine : ¬ CheckCause s.measured .expand) (is : List Instr) :
    runChain (.bitlen :: .expand :: is) s = runChain is s.chainExpanded :=
  (runChain_measured _ s).trans (runChain_cons_ok (runOne_expand_measured inv fine) rfl)

end

/-! The two ends of R177. -/

/-- What R177 says of the end t of GENERATE and the end u of the chain, both begun in s. -/
structure GenerateAgrees (adef : Bool) (s t u : State) : Prop where
  err : t.status.err = u.status.err
  stage : t.status.stage = u.status.stage
  success : t.status.err = .none → u = { t with cmd := encode .disc, hist := u.hist }
  lbits : u.lbits = BitVec.ofNat 32 (bitlen s.p)
  expanded : t.status.stage ≠ .check → u.r = s.expanded.r
  solved : t.status.stage = .disc →
    u.a3 = s.effectiveA adef ^ 3 % s.p ∧ u.r * u.rinv % s.p = 1 ∧ u.b2val = u.a3 * u.rinv % s.p ∧
      u.b1 * u.b1 % s.p = u.b2val ∧ u.b2 = s.p - u.b1 ∧ u.discr = 0

/-- GENERATE and the chain, both begun in s, come to ends that agree. -/
def RunsAgree (adef : Bool) (s : State) : Prop :=
  ∃ t u, runOne (.generate adef) s = .next t ∧ runChain [.bitlen, .expand, .solve adef, .disc] s = .next u ∧
    GenerateAgrees adef s t u

section
variable {adef : Bool} {s : State}

/-- Where GENERATE is refused, EXPAND or SOLVE is. -/
theorem runsAgree_of_checkCause (inv : s.Inv) (cause : CheckCause s (.generate adef)) : RunsAgree adef s := by
  have generated := exec_generate_check (s := s.accept (encode (.generate adef))) cause
  by_cases expand : CheckCause s.measured .expand
  · have chain := (runChain_measured [.expand, .solve adef, .disc] s).trans (runChain_cons_error
      (exec_expand_check (s := s.measured.accept (encode .expand)) expand) ErrKind.noConfusion)
    exact ⟨_, _, generated, chain, rfl, rfl, ErrKind.noConfusion, rfl, fun h => absurd rfl h, Stage.noConfusion⟩
  · have coefficient : s.p < 2 ∨ (adef = true ∧ s.p < 3) := by
      rcases cause with modulus | default | seedlen
      · exact Or.inl modulus
      · exact Or.inr default
      · exact absurd ((checkCause_expand_measured inv).mpr (Or.inl seedlen)) expand
    have chain := (runChain_expanded inv expand [.solve adef, .disc]).trans (runChain_cons_error
      (exec_solve_check (s := s.chainExpanded.accept (encode (.solve adef))) coefficient) ErrKind.noConfusion)
    exact ⟨_, _, generated, chain, rfl, rfl, ErrKind.noConfusion, rfl, fun h => absurd rfl h, Stage.noConfusion⟩

/-- Past CHECK of GENERATE neither EXPAND nor SOLVE is refused. -/
theorem chain_not_refused (inv : s.Inv) (fine : ¬ CheckCause s (.generate adef)) :
    2 ≤ s.p ∧ (adef = true → 3 ≤ s.p) ∧ ¬ CheckCause s.measured .expand := by
  simp only [CheckCause, not_or, not_and] at fine
  obtain ⟨modulus, default, seedlen⟩ := fine
  refine ⟨not_lt.mp modulus, fun isDefault => not_lt.mp (default isDefault), ?_⟩
  rw [checkCause_expand_measured inv, not_or, not_or]
  exact ⟨seedlen, by omega⟩

/-- Where the stages of SOLVE on this P and this expansion raise, GENERATE and the chain raise it. -/
theorem runsAgree_of_solveStages_error {e : Raise} (inv : s.Inv) (fine : ¬ CheckCause s (.generate adef))
    (raised : ∀ v : State, v.p = s.p → v.r = s.expanded.r → solveStages (s.effectiveA adef) v = .error e)
    (kind : e.kind ≠ .none) (check : e.stage ≠ .check) (disc : e.stage ≠ .disc) : RunsAgree adef s := by
  obtain ⟨h2, h3, expand⟩ := chain_not_refused inv fine
  have work : generateWork (s.effectiveA adef) (s.accept (encode (.generate adef))).expanded = .error e := by
    rw [generateWork, raised (s.accept (encode (.generate adef))).expanded rfl rfl]
    rfl
  have generated := exec_generate_error (s := s.accept (encode (.generate adef))) fine work check
  have chain := (runChain_expanded inv expand [.solve adef, .disc]).trans (runChain_cons_error
    (exec_solve_error (s := s.chainExpanded.accept (encode (.solve adef))) h2 h3 (raised _ rfl rfl)) kind)
  exact ⟨_, _, generated, chain, rfl, rfl, fun h => absurd h kind, rfl, fun _ => rfl, fun h => absurd h disc⟩

/-- Past SQRT, DISC decides in GENERATE and in the chain alike. -/
theorem runsAgree_of_root {x b : Nat} (inv : s.Inv) (fine : ¬ CheckCause s (.generate adef))
    (found : invStage s.p s.expanded.r = .ok x) (inverse : s.expanded.r * x % s.p = 1)
    (root : modSqrt s.p (s.effectiveA adef ^ 3 % s.p * x % s.p) = .ok b) : RunsAgree adef s := by
  obtain ⟨h2, h3, expand⟩ := chain_not_refused inv fine
  obtain ⟨-, square, -⟩ := modSqrt_ok h2 root
  have solved := exec_solve_ok (s := s.chainExpanded.accept (encode (.solve adef))) h2 h3 (solveStages_ok found root)
  have chain := (runChain_expanded inv expand [.solve adef, .disc]).trans (runChain_cons_ok solved rfl)
  by_cases singular : (4 * (s.effectiveA adef ^ 3 % s.p) + 27 * (s.effectiveA adef ^ 3 % s.p * x % s.p)) % s.p = 0
  · have generated := exec_generate_error (s := s.accept (encode (.generate adef))) fine
      (generateWork_disc found root singular) Stage.noConfusion
    refine ⟨_, _, generated, chain.trans (runChain_cons_error (exec_disc_error h2 singular) ErrKind.noConfusion), rfl,
      rfl, ErrKind.noConfusion, rfl, fun _ => rfl,
      fun _ => ⟨rfl, inverse, rfl, square.trans (Nat.mod_mod _ _), rfl, rfl⟩⟩
  · have generated := exec_generate_ok (s := s.accept (encode (.generate adef))) fine
      (generateWork_generated found root singular)
    exact ⟨_, _, generated, chain.trans (runChain_cons_ok (exec_disc_ok h2 singular) rfl), rfl, rfl, fun _ => rfl, rfl,
      fun _ => rfl, Stage.noConfusion⟩

/-- By the first stage of GENERATE that raises: CHECK, INV, SQRT, DISC, or none. -/
theorem runsAgree (adef : Bool) (inv : s.Inv) : RunsAgree adef s := by
  by_cases cause : CheckCause s (.generate adef)
  · exact runsAgree_of_checkCause inv cause
  obtain ⟨h2, -⟩ := chain_not_refused inv cause
  rcases invStage_cases s.p s.expanded.r h2 with ⟨-, x, found, -, inverse⟩ | ⟨-, noInverse⟩
  · cases answer : modSqrt s.p (s.effectiveA adef ^ 3 % s.p * x % s.p) with
    | ok b => exact runsAgree_of_root inv cause found inverse answer
    | error k =>
      exact runsAgree_of_solveStages_error inv cause
        (fun v sameP sameR => solveStages_sqrt (by rwa [sameP, sameR]) (by rwa [sameP]))
        (modSqrt_error_ne_none answer) Stage.noConfusion Stage.noConfusion
  · exact runsAgree_of_solveStages_error inv cause (fun v sameP sameR => solveStages_inv (by rwa [sameP, sameR]))
      ErrKind.noConfusion Stage.noConfusion Stage.noConfusion

end

/-- Settles O27: the ends agree, and GENERATE zeroes its write set on every error. -/
theorem generateAgreesWithUnitCommands : Obligations.GenerateAgreesWithUnitCommands := by
  unfold Obligations.GenerateAgreesWithUnitCommands
  intro adef s inv
  obtain ⟨t, u, generated, chain, agrees⟩ := runsAgree adef inv
  refine ⟨t, u, generated, chain, agrees.err, agrees.stage, agrees.success, fun failed => ?_, ?_, agrees.expanded,
    agrees.solved⟩
  · obtain ⟨zeroed, -⟩ := errorZeroesTheWriteSet _ _ t generated failed
    exact zeroed
  · rw [agrees.lbits, bitlen_word_toNat inv]

end Sys2Proof.Machine
end

section
/-! Proofs: what the outcome of a command depends on (`00_scope.md` R19, `10_state.md` R48): two states that agree on
the read set come to the same end. -/

namespace Sys2Proof.Machine

theorem sameReg_symm {s t : State} {x : DataReg} (h : SameReg s t x) : SameReg t s x := by
  cases x <;> exact Eq.symm h

theorem sameReg_of_zeroReg {s t : State} {x : DataReg} (cfg : s.cfg = t.cfg) (hs : ZeroReg s x) (ht : ZeroReg t x) :
    SameReg s t x := by
  cases x with
  | seed => exact hs.trans (cfg ▸ ht.symm)
  | _ => exact hs.trans ht.symm

/-! Answers that agree on a list of registers. -/

/-- Two answers of stages: results that agree on the registers ds, or one raise. -/
inductive SameEnd (ds : List DataReg) : Except Raise State → Except Raise State → Prop
  | ok {u v : State} (regs : ∀ x ∈ ds, SameReg u v x) : SameEnd ds (.ok u) (.ok v)
  | error (e : Raise) : SameEnd ds (.error e) (.error e)

namespace SameEnd

variable {ds es : List DataReg} {out out' : Except Raise State}

/-- A value that both compute, the one as the other, then the rest. -/
theorem bind {α : Type} {first first' : Except Raise α} {f g : α → Except Raise State} (same : first = first')
    (rest : ∀ x, SameEnd ds (f x) (g x)) : SameEnd ds (first >>= f) (first' >>= g) := by
  subst same
  cases first with
  | ok x => exact rest x
  | error e => exact .error e

/-- Stages that agree on es, then the rest. -/
theorem andThen {f g : State → Except Raise State} (h : SameEnd es out out')
    (rest : ∀ u v, (∀ x ∈ es, SameReg u v x) → SameEnd ds (f u) (g v)) : SameEnd ds (out >>= f) (out' >>= g) := by
  cases h with
  | ok regs => exact rest _ _ regs
  | error e => exact .error e

end SameEnd

/-! The operands (`60_exceptions.md` R214). -/

section
variable {s t : State}

theorem checkModulus_congr (p : s.p = t.p) : checkModulus s = checkModulus t := by
  rw [checkModulus, checkModulus, p]

theorem checkDefaultA_congr (adef : Bool) (p : s.p = t.p) : checkDefaultA adef s = checkDefaultA adef t := by
  rw [checkDefaultA, checkDefaultA, p]

theorem checkSeedLen_congr (cfg : s.cfg = t.cfg) (seedlen : s.seedlen = t.seedlen) :
    checkSeedLen s = checkSeedLen t := by
  rw [checkSeedLen, checkSeedLen, cfg, seedlen]

theorem checkLbits_congr (cfg : s.cfg = t.cfg) (lbits : s.lbits = t.lbits) : checkLbits s = checkLbits t := by
  rw [checkLbits, checkLbits, cfg, lbits]

theorem effectiveA_congr {adef : Bool} (p : s.p = t.p) (a : adef = false → s.a = t.a) :
    s.effectiveA adef = t.effectiveA adef := by
  cases adef with
  | false => exact a rfl
  | true => exact congrArg (· - 3) p

/-! The stages of the commands. -/

theorem expandStages_sameEnd (cfg : s.cfg = t.cfg) (hash : s.hashOf = t.hashOf) (seed : s.seedBytes = t.seedBytes)
    (seedlen : s.seedlen = t.seedlen) (lbits : s.lbits = t.lbits) :
    SameEnd [.big .r] (expandStages s) (expandStages t) :=
  .bind (checkSeedLen_congr cfg seedlen) fun _ => .bind (checkLbits_congr cfg lbits) fun _ =>
    .ok (by simp [SameReg, State.big, hash, seed, lbits])

theorem cubeStages_sameEnd {adef : Bool} (p : s.p = t.p) (a : s.effectiveA adef = t.effectiveA adef) :
    SameEnd [.big .a3] (cubeStages adef s) (cubeStages adef t) :=
  .bind (checkModulus_congr p) fun _ => .bind (checkDefaultA_congr adef p) fun _ =>
    .ok (by simp [SameReg, State.big, p, a])

theorem modinvStages_sameEnd (p : s.p = t.p) (r : s.r = t.r) :
    SameEnd [.big .rinv] (modinvStages s) (modinvStages t) :=
  .bind (checkModulus_congr p) fun _ => .bind (by rw [p, r]) fun x => .ok (by simp [SameReg, State.big])

theorem modmulStages_sameEnd (p : s.p = t.p) (a3 : s.a3 = t.a3) (rinv : s.rinv = t.rinv) :
    SameEnd [.big .b2val] (modmulStages s) (modmulStages t) :=
  .bind (checkModulus_congr p) fun _ => .ok (by simp [SameReg, State.big, p, a3, rinv])

theorem modsqrtStages_sameEnd (p : s.p = t.p) (b2val : s.b2val = t.b2val) :
    SameEnd [.big .b1, .big .b2] (modsqrtStages s) (modsqrtStages t) :=
  .bind (checkModulus_congr p) fun _ => .bind (by rw [p, b2val]) fun x => .ok (by simp [SameReg, State.big, p])

theorem discStages_sameEnd (p : s.p = t.p) (a3 : s.a3 = t.a3) (b2val : s.b2val = t.b2val) :
    SameEnd [.big .discr] (discStages s) (discStages t) :=
  .bind (checkModulus_congr p) fun _ => .bind (by rw [p, a3, b2val]) fun d => .ok (by simp [SameReg, State.big])

/-- The stages of SOLVE answer alike on one P and one R, and keep what agreed of P, LBITS and R before. -/
theorem solveStages_sameEnd {ds : List DataReg} (a : Nat) (p : s.p = t.p) (r : s.r = t.r)
    (sub : ds ⊆ [.big .p, .lbits, .big .r]) (before : ∀ x ∈ ds, SameReg s t x) :
    SameEnd (ds ++ writeSet (.solve false)) (solveStages a s) (solveStages a t) := by
  refine .bind (by rw [p, r]) fun x => .bind (by rw [p]) fun b => .ok fun d mem => ?_
  rcases List.mem_append.mp mem with kept | written
  · have agreed := before d kept
    have three := sub kept
    simp only [List.mem_cons, List.not_mem_nil, or_false] at three
    rcases three with rfl | rfl | rfl <;> exact agreed
  · simp only [writeSet, List.mem_cons, List.not_mem_nil, or_false] at written
    rcases written with rfl | rfl | rfl | rfl | rfl <;> simp only [SameReg, State.big, p]

theorem solveChecked_sameEnd {adef : Bool} (p : s.p = t.p) (r : s.r = t.r)
    (a : s.effectiveA adef = t.effectiveA adef) :
    SameEnd (writeSet (.solve adef)) (solveChecked adef s) (solveChecked adef t) := by
  rw [solveChecked, solveChecked, a]
  exact .bind (checkModulus_congr p) fun _ => .bind (checkDefaultA_congr adef p) fun _ =>
    solveStages_sameEnd (ds := []) _ p r (List.nil_subset _) (by simp)

/-- Stage DISC reads P and the results of SOLVE's stages (`43_curve_generator.md` R176). -/
theorem generateWork_sameEnd (adef : Bool) (a : Nat) (p : s.p = t.p) (lbits : s.lbits = t.lbits) (r : s.r = t.r) :
    SameEnd (writeSet (.generate adef)) (generateWork a s) (generateWork a t) := by
  have solved := solveStages_sameEnd a p r (List.Subset.refl _) (by simp [SameReg, State.big, p, lbits, r])
  refine solved.andThen fun u v regs => ?_
  have sameP : u.p = v.p := regs (.big .p) (by simp)
  have sameA3 : u.a3 = v.a3 := regs (.big .a3) (by simp [writeSet])
  have sameB2val : u.b2val = v.b2val := regs (.big .b2val) (by simp [writeSet])
  refine .bind (by rw [sameP, sameA3, sameB2val]) fun d => .ok fun x mem => ?_
  by_cases isDiscr : x = .big .discr
  · rw [isDiscr]
    rfl
  · have earlier : x ∈ [.big .p, .lbits, .big .r] ++ writeSet (.solve false) := by
      simp only [writeSet, List.mem_cons, isDiscr, or_false, List.not_mem_nil] at mem
      simp only [writeSet, List.mem_append, List.mem_cons, List.not_mem_nil, or_false]
      tauto
    exact sameReg_trans (sameReg_symm (sameReg_setBig u d isDiscr))
      (sameReg_trans (regs x earlier) (sameReg_setBig v d isDiscr))

theorem generateStages_sameEnd {adef : Bool} (cfg : s.cfg = t.cfg) (hash : s.hashOf = t.hashOf) (p : s.p = t.p)
    (seed : s.seedBytes = t.seedBytes) (seedlen : s.seedlen = t.seedlen)
    (a : s.effectiveA adef = t.effectiveA adef) :
    SameEnd (writeSet (.generate adef)) (generateStages adef s) (generateStages adef t) := by
  have work : SameEnd (writeSet (.generate adef)) (generateWork (s.effectiveA adef) s.expanded)
      (generateWork (t.effectiveA adef) t.expanded) := by
    rw [a]
    exact generateWork_sameEnd adef _ p (by simp [State.expanded, p]) (by simp [State.expanded, hash, seed, p])
  exact .bind (checkModulus_congr p) fun _ => .bind (checkDefaultA_congr adef p) fun _ =>
    .bind (checkSeedLen_congr cfg seedlen) fun _ => work

/-! Every command. -/

/-- Two states that agree on all that command i may look at. -/
structure SameReads (i : Instr) (s t : State) : Prop where
  cfg : s.cfg = t.cfg
  hash : s.hashOf = t.hashOf
  inputs : ∀ x ∈ readSet i, SameInput s t x

/-- The coefficient that a command with ADEF uses is the one of P or of A. -/
theorem SameReads.effectiveA {i : Instr} {adef : Bool} (h : SameReads i s t) (p : .big .p ∈ readSet i)
    (a : adef = false → .big .a ∈ readSet i) : s.effectiveA adef = t.effectiveA adef :=
  effectiveA_congr (h.inputs _ p) fun isFalse => h.inputs _ (a isFalse)

theorem commandMessages_congr {i : Instr} (h : SameReads i s t) : commandMessages i s = commandMessages i t := by
  cases i with
  | expand =>
    have seed : s.seedBytes = t.seedBytes := h.inputs .seed (by simp [readSet])
    have lbits : s.lbits = t.lbits := h.inputs .lbits (by simp [readSet])
    rw [commandMessages, commandMessages, seed, lbits]
  | generate adef =>
    have seed : s.seedBytes = t.seedBytes := h.inputs .seed (by cases adef <;> simp [readSet])
    have p : s.p = t.p := h.inputs (.big .p) (by cases adef <;> simp [readSet])
    rw [commandMessages, commandMessages, seed, p]
  | _ => rfl

theorem commandStages_sameEnd {i : Instr} (h : SameReads i s t) :
    SameEnd (writeSet i) (commandStages i s) (commandStages i t) := by
  cases i with
  | nop => exact .ok (by simp [writeSet])
  | bitlen =>
    have p : s.p = t.p := h.inputs (.big .p) (by simp [readSet])
    exact .ok (by simp [writeSet, SameReg, p])
  | expand =>
    exact expandStages_sameEnd h.cfg h.hash (h.inputs .seed (by simp [readSet])) (h.inputs .seedlen (by simp [readSet]))
      (h.inputs .lbits (by simp [readSet]))
  | cube adef =>
    have p : .big .p ∈ readSet (.cube adef) := by cases adef <;> simp [readSet]
    exact cubeStages_sameEnd (h.inputs _ p) (h.effectiveA p (by rintro rfl; simp [readSet]))
  | modinv =>
    exact modinvStages_sameEnd (h.inputs (.big .p) (by simp [readSet])) (h.inputs (.big .r) (by simp [readSet]))
  | modmul =>
    exact modmulStages_sameEnd (h.inputs (.big .p) (by simp [readSet])) (h.inputs (.big .a3) (by simp [readSet]))
      (h.inputs (.big .rinv) (by simp [readSet]))
  | modsqrt =>
    exact modsqrtStages_sameEnd (h.inputs (.big .p) (by simp [readSet])) (h.inputs (.big .b2val) (by simp [readSet]))
  | disc =>
    exact discStages_sameEnd (h.inputs (.big .p) (by simp [readSet])) (h.inputs (.big .a3) (by simp [readSet]))
      (h.inputs (.big .b2val) (by simp [readSet]))
  | solve adef =>
    have p : .big .p ∈ readSet (.solve adef) := by cases adef <;> simp [readSet]
    exact solveChecked_sameEnd (h.inputs _ p) (h.inputs (.big .r) (by cases adef <;> simp [readSet]))
      (h.effectiveA p (by rintro rfl; simp [readSet]))
  | generate adef =>
    have p : .big .p ∈ readSet (.generate adef) := by cases adef <;> simp [readSet]
    exact generateStages_sameEnd h.cfg h.hash (h.inputs _ p) (h.inputs .seed (by cases adef <;> simp [readSet]))
      (h.inputs .seedlen (by cases adef <;> simp [readSet])) (h.effectiveA p (by rintro rfl; simp [readSet]))
  | clear =>
    exact .ok fun x mem => sameReg_of_zeroReg (by rw [State.zeroSet_cfg, State.zeroSet_cfg, h.cfg])
      (zeroSet_zero _ s mem) (zeroSet_zero _ t mem)

/-- Two completions with the same ERR, STAGE, history and registers ds. -/
def SameCompletion (ds : List DataReg) (u v : State) : Prop :=
  u.status.err = v.status.err ∧ u.status.stage = v.status.stage ∧ u.hist = v.hist ∧ ∀ x ∈ ds, SameReg u v x

theorem sameCompletion_completed {ds : List DataReg} (k : ErrKind) (st : Stage) (ev : List PortEvent)
    (regs : ∀ x ∈ ds, SameReg s t x) : SameCompletion ds (s.completed k st ev) (t.completed k st ev) :=
  ⟨rfl, rfl, rfl, fun x mem =>
    sameReg_completed k st ev (sameReg_symm (sameReg_completed k st ev (sameReg_symm (regs x mem))))⟩

theorem SameEnd.settle {ds : List DataReg} {out out' : Except Raise State} (h : SameEnd ds out out')
    (cfg : s.cfg = t.cfg) (ev : List PortEvent) : SameCompletion ds (s.settle ds ev out) (t.settle ds ev out') := by
  cases h with
  | ok regs =>
    rw [settle_ok, settle_ok]
    exact sameCompletion_completed _ _ _ regs
  | error e =>
    rw [settle_error, settle_error]
    exact sameCompletion_completed _ _ _ fun x mem =>
      sameReg_of_zeroReg (by rw [State.zeroSet_cfg, State.zeroSet_cfg, cfg]) (zeroSet_zero _ s mem)
        (zeroSet_zero _ t mem)

end

/-- Settles O29: the stages of a command answer alike, and its messages are the same. -/
theorem readSetDeterminesOutcome : Obligations.ReadSetDeterminesOutcome := by
  unfold Obligations.ReadSetDeterminesOutcome
  intro i s t s' t' cfg hash inputs runs runs'
  have same : SameReads i s t := ⟨cfg, funext hash, inputs⟩
  rw [exec_eq] at runs runs'
  cases runs
  cases runs'
  rw [same.hash, commandMessages_congr same]
  exact (commandStages_sameEnd same).settle cfg _

end Sys2Proof.Machine
end
